-- ==== Sys2Proof/Word.lean ====
section
/-! DEFINITION. The word types of the block: bytes, 64-bit registers and 9-bit node numbers
(00_scope.md R6, R7; 10_state.md R22, R35). -/

namespace Sys2Proof

/-- A symbol, and one byte of IN_MEM, OUT_MEM or PAYLOAD (00_scope.md R6 (a)). -/
abbrev Byte := BitVec 8

/-- A register, a command word, a count (10_state.md R22, R33). -/
abbrev Word := BitVec 64

/-- A node's number as a branch stores it (10_state.md R35). -/
abbrev NodeIx := BitVec 9

end Sys2Proof
end

