-- ==== Sys2Proof/Syntax.lean ====
section
/-! DEFINITION. The instructions: one constructor for each of the eighteen rows of spec/opcode_table.json
(30_encoding.md R121), and the fields a command word has (R100). -/

namespace Sys2Proof

/-- The eighteen commands (30_encoding.md R101, R121). None has an operand: ALG and SRC are part of the
command's spelling (`.H`, `.C`). -/
inductive Instr where
  /-- FREQ, 0x001: frequency analysis (R140). -/
  | freq
  /-- BUILD, 0x002: tree by the two-queue variant (R152, R154). -/
  | build
  /-- BUILD.H, 0x102: tree by the heap variant (R152, R153). -/
  | buildH
  /-- CODEBOOK, 0x003: codes from the tree (R171). -/
  | codebook
  /-- CODE, 0x004: input bytes to bit stream (R174). -/
  | code
  /-- PACK, 0x005: bit stream to payload bytes (R192). -/
  | pack
  /-- SERIALIZE, 0x006: container to OUT_MEM (R200). -/
  | serialize
  /-- PARSE, 0x011: container from IN_MEM (R205). -/
  | parse
  /-- UNPACK, 0x012: payload bytes to bit stream (R193). -/
  | unpack
  /-- WALK, 0x013: bit stream to symbols in OUT_MEM (R230). -/
  | walk
  /-- ENCODE, 0x020 (R240). -/
  | encode
  /-- ENCODE.H, 0x120 (R240). -/
  | encodeH
  /-- DECODE, 0x021 (R241). -/
  | decode
  /-- DECODE.H, 0x121 (R241). -/
  | decodeH
  /-- STATS, 0x022: statistics of raw bytes (R242). -/
  | stats
  /-- STATS.H, 0x122 (R242). -/
  | statsH
  /-- STATS.C, 0x222: statistics of a container (R242). -/
  | statsC
  /-- STATS.H.C, 0x322 (R242). -/
  | statsHC
  deriving DecidableEq, Repr

/-- The four fields of a command word (30_encoding.md R100). -/
structure CmdFields where
  /-- Bits 7:0. -/
  opcode : Byte
  /-- Bit 8: true selects the heap variant (R102). -/
  alg : Bool
  /-- Bit 9: true says that IN_MEM holds a container (R103). -/
  src : Bool
  /-- Bits 63:10, which must be 0 (R104). -/
  rest : BitVec 54
  deriving DecidableEq, Repr

end Sys2Proof
end

