-- ==== Sys2Proof/WellFormed.lean ====
section
/-! DEFINITION. When the fields of a command word make a command (30_encoding.md R101 to R106). An `Instr` has
no operand that could be ill-formed, so the checks are on the fields that spell it. -/

namespace Sys2Proof

/-- OPCODE is one of the twelve values of 30_encoding.md R101. -/
def CmdFields.opcodeAssigned (f : CmdFields) : Bool :=
  [0x01#8, 0x02#8, 0x03#8, 0x04#8, 0x05#8, 0x06#8, 0x11#8, 0x12#8, 0x13#8, 0x20#8, 0x21#8, 0x22#8].contains f.opcode

/-- Bits 63:10 are 0 (30_encoding.md R104). -/
def CmdFields.restZero (f : CmdFields) : Bool := f.rest == 0#54

/-- ALG is 1 only with BUILD, ENCODE, DECODE or STATS (30_encoding.md R101, R104). -/
def CmdFields.algLegal (f : CmdFields) : Bool :=
  !f.alg || [0x02#8, 0x20#8, 0x21#8, 0x22#8].contains f.opcode

/-- SRC is 1 only with STATS (30_encoding.md R101, R104). -/
def CmdFields.srcLegal (f : CmdFields) : Bool := !f.src || f.opcode == 0x22#8

/-- The fields make a command. -/
def CmdFields.wellFormed (f : CmdFields) : Bool :=
  f.opcodeAssigned && f.restZero && f.algLegal && f.srcLegal

end Sys2Proof
end

