-- ==== Sys2Proof/Decode.lean ====
section
/-! DEFINITION. Decoding a command word (30_encoding.md R105), the encoder (R121), and the host's reading of
an opcode-table word. -/

namespace Sys2Proof

/-- Why a word is no command (30_encoding.md R105; 60_exceptions.md R261, KIND 1). -/
inductive CmdReject where
  /-- OPCODE is not one of the twelve. -/
  | reservedOpcode
  /-- A reserved bit, or an ALG or SRC that the OPCODE does not allow, is 1. -/
  | reservedBits
  deriving DecidableEq, Repr

/-- What a word decodes to: exactly one command, or one rejection (30_encoding.md R105). -/
inductive Decoded where
  /-- A command. -/
  | command (i : Instr)
  /-- No command: CMD_ERROR with this cause. -/
  | reject (r : CmdReject)
  deriving DecidableEq, Repr

/-- The fields of a command word (30_encoding.md R100). -/
def splitWord (v : Word) : CmdFields :=
  { opcode := v.extractLsb' 0 8, alg := v.getLsbD 8, src := v.getLsbD 9, rest := v.extractLsb' 10 54 }

/-- The command word with these fields (30_encoding.md R100). -/
def joinWord (f : CmdFields) : Word := f.rest ++ BitVec.ofBool f.src ++ BitVec.ofBool f.alg ++ f.opcode

/-- The command that OPCODE, ALG and SRC name (30_encoding.md R101); none where the OPCODE is reserved, and
none where ALG or SRC is not legal with it. -/
def dispatchFields (op : Byte) (alg src : Bool) : Option Instr :=
  match op.toNat, alg, src with
  | 0x01, false, false => some .freq
  | 0x02, false, false => some .build
  | 0x02, true, false => some .buildH
  | 0x03, false, false => some .codebook
  | 0x04, false, false => some .code
  | 0x05, false, false => some .pack
  | 0x06, false, false => some .serialize
  | 0x11, false, false => some .parse
  | 0x12, false, false => some .unpack
  | 0x13, false, false => some .walk
  | 0x20, false, false => some .encode
  | 0x20, true, false => some .encodeH
  | 0x21, false, false => some .decode
  | 0x21, true, false => some .decodeH
  | 0x22, false, false => some .stats
  | 0x22, true, false => some .statsH
  | 0x22, false, true => some .statsC
  | 0x22, true, true => some .statsHC
  | _, _, _ => none

/-- The OPCODE is one that R101 assigns (30_encoding.md R105's first test). -/
def opcodeKnown (op : Byte) : Bool := (dispatchFields op false false).isSome

/-- Decoding a command word (30_encoding.md R105): total, and each word is one command or one rejection. -/
def decode (v : Word) : Decoded :=
  let f := splitWord v
  if opcodeKnown f.opcode then
    if f.rest ≠ 0#54 then .reject .reservedBits
    else match dispatchFields f.opcode f.alg f.src with
      | some i => .command i
      | none => .reject .reservedBits
  else .reject .reservedOpcode

/-! ### The encoder, from the table of R101 and the spellings of R121 -/

/-- OPCODE of each command (30_encoding.md R101). -/
def Instr.opcode : Instr → Byte
  | .freq => 0x01#8
  | .build => 0x02#8
  | .buildH => 0x02#8
  | .codebook => 0x03#8
  | .code => 0x04#8
  | .pack => 0x05#8
  | .serialize => 0x06#8
  | .parse => 0x11#8
  | .unpack => 0x12#8
  | .walk => 0x13#8
  | .encode => 0x20#8
  | .encodeH => 0x20#8
  | .decode => 0x21#8
  | .decodeH => 0x21#8
  | .stats => 0x22#8
  | .statsH => 0x22#8
  | .statsC => 0x22#8
  | .statsHC => 0x22#8

/-- ALG of each command: the spellings with `.H` (30_encoding.md R121). -/
def Instr.alg : Instr → Bool
  | .buildH => true
  | .encodeH => true
  | .decodeH => true
  | .statsH => true
  | .statsHC => true
  | .freq => false
  | .build => false
  | .codebook => false
  | .code => false
  | .pack => false
  | .serialize => false
  | .parse => false
  | .unpack => false
  | .walk => false
  | .encode => false
  | .decode => false
  | .stats => false
  | .statsC => false

/-- SRC of each command: the spellings with `.C` (30_encoding.md R121). -/
def Instr.src : Instr → Bool
  | .statsC => true
  | .statsHC => true
  | .freq => false
  | .build => false
  | .buildH => false
  | .codebook => false
  | .code => false
  | .pack => false
  | .serialize => false
  | .parse => false
  | .unpack => false
  | .walk => false
  | .encode => false
  | .encodeH => false
  | .decode => false
  | .decodeH => false
  | .stats => false
  | .statsH => false

/-- The fields that spell a command (30_encoding.md R121). -/
def Instr.fields (i : Instr) : CmdFields := { opcode := i.opcode, alg := i.alg, src := i.src, rest := 0#54 }

/-- An instruction is well-formed when the fields that spell it are. -/
def Instr.wellFormed (i : Instr) : Bool := i.fields.wellFormed

/-- The word of a command: OPCODE, plus 0x100 for ALG, plus 0x200 for SRC (30_encoding.md R121). -/
def encode (i : Instr) : Word := joinWord i.fields

/-- The instruction that the decoder reads from an opcode-table word. A command is one 64-bit word written
whole (30_encoding.md R100), so the table's bits are the word's bits and the bits above `nbits` are 0. -/
def decodeTableWord (_nbits w : Nat) : Option Instr :=
  if w < 2 ^ 64 then
    match decode (BitVec.ofNat 64 w) with
    | .command i => some i
    | .reject _ => none
  else none

/-! ### Each command's word as R121 lists it decodes to it -/

theorem decode_freq_word : decode 0x001#64 = .command .freq := by decide
theorem decode_build_word : decode 0x002#64 = .command .build := by decide
theorem decode_buildH_word : decode 0x102#64 = .command .buildH := by decide
theorem decode_codebook_word : decode 0x003#64 = .command .codebook := by decide
theorem decode_code_word : decode 0x004#64 = .command .code := by decide
theorem decode_pack_word : decode 0x005#64 = .command .pack := by decide
theorem decode_serialize_word : decode 0x006#64 = .command .serialize := by decide
theorem decode_parse_word : decode 0x011#64 = .command .parse := by decide
theorem decode_unpack_word : decode 0x012#64 = .command .unpack := by decide
theorem decode_walk_word : decode 0x013#64 = .command .walk := by decide
theorem decode_encode_word : decode 0x020#64 = .command .encode := by decide
theorem decode_encodeH_word : decode 0x120#64 = .command .encodeH := by decide
theorem decode_decode_word : decode 0x021#64 = .command .decode := by decide
theorem decode_decodeH_word : decode 0x121#64 = .command .decodeH := by decide
theorem decode_stats_word : decode 0x022#64 = .command .stats := by decide
theorem decode_statsH_word : decode 0x122#64 = .command .statsH := by decide
theorem decode_statsC_word : decode 0x222#64 = .command .statsC := by decide
theorem decode_statsHC_word : decode 0x322#64 = .command .statsHC := by decide

end Sys2Proof
end

