-- ==== Sys2Proof/Config.lean ====
section
/-! DEFINITION. What is fixed for the block, and the free values. The capacities of 00_scope.md R5 are
not here: they stand in State (log 7), so that every statement about a state is about every capacity.
BLOCK_BASE (R5) is read by no rule and has no definition. -/

namespace Sys2Proof

/-- The identification constant (10_state.md R23). -/
def Config.idWord : Word := 0x4855464D00070001#64

/-- First offset of the IN window (20_memory.md R71). -/
def Config.inBase : Nat := 0x1000000000000000

/-- First offset of the OUT window (20_memory.md R71). -/
def Config.outBase : Nat := 0x2000000000000000

/-- One past the last offset of the REG window (20_memory.md R71). -/
def Config.regEnd : Nat := 0x1000

/-! ### Free values (00_scope.md R9's UNSPEC): constants with no body, so nothing can be proved of them. -/

/-- The word that the `k`-th draw gives: a register read while BUSY = 1 (70_reset_and_hazards.md R321). -/
opaque Config.freeWord : Nat → Word

/-- The byte that the `k`-th draw gives: an OUT_MEM read while BUSY = 1 (20_memory.md R75). -/
opaque Config.freeByte : Nat → Byte

/-- How many HOST accesses may land before a command completes (70_reset_and_hazards.md R326). -/
opaque Config.freeDelay : Nat → Nat

/-- IN_MEM byte `a` as reset number `epoch` left it (70_reset_and_hazards.md R302). -/
opaque Config.freeInByte (epoch a : Nat) : Byte

/-- OUT_MEM byte `a` where the `epoch`-th loss of its contents left it (R302; 45_decoder.md R231). -/
opaque Config.freeOutByte (epoch a : Nat) : Byte

/-- Entry `s` of FREQ as reset number `epoch` left it (R302). -/
opaque Config.freeCount (epoch s : Nat) : Word

/-- The code of symbol `s` as reset number `epoch` left it (R302). -/
opaque Config.freeCode (epoch s : Nat) : List Bool

/-- BITBUF bit `j` as reset number `epoch` left it (R302). -/
opaque Config.freeBit (epoch j : Nat) : Bool

/-- PAYLOAD byte `k` as reset number `epoch` left it (R302). -/
opaque Config.freePayloadByte (epoch k : Nat) : Byte

end Sys2Proof
end

