-- ==== Sys2Proof/Machine/State.lean ====
section
/-! DEFINITION. Everything the block holds, as plain data (10_state.md; INVENTORY.md lists it field by field), the
two reason types of a step, and the state after reset. -/

namespace Sys2Proof.Machine

/-- An addressed byte memory: the bytes written since their contents were last unspecified, addresses rising.
An address that is not listed holds an unspecified byte, so no byte value is the unlisted one (log 4, log 5). -/
abbrev Memory := List Host.Cell

/-- One entry of SLIST (10_state.md R34). -/
structure Entry where
  /-- The symbol. -/
  sym : Byte
  /-- Its count. -/
  cnt : Word
  deriving DecidableEq, Repr

/-- One node of the node store, a tagged variant (10_state.md R35). -/
inductive Node where
  /-- A leaf. -/
  | leaf (sym : Byte) (freq : Word)
  /-- A branch and the numbers of its two children. -/
  | branch (first second : NodeIx) (freq : Word)
  deriving DecidableEq, Repr

/-- What HOST and the platform do to the block (20_memory.md R72; 30_encoding.md R120, R122; 70_reset_and_hazards.md R300). -/
inductive HostOp where
  /-- A read of `width` bytes at a block-relative offset. -/
  | read (offset : Word) (width : Nat)
  /-- A write of `width` bytes at a block-relative offset; a narrow write takes the low bytes of `data` (log 19). -/
  | write (offset : Word) (width : Nat) (data : Word)
  /-- WAIT: read STATUS until BUSY reads 0 (R122; log 9). -/
  | wait
  /-- The platform asserts reset (R300). -/
  | assertReset
  /-- The platform releases reset (R300). -/
  | releaseReset
  deriving DecidableEq, Repr

/-- What the bus answers to HOST (20_memory.md R73, R75; 60_exceptions.md R265). -/
inductive Reply where
  /-- The value of a register. -/
  | word (v : Word)
  /-- A byte of IN_MEM or OUT_MEM. -/
  | byte (b : Byte)
  /-- A write was taken (it may have been ignored, R76). -/
  | written
  /-- The error response of R265. -/
  | busError
  /-- Reset is asserted and the block takes no access; the response is the platform's (R300; log 10). -/
  | notTaken
  deriving DecidableEq, Repr

/-- The state of the block. -/
structure State where
  /-- CAP_IN, the parameter IN_CAP (R5, R23). No step changes it. -/
  capIn : Word
  /-- CAP_OUT, the parameter OUT_CAP (R5, R23). No step changes it. -/
  capOut : Word
  /-- CAP_BITS, the parameter BITBUF_CAP (R5, R23). No step changes it. -/
  capBits : Word
  /-- CMD, the last accepted command word (R27). -/
  cmd : Word
  /-- STATUS.BUSY (R24). -/
  busy : Bool
  /-- STATUS.DONE (R24). -/
  done : Bool
  /-- STATUS.ERROR (R24). -/
  error : Bool
  /-- STATUS.OVERRUN (R24). -/
  overrun : Bool
  /-- STATUS.SLIST_V (R24, R32). -/
  slistV : Bool
  /-- STATUS.TREE_V (R24, R32). -/
  treeV : Bool
  /-- STATUS.CB_V (R24, R32). -/
  cbV : Bool
  /-- STATUS.BITS_V (R24, R32). -/
  bitsV : Bool
  /-- STATUS.PAYLOAD_V (R24, R32). -/
  payloadV : Bool
  /-- ERR (R25). -/
  err : Word
  /-- ERR_INFO (R26). -/
  errInfo : Word
  /-- IRQ_EN.DONE_IE (R28). -/
  doneIe : Bool
  /-- IRQ_EN.ERR_IE (R28). -/
  errIe : Bool
  /-- IN_LEN (R29). -/
  inLen : Word
  /-- OUT_LEN (R30). -/
  outLen : Word
  /-- SYMBOL_COUNT (R30). -/
  symbolCount : Word
  /-- BIT_LENGTH (R30). -/
  bitLength : Word
  /-- HC_WIDTH (R30). -/
  hcWidth : Word
  /-- NODE_COUNT (R30). -/
  nodeCount : Word
  /-- STAT_ORIG_BYTES (R31). -/
  statOrig : Word
  /-- STAT_BITS (R31). -/
  statBits : Word
  /-- STAT_CONTAINER_BYTES (R31). -/
  statContainer : Word
  /-- LSEL bits 7:0 (R40). -/
  lsel : Byte
  /-- SSEL bits 7:0 (R41). -/
  ssel : Byte
  /-- NSEL bits 8:0 (R43). -/
  nsel : BitVec 9
  /-- BSEL (R44). -/
  bsel : Word
  /-- PSEL (R45). -/
  psel : Word
  /-- FREQ, the entries written since reset (R33; log 6). -/
  freq : List Word
  /-- SLIST (R34). -/
  slist : List Entry
  /-- The node store (R35). -/
  nodes : List Node
  /-- The codebook, the entries written since reset, each the bits of a code (R36; log 6). -/
  cb : List (List Bool)
  /-- BITBUF from bit 0, as far as it was ever written since reset (R37; log 6). -/
  bitbuf : List Bool
  /-- PAYLOAD from byte 0, as far as it was ever written since reset (R38; log 6). -/
  payload : List Byte
  /-- IN_MEM (R70, R74). -/
  inMem : Memory
  /-- OUT_MEM (R70, R75). -/
  outMem : Memory
  /-- The stage a running command is at, counted from 0 (R21 (c)); 0 between commands. -/
  stageIndex : Nat
  /-- The node WALK stands at (R21 (d)); 0 between commands. -/
  walkNode : Nat
  /-- The symbols WALK has emitted (R231's k); 0 between commands. -/
  walkCount : Nat
  /-- The reset input is asserted (R300). -/
  resetAsserted : Bool
  /-- What HOST and the platform will do, oldest first (R80; log 8). -/
  inputs : List HostOp
  /-- What the bus answered, newest first (log 8). -/
  replies : List Reply
  /-- HOST accesses that may still land before the running command completes (R326; log 2). -/
  engineDelay : Nat
  /-- Free values taken so far (log 18). -/
  draws : Nat
  /-- The draw that gave IN_MEM and the internal memories their unwritten contents (R302; log 18). -/
  epoch : Nat
  /-- The draw that gave OUT_MEM its unwritten contents (R75, R231; log 18). -/
  outEpoch : Nat
  deriving DecidableEq, Repr

/-- Why the machine stops. The block never stops: an error ends the running command and the block is idle again
(60_exceptions.md R263), a bus error is an answer to HOST (R265). So there is no reason, and no step answers a
fault (safe). -/
inductive Fault where
  deriving DecidableEq, Repr

/-- Why an instruction has no meaning. -/
inductive Refusal where
  /-- Raised by `exec` alone, for an instruction that has no meaning yet; safe, since the run ends there. Every
  instruction has its meaning, so nothing raises it. -/
  | notModelled (mnemonic : String)
  deriving DecidableEq, Repr

/-- The state that a release of reset leaves (10_state.md R60; 70_reset_and_hazards.md R300 to R302), for given
capacities and with draw `k` for everything R302 leaves unspecified. -/
def State.atReset (capIn capOut capBits : Word) (k : Nat) : State :=
  { capIn := capIn, capOut := capOut, capBits := capBits, cmd := 0#64
    busy := false, done := false, error := false, overrun := false
    slistV := false, treeV := false, cbV := false, bitsV := false, payloadV := false
    err := 0#64, errInfo := 0#64, doneIe := false, errIe := false
    inLen := 0#64, outLen := 0#64, symbolCount := 0#64, bitLength := 0#64, hcWidth := 0#64, nodeCount := 0#64
    statOrig := 0#64, statBits := 0#64, statContainer := 0#64
    lsel := 0#8, ssel := 0#8, nsel := 0#9, bsel := 0#64, psel := 0#64
    freq := [], slist := [], nodes := [], cb := [], bitbuf := [], payload := [], inMem := [], outMem := []
    stageIndex := 0, walkNode := 0, walkCount := 0
    resetAsserted := false, inputs := [], replies := []
    engineDelay := 0, draws := k + 1, epoch := k, outEpoch := k }

/-- The machine right after reset, with the capacities of 95_test_vectors.md's default start state (log 7). -/
def State.reset : State := State.atReset 4096#64 8192#64 65536#64 0

end Sys2Proof.Machine
end

