-- ==== Sys2Proof/Machine/Errors.lean ====
section
/-! DEFINITION. The errors a command can end with (60_exceptions.md R260 to R262) and what a stage and a command
answer. -/

namespace Sys2Proof.Machine

/-- The twenty-two causes of 60_exceptions.md R261. -/
inductive Cause where
  /-- CMD_ERROR 1. -/
  | reservedOpcode
  /-- CMD_ERROR 2. -/
  | reservedBits
  /-- SEQUENCE_ERROR 1. -/
  | noSlist
  /-- SEQUENCE_ERROR 2. -/
  | noTree
  /-- SEQUENCE_ERROR 3. -/
  | noCodebook
  /-- SEQUENCE_ERROR 4. -/
  | noBits
  /-- SEQUENCE_ERROR 5. -/
  | noPayload
  /-- SEQUENCE_ERROR 6. -/
  | codeMiss
  /-- CAPACITY_ERROR 1. -/
  | inLen
  /-- CAPACITY_ERROR 2. -/
  | bitbuf
  /-- CAPACITY_ERROR 3. -/
  | out
  /-- CAPACITY_ERROR 4. -/
  | arith
  /-- FORMAT_ERROR 1. -/
  | headerTruncated
  /-- FORMAT_ERROR 2. -/
  | badWidth
  /-- FORMAT_ERROR 3. -/
  | countTooLarge
  /-- FORMAT_ERROR 4. -/
  | sectionTruncated
  /-- FORMAT_ERROR 5. -/
  | payloadTruncated
  /-- FORMAT_ERROR 6. -/
  | duplicateSymbol
  /-- FORMAT_ERROR 7. -/
  | badOrder
  /-- DECODE_ERROR 1. -/
  | decodeNoTree
  /-- DECODE_ERROR 2. -/
  | noChild
  /-- DECODE_ERROR 3. -/
  | incomplete
  deriving DecidableEq, Repr

/-- ERR.KIND of a cause (60_exceptions.md R260, R261). -/
def Cause.kind : Cause → Nat
  | .reservedOpcode => 1
  | .reservedBits => 1
  | .noSlist => 2
  | .noTree => 2
  | .noCodebook => 2
  | .noBits => 2
  | .noPayload => 2
  | .codeMiss => 2
  | .inLen => 3
  | .bitbuf => 3
  | .out => 3
  | .arith => 3
  | .headerTruncated => 4
  | .badWidth => 4
  | .countTooLarge => 4
  | .sectionTruncated => 4
  | .payloadTruncated => 4
  | .duplicateSymbol => 4
  | .badOrder => 4
  | .decodeNoTree => 5
  | .noChild => 5
  | .incomplete => 5

/-- ERR.CAUSE of a cause (60_exceptions.md R261). -/
def Cause.code : Cause → Nat
  | .reservedOpcode => 1
  | .reservedBits => 2
  | .noSlist => 1
  | .noTree => 2
  | .noCodebook => 3
  | .noBits => 4
  | .noPayload => 5
  | .codeMiss => 6
  | .inLen => 1
  | .bitbuf => 2
  | .out => 3
  | .arith => 4
  | .headerTruncated => 1
  | .badWidth => 2
  | .countTooLarge => 3
  | .sectionTruncated => 4
  | .payloadTruncated => 5
  | .duplicateSymbol => 6
  | .badOrder => 7
  | .decodeNoTree => 1
  | .noChild => 2
  | .incomplete => 3

/-- `raise KIND.CAUSE(info)` (00_scope.md R9; 60_exceptions.md R262). -/
structure Raise where
  /-- What is wrong. -/
  cause : Cause
  /-- The detail value; below 2^64 wherever a rule raises (R262). -/
  info : Nat
  deriving DecidableEq, Repr

/-- What a stage answers: the state it leaves, and the error if it raised one (00_scope.md R11). -/
inductive StageOut where
  /-- The stage ran to its end. -/
  | ok (s : State)
  /-- The stage raised. -/
  | fail (r : Raise) (s : State)
  deriving DecidableEq, Repr

/-- What the stages of a command answer: the state they leave, and the stage that raised with its error
(46_composite.md R244). -/
inductive CmdOut where
  /-- Every stage ran to its end. -/
  | ok (s : State)
  /-- The stage with this opcode raised. -/
  | fail (stage : Byte) (r : Raise) (s : State)
  deriving DecidableEq, Repr

end Sys2Proof.Machine
end

