-- ==== Sys2Proof/Machine/Flags.lean ====
section
/-! DEFINITION. The valid flags and their table (10_state.md R32), STATUS as a word (R24), the interrupt
(60_exceptions.md R268) and the write-one-to-clear bits. -/

namespace Sys2Proof.Machine

/-- The stages a command is made of: nine stage commands, and the last step of STATS (46_composite.md R243). -/
inductive StageName where
  /-- 40_frequency.md R140. -/
  | freq
  /-- 41_tree.md R152. -/
  | build
  /-- 42_codebook.md R171. -/
  | codebook
  /-- 42_codebook.md R174. -/
  | code
  /-- 43_bitpack.md R192. -/
  | pack
  /-- 44_container.md R200. -/
  | serialize
  /-- 44_container.md R205. -/
  | parse
  /-- 43_bitpack.md R193. -/
  | unpack
  /-- 45_decoder.md R230. -/
  | walk
  /-- 46_composite.md R243. -/
  | statcalc
  deriving DecidableEq, Repr

/-- What ERR.STAGE records for a stage: its opcode, and 0x22 for STATCALC (10_state.md R25). -/
def StageName.number : StageName → Byte
  | .freq => 0x01#8
  | .build => 0x02#8
  | .codebook => 0x03#8
  | .code => 0x04#8
  | .pack => 0x05#8
  | .serialize => 0x06#8
  | .parse => 0x11#8
  | .unpack => 0x12#8
  | .walk => 0x13#8
  | .statcalc => 0x22#8

/-- The five valid flags (10_state.md R24, R32). -/
inductive Flag where
  /-- SLIST_V. -/
  | slist
  /-- TREE_V. -/
  | tree
  /-- CB_V. -/
  | cb
  /-- BITS_V. -/
  | bits
  /-- PAYLOAD_V. -/
  | payload
  deriving DecidableEq, Repr

/-- The value of a valid flag. -/
def State.flag (s : State) : Flag → Bool
  | .slist => s.slistV
  | .tree => s.treeV
  | .cb => s.cbV
  | .bits => s.bitsV
  | .payload => s.payloadV

/-- The SEQUENCE_ERROR cause named beside a flag that is 0 (10_state.md R32). -/
def Flag.missing : Flag → Cause
  | .slist => .noSlist
  | .tree => .noTree
  | .cb => .noCodebook
  | .bits => .noBits
  | .payload => .noPayload

/-- The "requires" column of R32, in its order. STATCALC has no row: the stages before it meet all it reads. -/
def StageName.requires : StageName → List Flag
  | .freq => []
  | .build => [.slist]
  | .codebook => [.tree]
  | .code => [.cb]
  | .pack => [.bits]
  | .serialize => [.slist, .payload]
  | .parse => []
  | .unpack => [.payload]
  | .walk => [.tree, .bits]
  | .statcalc => []

/-- The "sets" column of R32. -/
def StageName.sets : StageName → List Flag
  | .freq => [.slist]
  | .build => [.tree]
  | .codebook => [.cb]
  | .code => [.bits]
  | .pack => [.payload]
  | .serialize => []
  | .parse => [.slist, .payload]
  | .unpack => [.bits]
  | .walk => []
  | .statcalc => []

/-- The "clears" column of R32. -/
def StageName.clears : StageName → List Flag
  | .freq => [.tree, .cb, .bits, .payload]
  | .build => [.cb]
  | .codebook => []
  | .code => [.payload]
  | .pack => []
  | .serialize => []
  | .parse => [.tree, .cb, .bits]
  | .unpack => []
  | .walk => []
  | .statcalc => []

/-- A flag after a stage succeeded (10_state.md R32). -/
def StageName.after (st : StageName) (f : Flag) (old : Bool) : Bool :=
  if st.sets.contains f then true else if st.clears.contains f then false else old

/-- The valid flags written by a stage that succeeded (10_state.md R32). -/
def State.withFlags (s : State) (st : StageName) : State :=
  { s with
    slistV := st.after .slist s.slistV
    treeV := st.after .tree s.treeV
    cbV := st.after .cb s.cbV
    bitsV := st.after .bits s.bitsV
    payloadV := st.after .payload s.payloadV }

/-- The first flag of a list that is 0. -/
def firstMissing (s : State) : List Flag → Option Flag
  | [] => none
  | f :: fs => if s.flag f then firstMissing s fs else some f

/-- The `irq` output (60_exceptions.md R268). -/
def irq (s : State) : Bool := (s.done && s.doneIe) || (s.error && s.errIe)

/-- The five valid flags as the number in STATUS bits 12:8 (10_state.md R24). -/
def validBits (s : State) : Nat :=
  s.slistV.toNat + 2 * s.treeV.toNat + 4 * s.cbV.toNat + 8 * s.bitsV.toNat + 16 * s.payloadV.toNat

/-- STATUS with the given valid bits (10_state.md R24). -/
def statusWord (s : State) (valid : Nat) : Word :=
  BitVec.ofNat 64 (s.busy.toNat + 2 * s.done.toNat + 4 * s.error.toNat + 8 * s.overrun.toNat
    + 16 * (irq s).toNat + 256 * valid)

/-- A HOST write of STATUS: DONE, ERROR and OVERRUN are cleared by a 1 (10_state.md R24). -/
def clearStatus (v : Word) (s : State) : State :=
  { s with
    done := s.done && !v.getLsbD 1
    error := s.error && !v.getLsbD 2
    overrun := s.overrun && !v.getLsbD 3 }

end Sys2Proof.Machine
end

