-- ==== Sys2Proof/Machine/Ops.lean ====
section
/-! DEFINITION. The shared operations: memories, acceptance, running the stages of a command, completion, and the
error entry with the return from it (60_exceptions.md R263, R264, R269). -/

namespace Sys2Proof.Machine

/-! ### Addressed memories -/

/-- The canonical form of a memory: addresses strictly rising. -/
abbrev Memory.wf (m : Memory) : Prop := m.Pairwise fun x y => x.1 < y.1

/-- The byte written at an address, or none where its contents are unspecified. -/
def Memory.read : Memory → Nat → Option Byte
  | [], _ => none
  | (k, b) :: m, a => if a = k then some b else Memory.read m a

/-- Writing one byte. -/
def Memory.write : Memory → Nat → Byte → Memory
  | [], a, b => [(a, b)]
  | (k, c) :: m, a, b =>
    if a < k then (a, b) :: (k, c) :: m
    else if a = k then (a, b) :: m
    else (k, c) :: Memory.write m a b

/-- Writing bytes at rising addresses from `a`. -/
def Memory.writeAll : Memory → Nat → List Byte → Memory
  | m, _, [] => m
  | m, a, b :: bs => Memory.writeAll (Memory.write m a b) (a + 1) bs

/-- Writing elements 0, 1, … of BITBUF or PAYLOAD; the elements after them keep what they held
(42_codebook.md R174; 43_bitpack.md R192). -/
def writePrefix {α : Type} (new old : List α) : List α := new ++ old.drop new.length

/-- The number of bytes that hold `b` bits (00_scope.md R8). -/
def ceil8 (b : Nat) : Nat := (b + 7) / 8

/-! ### Acceptance -/

/-- Acceptance of command word `v` (60_exceptions.md R264). The sequencing state starts afresh (10_state.md R21), and
the number of HOST accesses that may land before completion is drawn (R326; log 2). -/
def accept (v : Word) (s : State) : State :=
  { s with
    cmd := v, done := false, error := false, err := 0#64, errInfo := 0#64, busy := true
    stageIndex := 0, walkNode := 0, walkCount := 0
    engineDelay := Config.freeDelay s.draws, draws := s.draws + 1 }

/-! ### Completion and the error entry -/

/-- The sequencing state of R21 (c) and (d) does not survive a command's completion. -/
def leaveCommand (s : State) : State := { s with busy := false, stageIndex := 0, walkNode := 0, walkCount := 0 }

/-- Completion without an error (60_exceptions.md R264). -/
def completeDone (s : State) : State := { leaveCommand s with done := true }

/-- ERR as the error entry writes it (60_exceptions.md R263; 10_state.md R25). -/
def errWord (opcode stage : Byte) (c : Cause) : Word :=
  BitVec.ofNat 64 (c.kind + c.code * 2 ^ 8 + stage.toNat * 2 ^ 16 + opcode.toNat * 2 ^ 24)

/-- The error entry (60_exceptions.md R263): ERR, ERR_INFO and STATUS.ERROR record the error, BUSY falls, and
nothing else is saved. -/
def errorEntry (opcode stage : Byte) (r : Raise) (s : State) : State :=
  { leaveCommand s with error := true, err := errWord opcode stage r.cause, errInfo := BitVec.ofNat 64 r.info }

/-- The return from a completion (60_exceptions.md R269): HOST writes 1 to DONE and ERROR (`ACK`, 30_encoding.md R123).
Nothing is restored, because nothing was saved. -/
def acknowledge (s : State) : State := clearStatus 0x6#64 s

/-- A command word that is no command (30_encoding.md R105, R106; 60_exceptions.md R262, R263): CMD_ERROR, STAGE and
OPCODE both bits 7:0 of the word, ERR_INFO the whole word. -/
def commandError (r : CmdReject) (s : State) : State :=
  let cause := match r with
    | .reservedOpcode => Cause.reservedOpcode
    | .reservedBits => Cause.reservedBits
  errorEntry (s.cmd.extractLsb' 0 8) (s.cmd.extractLsb' 0 8) { cause := cause, info := s.cmd.toNat } s

/-! ### Stages and commands -/

/-- A stage: its prerequisites in the order of 10_state.md R32, then its own checks and writes, then its flags. -/
def guarded (st : StageName) (body : State → StageOut) (s : State) : StageOut :=
  match firstMissing s st.requires with
  | some f => .fail { cause := f.missing, info := 0 } s
  | none =>
    match body s with
    | .ok t => .ok (t.withFlags st)
    | .fail r t => .fail r t

/-- The stages of a command in order, from stage number `k` on; the first that raises ends it (46_composite.md R244). -/
def runStages : Nat → List (StageName × (State → StageOut)) → State → CmdOut
  | _, [], s => .ok s
  | k, (st, run) :: rest, s =>
    match run { s with stageIndex := k } with
    | .ok t => runStages (k + 1) rest t
    | .fail r t => .fail st.number r t

/-- Completion of a command with OPCODE `opcode` (60_exceptions.md R264). -/
def finish (opcode : Byte) : CmdOut → State
  | .ok s => completeDone s
  | .fail stage r s => errorEntry opcode stage r s

/-- A whole command as one transition (60_exceptions.md R264; D2; log 1). -/
def runCommand (opcode : Byte) (stages : List (StageName × (State → StageOut))) (s : State) :
    Host.Outcome State Fault Refusal :=
  .next (finish opcode (runStages 0 stages s))

end Sys2Proof.Machine
end

