-- ==== Sys2Proof/Machine/Operands.lean ====
section
/-! DEFINITION. How the stages read their operands (00_scope.md R9): IN_MEM bytes, stream bits, payload bytes,
counts and codes. Where nothing was written since reset, the contents are a free value (70_reset_and_hazards.md R302). -/

namespace Sys2Proof.Machine

/-- IN_MEM byte `a` (20_memory.md R74). -/
def readIn (s : State) (a : Nat) : Byte := (s.inMem.read a).getD (Config.freeInByte s.epoch a)

/-- OUT_MEM byte `a` while BUSY = 0 (20_memory.md R75). -/
def readOut (s : State) (a : Nat) : Byte := (s.outMem.read a).getD (Config.freeOutByte s.outEpoch a)

/-- IN_MEM[0, IN_LEN), a command's input (10_state.md R29). -/
def inBytes (s : State) : List Byte := (List.range s.inLen.toNat).map (readIn s)

/-- FREQ[s] (10_state.md R33). -/
def freqAt (s : State) (sym : Byte) : Word := s.freq.getD sym.toNat (Config.freeCount s.epoch sym.toNat)

/-- CB[s] (10_state.md R36). -/
def codeOf (s : State) (sym : Byte) : List Bool := s.cb.getD sym.toNat (Config.freeCode s.epoch sym.toNat)

/-- BITBUF[j] (10_state.md R37). -/
def bitAt (s : State) (j : Nat) : Bool := s.bitbuf.getD j (Config.freeBit s.epoch j)

/-- BITBUF[0, BIT_LENGTH), the stream. -/
def streamOf (s : State) : List Bool := (List.range s.bitLength.toNat).map (bitAt s)

/-- PAYLOAD[k] (10_state.md R38). -/
def payloadAt (s : State) (k : Nat) : Byte := s.payload.getD k (Config.freePayloadByte s.epoch k)

/-- PAYLOAD[0, ceil8(BIT_LENGTH)), the packed payload. -/
def payloadOf (s : State) : List Byte := (List.range (ceil8 s.bitLength.toNat)).map (payloadAt s)

/-- The largest count of a list, 0 for the empty list (30_encoding.md R119). -/
def maxCount (es : List Entry) : Nat := (es.map (·.cnt.toNat)).foldl max 0

/-- The sum of the counts of a list. -/
def sumCounts (es : List Entry) : Nat := (es.map (·.cnt.toNat)).sum

end Sys2Proof.Machine
end

