-- ==== Sys2Proof/Machine/Bitpack.lean ====
section
/-! DEFINITION. The bit packer and unpacker: PACK and UNPACK (43_bitpack.md). -/

namespace Sys2Proof.Machine

/-- The number whose bits are the list, the first bit the least significant (43_bitpack.md R190's sum). -/
def bitsToNat : List Bool → Nat
  | [] => 0
  | b :: bs => b.toNat + 2 * bitsToNat bs

/-- Byte `k` of pack(bits, B) (43_bitpack.md R190). -/
def packByte (bits : List Bool) (k : Nat) : Byte := BitVec.ofNat 8 (bitsToNat ((bits.drop (8 * k)).take 8))

/-- pack(bits, B) with B the list's length (43_bitpack.md R190; 30_encoding.md R118). -/
def pack (bits : List Bool) : List Byte := (List.range (ceil8 bits.length)).map (packByte bits)

/-- Stream bit `j` of a payload (43_bitpack.md R191). -/
def payloadBit (p : List Byte) (j : Nat) : Bool := (p.getD (j / 8) 0#8).getLsbD (j % 8)

/-- unpack(P, B) (43_bitpack.md R191). -/
def unpack (p : List Byte) (b : Nat) : List Bool := (List.range b).map (payloadBit p)

/-- PACK's writes (43_bitpack.md R192). -/
def packBody (s : State) : StageOut := .ok { s with payload := writePrefix (pack (streamOf s)) s.payload }

/-- The stage PACK. -/
def packStage : State → StageOut := guarded .pack packBody

/-- PACK (43_bitpack.md R192). -/
def execPack (s : State) : Host.Outcome State Fault Refusal := runCommand 0x05#8 [(.pack, packStage)] s

/-- UNPACK's writes (43_bitpack.md R193). -/
def unpackBody (s : State) : StageOut :=
  .ok { s with bitbuf := writePrefix (unpack (payloadOf s) s.bitLength.toNat) s.bitbuf }

/-- The stage UNPACK. -/
def unpackStage : State → StageOut := guarded .unpack unpackBody

/-- UNPACK (43_bitpack.md R193). -/
def execUnpack (s : State) : Host.Outcome State Fault Refusal := runCommand 0x12#8 [(.unpack, unpackStage)] s

end Sys2Proof.Machine
end

