-- ==== Sys2Proof/Machine/Windows.lean ====
section
/-! DEFINITION. The register map as HOST reads and writes it (10_state.md R22), with the observation windows
(R40 to R46). -/

namespace Sys2Proof.Machine

/-- The registers of 10_state.md R22. -/
inductive Reg where
  /-- 0x000, R23. -/
  | id
  /-- 0x008, R23. -/
  | capIn
  /-- 0x010, R23. -/
  | capOut
  /-- 0x018, R23. -/
  | capBits
  /-- 0x020, R27. -/
  | cmd
  /-- 0x028, R24. -/
  | status
  /-- 0x030, R25. -/
  | err
  /-- 0x038, R26. -/
  | errInfo
  /-- 0x040, R28. -/
  | irqEn
  /-- 0x048, R29. -/
  | inLen
  /-- 0x050, R30. -/
  | outLen
  /-- 0x058, R30. -/
  | symbolCount
  /-- 0x060, R30. -/
  | bitLength
  /-- 0x068, R30. -/
  | hcWidth
  /-- 0x070, R30. -/
  | nodeCount
  /-- 0x078, R31. -/
  | statOrig
  /-- 0x080, R31. -/
  | statBits
  /-- 0x088, R31. -/
  | statContainer
  /-- 0x090, R40. -/
  | lsel
  /-- 0x098, R40. -/
  | listSym
  /-- 0x0A0, R40. -/
  | listCnt
  /-- 0x0A8, R41. -/
  | ssel
  /-- 0x0B0, R41. -/
  | symFreq
  /-- 0x0B8, R42. -/
  | symCodeLen
  /-- 0x0C0, R42. -/
  | symCode0
  /-- 0x0C8, R42. -/
  | symCode1
  /-- 0x0D0, R42. -/
  | symCode2
  /-- 0x0D8, R42. -/
  | symCode3
  /-- 0x0E0, R43. -/
  | nsel
  /-- 0x0E8, R43. -/
  | nodeInfo
  /-- 0x0F0, R43. -/
  | nodeFreq
  /-- 0x0F8, R44. -/
  | bsel
  /-- 0x100, R44. -/
  | bitsWord
  /-- 0x108, R45. -/
  | psel
  /-- 0x110, R45. -/
  | payloadWord
  deriving DecidableEq, Repr

/-- The registers in the order of the map: the register at offset 8·k is the k-th (10_state.md R22). -/
def regMap : List Reg :=
  [.id, .capIn, .capOut, .capBits, .cmd, .status, .err, .errInfo, .irqEn, .inLen, .outLen, .symbolCount, .bitLength,
    .hcWidth, .nodeCount, .statOrig, .statBits, .statContainer, .lsel, .listSym, .listCnt, .ssel, .symFreq,
    .symCodeLen, .symCode0, .symCode1, .symCode2, .symCode3, .nsel, .nodeInfo, .nodeFreq, .bsel, .bitsWord, .psel,
    .payloadWord]

/-- The register at an 8-aligned offset of the REG window; none at a reserved offset (10_state.md R22). -/
def regAt (offset : Nat) : Option Reg := regMap[offset / 8]?

/-- The registers that read as UNSPEC while BUSY = 1 (10_state.md R30, R31, R46; 70_reset_and_hazards.md R321). -/
def Reg.drawnWhileBusy : Reg → Bool
  | .outLen => true
  | .symbolCount => true
  | .bitLength => true
  | .hcWidth => true
  | .nodeCount => true
  | .statOrig => true
  | .statBits => true
  | .statContainer => true
  | .listSym => true
  | .listCnt => true
  | .symFreq => true
  | .symCodeLen => true
  | .symCode0 => true
  | .symCode1 => true
  | .symCode2 => true
  | .symCode3 => true
  | .nodeInfo => true
  | .nodeFreq => true
  | .bitsWord => true
  | .payloadWord => true
  | .id => false
  | .capIn => false
  | .capOut => false
  | .capBits => false
  | .cmd => false
  | .status => false
  | .err => false
  | .errInfo => false
  | .irqEn => false
  | .inLen => false
  | .lsel => false
  | .ssel => false
  | .nsel => false
  | .bsel => false
  | .psel => false

/-! ### The windows -/

/-- The entry that LSEL selects (10_state.md R40). -/
def selectedEntry (s : State) : Option Entry :=
  if s.slistV ∧ s.lsel.toNat < s.symbolCount.toNat then s.slist[s.lsel.toNat]? else none

/-- LIST_SYM (10_state.md R40). -/
def listSymWindow (s : State) : Word :=
  match selectedEntry s with
  | some e => e.sym.setWidth 64
  | none => 0#64

/-- LIST_CNT (10_state.md R40). -/
def listCntWindow (s : State) : Word :=
  match selectedEntry s with
  | some e => e.cnt
  | none => 0#64

/-- SYM_FREQ (10_state.md R41). -/
def symFreqWindow (s : State) : Word := if s.slistV then freqAt s s.ssel else 0#64

/-- SYM_CODE_LEN (10_state.md R42). -/
def symCodeLenWindow (s : State) : Word := if s.cbV then BitVec.ofNat 64 (codeOf s s.ssel).length else 0#64

/-- SYM_CODEw (10_state.md R42): bits 64·w to 64·w + 63 of the code, the first bit the least significant. -/
def symCodeWindow (s : State) (w : Nat) : Word :=
  if s.cbV then BitVec.ofNat 64 (bitsToNat (((codeOf s s.ssel).drop (64 * w)).take 64)) else 0#64

/-- The node that NSEL selects (10_state.md R43). -/
def selectedNode (s : State) : Option Node :=
  if s.treeV ∧ s.nsel.toNat < s.nodeCount.toNat then s.nodes[s.nsel.toNat]? else none

/-- NODE_INFO (10_state.md R43). -/
def nodeInfoWindow (s : State) : Word :=
  match selectedNode s with
  | none => 0#64
  | some (.leaf sym _) => BitVec.ofNat 64 (sym.toNat * 2 ^ 8)
  | some (.branch first second _) => BitVec.ofNat 64 (1 + first.toNat * 2 ^ 16 + second.toNat * 2 ^ 32)

/-- NODE_FREQ (10_state.md R43). -/
def nodeFreqWindow (s : State) : Word :=
  match selectedNode s with
  | none => 0#64
  | some (.leaf _ f) => f
  | some (.branch _ _ f) => f

/-- Bit `b` of BITS_WORD (10_state.md R44), the position computed without overflow. -/
def bitsWindowBit (s : State) (b : Nat) : Bool :=
  if s.bitsV ∧ 64 * s.bsel.toNat + b < s.bitLength.toNat then bitAt s (64 * s.bsel.toNat + b) else false

/-- BITS_WORD (10_state.md R44). -/
def bitsWindow (s : State) : Word := BitVec.ofNat 64 (bitsToNat ((List.range 64).map (bitsWindowBit s)))

/-- Byte `k` of PAYLOAD_WORD (10_state.md R45), the position computed without overflow. -/
def payloadWindowByte (s : State) (k : Nat) : Byte :=
  if s.payloadV ∧ 8 * s.psel.toNat + k < ceil8 s.bitLength.toNat then payloadAt s (8 * s.psel.toNat + k) else 0#8

/-- Eight bytes as one number, the first the least significant (20_memory.md R79). -/
def littleEndian : List Byte → Nat
  | [] => 0
  | b :: bs => b.toNat + 256 * littleEndian bs

/-- PAYLOAD_WORD (10_state.md R45). -/
def payloadWindow (s : State) : Word := BitVec.ofNat 64 (littleEndian ((List.range 8).map (payloadWindowByte s)))

/-! ### Reads and writes -/

/-- A register's value while BUSY = 0, and while BUSY = 1 for the registers that are not drawn then (10_state.md R22). -/
def regValue (r : Reg) (s : State) : Word :=
  match r with
  | .id => Config.idWord
  | .capIn => s.capIn
  | .capOut => s.capOut
  | .capBits => s.capBits
  | .cmd => s.cmd
  | .status => statusWord s (validBits s)
  | .err => s.err
  | .errInfo => s.errInfo
  | .irqEn => BitVec.ofNat 64 (s.doneIe.toNat + 2 * s.errIe.toNat)
  | .inLen => s.inLen
  | .outLen => s.outLen
  | .symbolCount => s.symbolCount
  | .bitLength => s.bitLength
  | .hcWidth => s.hcWidth
  | .nodeCount => s.nodeCount
  | .statOrig => s.statOrig
  | .statBits => s.statBits
  | .statContainer => s.statContainer
  | .lsel => s.lsel.setWidth 64
  | .listSym => listSymWindow s
  | .listCnt => listCntWindow s
  | .ssel => s.ssel.setWidth 64
  | .symFreq => symFreqWindow s
  | .symCodeLen => symCodeLenWindow s
  | .symCode0 => symCodeWindow s 0
  | .symCode1 => symCodeWindow s 1
  | .symCode2 => symCodeWindow s 2
  | .symCode3 => symCodeWindow s 3
  | .nsel => s.nsel.setWidth 64
  | .nodeInfo => nodeInfoWindow s
  | .nodeFreq => nodeFreqWindow s
  | .bsel => s.bsel
  | .bitsWord => bitsWindow s
  | .psel => s.psel
  | .payloadWord => payloadWindow s

/-- A read uses up one free value. -/
def State.draw (s : State) : State := { s with draws := s.draws + 1 }

/-- A HOST read of a register (70_reset_and_hazards.md R321): while BUSY = 1 the valid bits of STATUS and the registers
the ENGINE writes read as free values (log 3). -/
def readReg (r : Reg) (s : State) : Word × State :=
  if s.busy then
    if r = .status then (statusWord s ((Config.freeWord s.draws).toNat % 32), s.draw)
    else if r.drawnWhileBusy then (Config.freeWord s.draws, s.draw)
    else (regValue r s, s)
  else (regValue r s, s)

/-- A HOST write of a register: the state after it, or none where it gets a bus error (10_state.md R22, R27 to R29, R40 to
R46; 70_reset_and_hazards.md R320, R322). Writes to read-only registers are ignored (20_memory.md R76). -/
def writeReg (r : Reg) (v : Word) (s : State) : Option State :=
  match r with
  | .cmd => some (if s.busy then { s with overrun := true } else accept v s)
  | .status => some (clearStatus v s)
  | .irqEn => some { s with doneIe := v.getLsbD 0, errIe := v.getLsbD 1 }
  | .inLen => if s.busy then none else some { s with inLen := v }
  | .lsel => some { s with lsel := v.setWidth 8 }
  | .ssel => some { s with ssel := v.setWidth 8 }
  | .nsel => some { s with nsel := v.setWidth 9 }
  | .bsel => some { s with bsel := v }
  | .psel => some { s with psel := v }
  | .id => some s
  | .capIn => some s
  | .capOut => some s
  | .capBits => some s
  | .err => some s
  | .errInfo => some s
  | .outLen => some s
  | .symbolCount => some s
  | .bitLength => some s
  | .hcWidth => some s
  | .nodeCount => some s
  | .statOrig => some s
  | .statBits => some s
  | .statContainer => some s
  | .listSym => some s
  | .listCnt => some s
  | .symFreq => some s
  | .symCodeLen => some s
  | .symCode0 => some s
  | .symCode1 => some s
  | .symCode2 => some s
  | .symCode3 => some s
  | .nodeInfo => some s
  | .nodeFreq => some s
  | .bitsWord => some s
  | .payloadWord => some s

end Sys2Proof.Machine
end

