-- ==== Sys2Proof/Machine/Bus.lean ====
section
/-! DEFINITION. HOST accesses to the block (20_memory.md R71 to R76; 60_exceptions.md R265), reset
(70_reset_and_hazards.md R300, R301), and what HOST and the platform do in one step. -/

namespace Sys2Proof.Machine

/-- Where an access lands (20_memory.md R71, R72). -/
inductive Target where
  /-- An 8-byte aligned access to a register, or to a reserved offset. -/
  | reg (r : Option Reg)
  /-- A 1-byte access to IN_MEM byte `a`. -/
  | inByte (a : Nat)
  /-- A 1-byte access to OUT_MEM byte `a`. -/
  | outByte (a : Nat)
  /-- No window, or a width or alignment the window does not take (60_exceptions.md R265 (a) to (c)). -/
  | none
  deriving DecidableEq, Repr

/-- The target of an access (20_memory.md R71, R72). -/
def target (s : State) (offset : Word) (width : Nat) : Target :=
  let o := offset.toNat
  if o < Config.regEnd then
    if width = 8 ∧ o % 8 = 0 then .reg (regAt o) else .none
  else if Config.inBase ≤ o ∧ o < Config.inBase + s.capIn.toNat then
    if width = 1 then .inByte (o - Config.inBase) else .none
  else if Config.outBase ≤ o ∧ o < Config.outBase + s.capOut.toNat then
    if width = 1 then .outByte (o - Config.outBase) else .none
  else .none

/-- A HOST read (20_memory.md R74 to R76). -/
def hostRead (offset : Word) (width : Nat) (s : State) : Reply × State :=
  match target s offset width with
  | .reg (some r) => (.word (readReg r s).1, (readReg r s).2)
  | .reg none => (.word 0#64, s)
  | .inByte a => (.byte (readIn s a), s)
  | .outByte a => if s.busy then (.byte (Config.freeByte s.draws), s.draw) else (.byte (readOut s a), s)
  | .none => (.busError, s)

/-- A HOST write (20_memory.md R74 to R76; 60_exceptions.md R265). -/
def hostWrite (offset : Word) (width : Nat) (data : Word) (s : State) : Reply × State :=
  match target s offset width with
  | .reg (some r) =>
    match writeReg r data s with
    | some t => (.written, t)
    | none => (.busError, s)
  | .reg none => (.written, s)
  | .inByte a =>
    if s.busy then (.busError, s) else (.written, { s with inMem := s.inMem.write a (data.setWidth 8) })
  | .outByte _ => (.busError, s)
  | .none => (.busError, s)

/-- Reset (70_reset_and_hazards.md R300 to R302): every field at its value after reset, with fresh unspecified contents; what
stands outside the block (the inputs to come, the answers given) stays. -/
def resetBlock (asserted : Bool) (s : State) : State :=
  { State.atReset s.capIn s.capOut s.capBits s.draws with
    resetAsserted := asserted, inputs := s.inputs, replies := s.replies }

/-- An answer goes to HOST. If a command was running, one of the accesses that may land before its completion has. -/
def answer (running : Bool) (r : Reply × State) : State :=
  { r.2 with
    replies := r.1 :: r.2.replies
    engineDelay := if running then r.2.engineDelay - 1 else r.2.engineDelay }

/-- One thing that HOST or the platform does (20_memory.md R80). While reset is asserted the block takes no access
(70_reset_and_hazards.md R300; log 10). WAIT is done only once BUSY = 0 (30_encoding.md R122; log 9). -/
def perform (op : HostOp) (s : State) : State :=
  match op with
  | .assertReset => resetBlock true s
  | .releaseReset => if s.resetAsserted then resetBlock false s else s
  | .wait => answer s.busy (if s.resetAsserted then (.notTaken, s) else (.word (readReg .status s).1, (readReg .status s).2))
  | .read offset width => answer s.busy (if s.resetAsserted then (.notTaken, s) else hostRead offset width s)
  | .write offset width data => answer s.busy (if s.resetAsserted then (.notTaken, s) else hostWrite offset width data s)

/-- HOST's side of a step: the oldest input. With none to come, an idle block changes nothing (60_exceptions.md R276). -/
def hostStep (s : State) : State :=
  match s.inputs with
  | [] => s
  | op :: rest => perform op { s with inputs := rest }

/-- HOST lets a running command go on: it has nothing to do, or it waits (30_encoding.md R122). -/
def hostYields : List HostOp → Bool
  | [] => true
  | .wait :: _ => true
  | _ => false

/-- The platform asserts reset now: reset takes precedence over every other event (70_reset_and_hazards.md R301). -/
def resetComes : List HostOp → Bool
  | .assertReset :: _ => true
  | _ => false

/-- It is the ENGINE's turn: a command runs, reset does not come now, and HOST lets the command go on or no more accesses
land before its completion (70_reset_and_hazards.md R301, R326; log 2). -/
def engineMoves (s : State) : Bool :=
  s.busy && !resetComes s.inputs && (hostYields s.inputs || s.engineDelay == 0)

end Sys2Proof.Machine
end

