-- ==== Sys2Proof/Machine/Codebook.lean ====
section
/-! DEFINITION. The codebook generator and the coder: CODEBOOK and CODE (42_codebook.md). -/

namespace Sys2Proof.Machine

/-- `visit(x, p)` (42_codebook.md R171): the symbols under node `x`, each with the path to it; the first child's edge is
0, the second's 1 (R170). `fuel` bounds the depth; a store of n nodes, where children have smaller numbers, needs n. -/
def visit (nodes : List Node) : Nat → Nat → List Bool → List (Byte × List Bool)
  | 0, _, _ => []
  | fuel + 1, x, p =>
    match (nodes[x]? : Option Node) with
    | none => []
    | some (.leaf sym _) => [(sym, p)]
    | some (.branch a b _) => visit nodes fuel a.toNat (p ++ [false]) ++ visit nodes fuel b.toNat (p ++ [true])

/-- The symbols with a code, each with its code (42_codebook.md R171): a sole symbol gets the one bit 0 (D16). -/
def symbolCodes (nodes : List Node) (nodeCount : Nat) : List (Byte × List Bool) :=
  if nodeCount = 0 then []
  else if nodeCount = 1 then
    match (nodes[0]? : Option Node) with
    | some (.leaf sym _) => [(sym, [false])]
    | _ => []
  else visit nodes nodeCount (nodeCount - 1) []

/-- Writing one symbol's code into the table (42_codebook.md R171's C[sym] <- p). -/
def setCode (table : List (List Bool)) (c : Byte × List Bool) : List (List Bool) := table.set c.1.toNat c.2

/-- Codebook(store) (42_codebook.md R171): 256 codes, the empty one for a symbol that has none. -/
def codebookOf (nodes : List Node) (nodeCount : Nat) : List (List Bool) :=
  (symbolCodes nodes nodeCount).foldl setCode (List.replicate 256 [])

/-- CODEBOOK's writes (42_codebook.md R171). -/
def codebookBody (s : State) : StageOut := .ok { s with cb := codebookOf s.nodes s.nodeCount.toNat }

/-- The stage CODEBOOK. -/
def codebookStage : State → StageOut := guarded .codebook codebookBody

/-- CODEBOOK (42_codebook.md R171). -/
def execCodebook (s : State) : Host.Outcome State Fault Refusal := runCommand 0x03#8 [(.codebook, codebookStage)] s

/-! ### CODE -/

/-- The lowest position, counted from `a`, of a byte without a code (42_codebook.md R174's CODE_MISS). -/
def firstMiss (code : Byte → List Bool) : Nat → List Byte → Option Nat
  | _, [] => none
  | a, b :: bs => if (code b).length = 0 then some a else firstMiss code (a + 1) bs

/-- The stream: the codes of the bytes in order (42_codebook.md R174). -/
def codeStream (code : Byte → List Bool) (bytes : List Byte) : List Bool := bytes.flatMap code

/-- CODE's checks after NO_CODEBOOK, and its writes (42_codebook.md R174). -/
def codeBody (s : State) : StageOut :=
  if s.inLen.toNat > s.capIn.toNat then .fail { cause := .inLen, info := s.inLen.toNat } s
  else
    match firstMiss (codeOf s) 0 (inBytes s) with
    | some a => .fail { cause := .codeMiss, info := a } s
    | none =>
      let stream := codeStream (codeOf s) (inBytes s)
      if stream.length > s.capBits.toNat then .fail { cause := .bitbuf, info := stream.length } s
      else .ok { s with bitbuf := writePrefix stream s.bitbuf, bitLength := BitVec.ofNat 64 stream.length }

/-- The stage CODE. -/
def codeStage : State → StageOut := guarded .code codeBody

/-- CODE (42_codebook.md R174). -/
def execCode (s : State) : Host.Outcome State Fault Refusal := runCommand 0x04#8 [(.code, codeStage)] s

end Sys2Proof.Machine
end

