-- ==== Sys2Proof/Machine/Container.lean ====
section
/-! DEFINITION. The container serializer and parser: SERIALIZE and PARSE (44_container.md; layout 30_encoding.md
R110 to R119). -/

namespace Sys2Proof.Machine

/-! ### Big-endian integers and widths -/

/-- BE_w(v): the w-byte big-endian encoding (00_scope.md R8). -/
def bigEndian (w v : Nat) : List Byte := (List.range w).map fun i => BitVec.ofNat 8 (v >>> (8 * (w - 1 - i)))

/-- unBE of a byte list (00_scope.md R8). -/
def unBigEndian (bs : List Byte) : Nat := bs.foldl (fun acc b => acc * 256 + b.toNat) 0

/-- minwidth (30_encoding.md R119). -/
def minWidth (m : Nat) : Nat := if m ≤ 0xFF then 1 else if m ≤ 0xFFFF then 2 else if m ≤ 0xFFFFFFFF then 4 else 8

/-- L(n, w, B), the length of a container (30_encoding.md R117). -/
def containerLength (n w b : Nat) : Nat := 17 + n + n * w + ceil8 b

/-! ### Serializer -/

/-- The bytes of Serialize(SLIST, B, P) at hit-count width `w` (44_container.md R201; 30_encoding.md R110). -/
def containerBytes (es : List Entry) (w b : Nat) (payload : List Byte) : List Byte :=
  bigEndian 8 es.length ++ bigEndian 8 b ++ [BitVec.ofNat 8 w] ++ es.map (·.sym)
    ++ es.flatMap (fun e => bigEndian w e.cnt.toNat) ++ payload

/-- SERIALIZE's check after its prerequisites, and its writes (44_container.md R200). -/
def serializeBody (s : State) : StageOut :=
  let b := s.bitLength.toNat
  let w := minWidth (maxCount s.slist)
  let len := containerLength s.slist.length w b
  if len > s.capOut.toNat then .fail { cause := .out, info := len } s
  else .ok { s with
    outMem := s.outMem.writeAll 0 (containerBytes s.slist w b (payloadOf s))
    outLen := BitVec.ofNat 64 len, hcWidth := BitVec.ofNat 64 w }

/-- The stage SERIALIZE. -/
def serializeStage : State → StageOut := guarded .serialize serializeBody

/-- SERIALIZE (44_container.md R200). -/
def execSerialize (s : State) : Host.Outcome State Fault Refusal := runCommand 0x06#8 [(.serialize, serializeStage)] s

/-! ### Parser -/

/-- What a container holds (44_container.md R207). -/
structure Parsed where
  /-- hitCountByteWidth. -/
  width : Nat
  /-- compressedBitLength. -/
  bits : Nat
  /-- Dictionary and hit counts, in the stored order. -/
  entries : List Entry
  /-- The payload bytes. -/
  payload : List Byte
  deriving DecidableEq, Repr

/-- What reading a container gives: its contents, or the first failing check (44_container.md R206). -/
inductive ParseOut where
  /-- Every check passed. -/
  | ok (p : Parsed)
  /-- The first check that failed. -/
  | fail (r : Raise)
  deriving DecidableEq, Repr

/-- `count` bytes from position `a`. -/
def bytesAt (d : Nat → Byte) (a count : Nat) : List Byte := (List.range count).map fun i => d (a + i)

/-- Entry `i` of a container with n entries of width w (44_container.md R206, check 7). -/
def entryAt (d : Nat → Byte) (n w i : Nat) : Entry :=
  { sym := d (17 + i), cnt := BitVec.ofNat 64 (unBigEndian (bytesAt d (17 + n + i * w) w)) }

/-- Check 7 of 44_container.md R206 from entry `i` on: for each entry the duplicate test, then the order test.
`seen` are the symbols before it, `prev` the entry before it. -/
def checkEntries : Nat → List Byte → Option Entry → List Entry → Option Raise
  | _, _, _, [] => none
  | i, seen, prev, e :: es =>
    if seen.contains e.sym then some { cause := .duplicateSymbol, info := i }
    else
      match prev with
      | none => checkEntries (i + 1) (e.sym :: seen) (some e) es
      | some p =>
        if p.cnt.toNat < e.cnt.toNat ∨ (p.cnt.toNat = e.cnt.toNat ∧ p.sym.toNat < e.sym.toNat) then
          checkEntries (i + 1) (e.sym :: seen) (some e) es
        else some { cause := .badOrder, info := i }

/-- The nine checks of 44_container.md R206 in order, over the bytes `d` of IN_MEM. -/
def parseContainer (d : Nat → Byte) (len capIn capBits : Nat) : ParseOut :=
  if len > capIn then .fail { cause := .inLen, info := len }
  else if len < 17 then .fail { cause := .headerTruncated, info := len }
  else
    let n := unBigEndian (bytesAt d 0 8)
    let b := unBigEndian (bytesAt d 8 8)
    let w := (d 16).toNat
    if ¬(w = 1 ∨ w = 2 ∨ w = 4 ∨ w = 8) then .fail { cause := .badWidth, info := w }
    else if n > 256 then .fail { cause := .countTooLarge, info := n }
    else if 17 + n + n * w > len then .fail { cause := .sectionTruncated, info := 17 + n + n * w }
    else if containerLength n w b > len then .fail { cause := .payloadTruncated, info := containerLength n w b }
    else
      let es := (List.range n).map (entryAt d n w)
      match checkEntries 0 [] none es with
      | some r => .fail r
      | none =>
        if sumCounts es ≥ 2 ^ 64 then .fail { cause := .arith, info := 0 }
        else if b > capBits then .fail { cause := .bitbuf, info := b }
        else .ok { width := w, bits := b, entries := es, payload := bytesAt d (17 + n + n * w) (ceil8 b) }

/-- The FREQ mirror of a dictionary (44_container.md R207; D41): the count of each symbol, 0 for one that is absent. -/
def mirrorTable (es : List Entry) : List Word :=
  (List.range 256).map fun b =>
    match es.find? (fun e => e.sym == BitVec.ofNat 8 b) with
    | some e => e.cnt
    | none => 0#64

/-- PARSE's checks and writes (44_container.md R205 to R207). -/
def parseBody (s : State) : StageOut :=
  match parseContainer (readIn s) s.inLen.toNat s.capIn.toNat s.capBits.toNat with
  | .fail r => .fail r s
  | .ok p => .ok { s with
      slist := p.entries, freq := mirrorTable p.entries, symbolCount := BitVec.ofNat 64 p.entries.length
      bitLength := BitVec.ofNat 64 p.bits, hcWidth := BitVec.ofNat 64 p.width
      payload := writePrefix p.payload s.payload }

/-- The stage PARSE. -/
def parseStage : State → StageOut := guarded .parse parseBody

/-- PARSE (44_container.md R205). -/
def execParse (s : State) : Host.Outcome State Fault Refusal := runCommand 0x11#8 [(.parse, parseStage)] s

end Sys2Proof.Machine
end

