-- ==== Sys2Proof/Machine/Decoder.lean ====
section
/-! DEFINITION. The bitstream walker and symbol emitter: WALK (45_decoder.md). -/

namespace Sys2Proof.Machine

/-- The walk as far as it has come: the current node (10_state.md R21 (d)), the symbols emitted so far and OUT_MEM. -/
structure Walker where
  /-- R231's x. -/
  node : Nat
  /-- R231's k. -/
  count : Nat
  /-- OUT_MEM. -/
  out : Memory
  deriving DecidableEq, Repr

/-- What a piece of the walk gives. -/
inductive WalkOut where
  /-- It went on. -/
  | ok (w : Walker)
  /-- R231's `fail`. -/
  | fail (r : Raise)
  deriving DecidableEq, Repr

/-- `emit(s)` (45_decoder.md R231), then the walk stands at node `x`. -/
def emit (cap : Nat) (sym : Byte) (x : Nat) (w : Walker) : WalkOut :=
  if w.count ≥ cap then .fail { cause := .out, info := w.count }
  else .ok { node := x, count := w.count + 1, out := w.out.write w.count sym }

/-- Stream bit `j` with value `b` (45_decoder.md R231, R232). A node number outside the store has no child; a built store
has none (log 16). -/
def walkBit (nodes : List Node) (root cap j : Nat) (b : Bool) (w : Walker) : WalkOut :=
  match nodes[w.node]? with
  | none => .fail { cause := .noChild, info := j }
  | some (.leaf sym _) => if b then .fail { cause := .noChild, info := j } else emit cap sym w.node w
  | some (.branch first second _) =>
    let child := if b then second.toNat else first.toNat
    match nodes[child]? with
    | some (.leaf sym _) => emit cap sym root w
    | _ => .ok { w with node := child }

/-- The stream's bits in order from bit `j` on (45_decoder.md R231). -/
def walkBits (nodes : List Node) (root cap : Nat) : Nat → List Bool → Walker → WalkOut
  | _, [], w => .ok w
  | j, b :: bs, w =>
    match walkBit nodes root cap j b w with
    | .fail r => .fail r
    | .ok w' => walkBits nodes root cap (j + 1) bs w'

/-- R231's `fail`: OUT_LEN is 0 and OUT_MEM holds unspecified bytes, a new draw of them. -/
def walkFail (r : Raise) (s : State) : StageOut :=
  .fail r { s with outLen := 0#64, outMem := [], outEpoch := s.draws, draws := s.draws + 1 }

/-- WALK after its prerequisites (45_decoder.md R231). -/
def walkBody (s : State) : StageOut :=
  if s.nodeCount.toNat = 0 then
    if s.bitLength.toNat = 0 then .ok { s with outLen := 0#64 }
    else walkFail { cause := .decodeNoTree, info := 0 } s
  else
    let root := s.nodeCount.toNat - 1
    match walkBits s.nodes root s.capOut.toNat 0 (streamOf s) { node := root, count := 0, out := s.outMem } with
    | .fail r => walkFail r s
    | .ok w =>
      if w.node ≠ root then walkFail { cause := .incomplete, info := s.bitLength.toNat } s
      else .ok { s with
        outMem := w.out, outLen := BitVec.ofNat 64 w.count, walkNode := w.node, walkCount := w.count }

/-- The stage WALK. -/
def walkStage : State → StageOut := guarded .walk walkBody

/-- WALK (45_decoder.md R230). -/
def execWalk (s : State) : Host.Outcome State Fault Refusal := runCommand 0x13#8 [(.walk, walkStage)] s

end Sys2Proof.Machine
end

