-- ==== Sys2Proof/Machine/Freq.lean ====
section
/-! DEFINITION. The frequency analyzer: FREQ (40_frequency.md). -/

namespace Sys2Proof.Machine

/-- The 256 symbols in ascending order. -/
def allSymbols : List Byte := (List.range 256).map (BitVec.ofNat 8)

/-- The frequency order of 40_frequency.md R141, or equality: lower count first, then lower symbol. -/
abbrev entryLe (x y : Entry) : Prop := x.cnt.toNat < y.cnt.toNat ∨ (x.cnt.toNat = y.cnt.toNat ∧ x.sym.toNat ≤ y.sym.toNat)

/-- The strict frequency order of 40_frequency.md R141. -/
abbrev entryLt (x y : Entry) : Prop := x.cnt.toNat < y.cnt.toNat ∨ (x.cnt.toNat = y.cnt.toNat ∧ x.sym.toNat < y.sym.toNat)

/-- The frequency table of some bytes (40_frequency.md R140's f). -/
def countTable (bytes : List Byte) : List Word := allSymbols.map fun b => BitVec.ofNat 64 (bytes.count b)

/-- The frequency list of some bytes (40_frequency.md R140's L). -/
def freqList (bytes : List Byte) : List Entry :=
  ((allSymbols.filter fun b => 0 < bytes.count b).map fun b =>
    ({ sym := b, cnt := BitVec.ofNat 64 (bytes.count b) } : Entry)).insertionSort entryLe

/-- FREQ's check and writes (40_frequency.md R140). -/
def freqBody (s : State) : StageOut :=
  if s.inLen.toNat > s.capIn.toNat then .fail { cause := .inLen, info := s.inLen.toNat } s
  else
    let bytes := inBytes s
    let list := freqList bytes
    .ok { s with freq := countTable bytes, slist := list, symbolCount := BitVec.ofNat 64 list.length }

/-- The stage FREQ. -/
def freqStage : State → StageOut := guarded .freq freqBody

/-- FREQ (40_frequency.md R140). -/
def execFreq (s : State) : Host.Outcome State Fault Refusal := runCommand 0x01#8 [(.freq, freqStage)] s

end Sys2Proof.Machine
end

