-- ==== Sys2Proof/Machine/Tree.lean ====
section
/-! DEFINITION. The tree builder: BUILD and BUILD.H (41_tree.md). One merge loop, run over three ways of keeping the
available nodes: a plain set (R151, the tree every variant must give), two queues (R154) and a binary heap (R153).
Frequencies are exact here and narrowed to 64 bits where a node is stored (R158; log 20). -/

namespace Sys2Proof.Machine

/-- An available node: its frequency and its number in the node store. -/
structure Item where
  /-- NODE[ix].freq, exact. -/
  freq : Nat
  /-- The node's number. -/
  ix : Nat
  deriving DecidableEq, Repr

/-- key(x) < key(y) of 41_tree.md R150, for n leaves: frequency, then category (0 leaf, 1 branch), then the position
among the leaves or the creation number among the branches. -/
def keyLt (n : Nat) (x y : Item) : Bool :=
  let cat (z : Item) : Nat := if z.ix < n then 0 else 1
  let pos (z : Item) : Nat := if z.ix < n then z.ix else z.ix - n
  x.freq < y.freq || (x.freq == y.freq && (cat x < cat y || (cat x == cat y && pos x < pos y)))

/-- The merges of 41_tree.md R151: `take` gives the node to merge and what stays, `put` adds a node. Each merge makes
one branch, numbered from `next`; the first node taken is the first child (D14). -/
def mergeLoop {Q : Type} (take : Q → Option (Item × Q)) (put : Item → Q → Q) : Nat → Nat → Q → List Node
  | 0, _, _ => []
  | k + 1, next, q =>
    match take q with
    | none => []
    | some (a, q1) =>
      match take q1 with
      | none => []
      | some (b, q2) =>
        .branch (BitVec.ofNat 9 a.ix) (BitVec.ofNat 9 b.ix) (BitVec.ofNat 64 (a.freq + b.freq))
          :: mergeLoop take put k (next + 1) (put { freq := a.freq + b.freq, ix := next } q2)

/-- The leaves of SLIST as nodes (41_tree.md R151). -/
def leafNodes (es : List Entry) : List Node := es.map fun e => .leaf e.sym e.cnt

/-- Available nodes for entries numbered from `i`. -/
def leafItemsFrom : Nat → List Entry → List Item
  | _, [] => []
  | i, e :: es => { freq := e.cnt.toNat, ix := i } :: leafItemsFrom (i + 1) es

/-- The available nodes before the first merge (41_tree.md R151). -/
def leafItems (es : List Entry) : List Item := leafItemsFrom 0 es

/-! ### The plain set (R151) -/

/-- The least available node and the others (41_tree.md R151). -/
def takeLeast (n : Nat) : List Item → Option (Item × List Item)
  | [] => none
  | x :: xs =>
    match takeLeast n xs with
    | none => some (x, [])
    | some (m, rest) => if keyLt n x m then some (x, xs) else some (m, x :: rest)

/-- BuildTree(SLIST), the node store every variant must produce (41_tree.md R151). -/
def buildTree (es : List Entry) : List Node :=
  leafNodes es ++ mergeLoop (takeLeast es.length) List.cons (es.length - 1) es.length (leafItems es)

/-! ### Two queues (R154) -/

/-- The leaves not yet used, and the branches made and not yet used, both in order (41_tree.md R154's i and Q from h on). -/
structure Queues where
  /-- Leaves i to n - 1. -/
  leaves : List Item
  /-- The FIFO queue of branches from its head. -/
  branches : List Item
  deriving DecidableEq, Repr

/-- `take()` of 41_tree.md R154: the leaf wins ties. -/
def takeFront (q : Queues) : Option (Item × Queues) :=
  match q.leaves, q.branches with
  | [], [] => none
  | l :: ls, [] => some (l, { leaves := ls, branches := [] })
  | [], b :: bs => some (b, { leaves := [], branches := bs })
  | l :: ls, b :: bs =>
    if l.freq ≤ b.freq then some (l, { leaves := ls, branches := b :: bs })
    else some (b, { leaves := l :: ls, branches := bs })

/-- A new branch goes to the end of the queue (41_tree.md R154). -/
def putBack (x : Item) (q : Queues) : Queues := { q with branches := q.branches ++ [x] }

/-- The two-queue variant (41_tree.md R154). Of a list in good order it is `buildTree` (R155). -/
def buildTwoQueue (es : List Entry) : List Node :=
  leafNodes es ++ mergeLoop takeFront putBack (es.length - 1) es.length { leaves := leafItems es, branches := [] }

/-! ### A binary min-heap (R153) -/

/-- A binary heap (41_tree.md R153). Its shape is the balanced one in which a left subtree has as many nodes as the
right one, or one more; the rule leaves the arrangement open (log 22). -/
inductive Heap where
  /-- No node. -/
  | empty
  /-- A root and two subtrees. -/
  | node (left : Heap) (root : Item) (right : Heap)
  deriving DecidableEq, Repr

/-- Adding a node. -/
def heapInsert (n : Nat) (x : Item) : Heap → Heap
  | .empty => .node .empty x .empty
  | .node l y r =>
    if keyLt n x y then .node (heapInsert n y r) x l else .node (heapInsert n x r) y l

/-- Removing a node from the bottom of a heap `l y r`. -/
def heapPopLast : Heap → Item → Heap → Item × Heap
  | .empty, y, r => (y, r)
  | .node l' y' r', y, r =>
    let (z, l) := heapPopLast l' y' r'
    (z, .node r y l)

/-- Putting `x` in the root's place and sifting it down. -/
def heapReplaceRoot (n : Nat) (x : Item) : Heap → Heap
  | .empty => .node .empty x .empty
  | .node l _ r =>
    match l, r with
    | .empty, .empty => .node .empty x .empty
    | .node ll ly lr, .empty =>
      if keyLt n ly x then .node (heapReplaceRoot n x (.node ll ly lr)) ly .empty else .node (.node ll ly lr) x .empty
    | .empty, .node rl ry rr =>
      if keyLt n ry x then .node .empty ry (heapReplaceRoot n x (.node rl ry rr)) else .node .empty x (.node rl ry rr)
    | .node ll ly lr, .node rl ry rr =>
      if keyLt n ly ry then
        if keyLt n ly x then .node (heapReplaceRoot n x (.node ll ly lr)) ly (.node rl ry rr)
        else .node (.node ll ly lr) x (.node rl ry rr)
      else
        if keyLt n ry x then .node (.node ll ly lr) ry (heapReplaceRoot n x (.node rl ry rr))
        else .node (.node ll ly lr) x (.node rl ry rr)

/-- Extracting the minimum: the root. -/
def heapTake (n : Nat) : Heap → Option (Item × Heap)
  | .empty => none
  | .node l x r =>
    match l with
    | .empty => some (x, r)
    | .node l' y' r' =>
      let (z, l2) := heapPopLast l' y' r'
      some (x, heapReplaceRoot n z (.node r x l2))

/-- The heap of the leaves. -/
def heapOf (n : Nat) : List Item → Heap
  | [] => .empty
  | x :: xs => heapInsert n x (heapOf n xs)

/-- The heap variant (41_tree.md R153). It is `buildTree` of every list (R155). -/
def buildHeap (es : List Entry) : List Node :=
  leafNodes es ++
    mergeLoop (heapTake es.length) (heapInsert es.length) (es.length - 1) es.length (heapOf es.length (leafItems es))

/-! ### The stage and the commands -/

/-- NODE_COUNT for n entries (41_tree.md R151). -/
def nodeCountOf (n : Nat) : Nat := if n = 0 then 0 else 2 * n - 1

/-- BUILD's writes; `heap` is ALG (41_tree.md R152). Both variants write the identical node store and NODE_COUNT (R155). -/
def buildBody (heap : Bool) (s : State) : StageOut :=
  .ok { s with
    nodes := if heap then buildHeap s.slist else buildTwoQueue s.slist
    nodeCount := BitVec.ofNat 64 (nodeCountOf s.slist.length) }

/-- The stage BUILD. -/
def buildStage (heap : Bool) : State → StageOut := guarded .build (buildBody heap)

/-- BUILD, ALG = 0 (41_tree.md R152). -/
def execBuild (s : State) : Host.Outcome State Fault Refusal := runCommand 0x02#8 [(.build, buildStage false)] s

/-- BUILD.H, ALG = 1 (41_tree.md R152). -/
def execBuildH (s : State) : Host.Outcome State Fault Refusal := runCommand 0x02#8 [(.build, buildStage true)] s

end Sys2Proof.Machine
end

