-- ==== Sys2Proof/Machine/Composite.lean ====
section
/-! DEFINITION. The composite commands: ENCODE, DECODE and STATS with their spellings (46_composite.md). -/

namespace Sys2Proof.Machine

/-- The stages of ENCODE; `heap` is ALG (46_composite.md R240). -/
def encodeStages (heap : Bool) : List (StageName × (State → StageOut)) :=
  [(.freq, freqStage), (.build, buildStage heap), (.codebook, codebookStage), (.code, codeStage), (.pack, packStage),
    (.serialize, serializeStage)]

/-- The stages of DECODE (46_composite.md R241). -/
def decodeStages (heap : Bool) : List (StageName × (State → StageOut)) :=
  [(.parse, parseStage), (.build, buildStage heap), (.unpack, unpackStage), (.walk, walkStage)]

/-- The stream length of a list under the codebook: Σ cnt · CB[sym].len (46_composite.md R243). -/
def statBitsOf (s : State) : Nat := (s.slist.map fun e => e.cnt.toNat * (codeOf s e.sym).length).sum

/-- STATCALC (46_composite.md R243). -/
def statcalcBody (s : State) : StageOut :=
  let n := s.slist.length
  let orig := sumCounts s.slist
  let bits := statBitsOf s
  let cont := containerLength n (minWidth (maxCount s.slist)) bits
  if orig ≥ 2 ^ 64 ∨ bits ≥ 2 ^ 64 ∨ cont ≥ 2 ^ 64 then .fail { cause := .arith, info := 0 } s
  else .ok { s with
    statOrig := BitVec.ofNat 64 orig, statBits := BitVec.ofNat 64 bits, statContainer := BitVec.ofNat 64 cont }

/-- The last stage of STATS. -/
def statcalcStage : State → StageOut := guarded .statcalc statcalcBody

/-- The stages of STATS on raw bytes, SRC = 0 (46_composite.md R242). -/
def statsRawStages (heap : Bool) : List (StageName × (State → StageOut)) :=
  [(.freq, freqStage), (.build, buildStage heap), (.codebook, codebookStage), (.statcalc, statcalcStage)]

/-- The stages of STATS on a container, SRC = 1 (46_composite.md R242). -/
def statsContainerStages (heap : Bool) : List (StageName × (State → StageOut)) :=
  [(.parse, parseStage), (.build, buildStage heap), (.codebook, codebookStage), (.statcalc, statcalcStage)]

/-- ENCODE (46_composite.md R240). -/
def execEncode (s : State) : Host.Outcome State Fault Refusal := runCommand 0x20#8 (encodeStages false) s

/-- ENCODE.H (46_composite.md R240). -/
def execEncodeH (s : State) : Host.Outcome State Fault Refusal := runCommand 0x20#8 (encodeStages true) s

/-- DECODE (46_composite.md R241). -/
def execDecode (s : State) : Host.Outcome State Fault Refusal := runCommand 0x21#8 (decodeStages false) s

/-- DECODE.H (46_composite.md R241). -/
def execDecodeH (s : State) : Host.Outcome State Fault Refusal := runCommand 0x21#8 (decodeStages true) s

/-- STATS (46_composite.md R242). -/
def execStats (s : State) : Host.Outcome State Fault Refusal := runCommand 0x22#8 (statsRawStages false) s

/-- STATS.H (46_composite.md R242). -/
def execStatsH (s : State) : Host.Outcome State Fault Refusal := runCommand 0x22#8 (statsRawStages true) s

/-- STATS.C (46_composite.md R242). -/
def execStatsC (s : State) : Host.Outcome State Fault Refusal := runCommand 0x22#8 (statsContainerStages false) s

/-- STATS.H.C (46_composite.md R242). -/
def execStatsHC (s : State) : Host.Outcome State Fault Refusal := runCommand 0x22#8 (statsContainerStages true) s

end Sys2Proof.Machine
end

