-- ==== Sys2Proof/Machine/Dispatch.lean ====
section
/-! DEFINITION. One arm per instruction, each a direct call of its meaning. -/

namespace Sys2Proof.Machine

def exec (i : Instr) (s : State) : Host.Outcome State Fault Refusal :=
  match i with
  | .freq => Sys2Proof.Machine.execFreq s
  | .build => Sys2Proof.Machine.execBuild s
  | .buildH => Sys2Proof.Machine.execBuildH s
  | .codebook => Sys2Proof.Machine.execCodebook s
  | .code => Sys2Proof.Machine.execCode s
  | .pack => Sys2Proof.Machine.execPack s
  | .serialize => Sys2Proof.Machine.execSerialize s
  | .parse => Sys2Proof.Machine.execParse s
  | .unpack => Sys2Proof.Machine.execUnpack s
  | .walk => Sys2Proof.Machine.execWalk s
  | .encode => Sys2Proof.Machine.execEncode s
  | .encodeH => Sys2Proof.Machine.execEncodeH s
  | .decode => Sys2Proof.Machine.execDecode s
  | .decodeH => Sys2Proof.Machine.execDecodeH s
  | .stats => Sys2Proof.Machine.execStats s
  | .statsH => Sys2Proof.Machine.execStatsH s
  | .statsC => Sys2Proof.Machine.execStatsC s
  | .statsHC => Sys2Proof.Machine.execStatsHC s

end Sys2Proof.Machine
end

