-- ==== Sys2Proof/Machine/Engine.lean ====
section
/-! DEFINITION. What the ENGINE does with the accepted command, which of the two agents moves, and how a command
word is put where the ENGINE takes its next command from. -/

namespace Sys2Proof.Machine

/-- The ENGINE decodes the accepted word and runs the command, up to its completion (60_exceptions.md R264;
30_encoding.md R105). -/
def engineStep (s : State) : Host.Outcome State Fault Refusal :=
  match decode s.cmd with
  | .command i => exec i s
  | .reject r => .next (commandError r s)

/-- One transition of the block and its HOST (20_memory.md R80). -/
def agentStep (s : State) : Host.Outcome State Fault Refusal :=
  if engineMoves s then engineStep s else .next (hostStep s)

/-- `s` with command word `v` accepted and the ENGINE to move next: reset is released and none comes first, and no HOST
access lands before the completion. -/
def placeWord (v : Word) (s : State) : State :=
  { accept v s with
    resetAsserted := false, engineDelay := 0, inputs := s.inputs.dropWhile fun op => resetComes [op] }

end Sys2Proof.Machine
end

