-- ==== Sys2Proof/Machine/Step.lean ====
section
/-! DEFINITION. The step, and the host's way to place a command word. -/

namespace Sys2Proof.Machine

/-- One step of the machine: the ENGINE completes the running command, or HOST does the next thing it has to do. -/
def step (s : State) : Host.Outcome State Fault Refusal := agentStep s

/-- The block fetches nothing: a command runs because HOST wrote its word to CMD while BUSY = 0 (10_state.md R27). So this is
`s` just after such a write of `w`, with the ENGINE to move next (log 14). -/
def State.withFetchWord (s : State) (_nbits w : Nat) : State := placeWord (BitVec.ofNat 64 w) s

end Sys2Proof.Machine
end

