-- ==== Sys2Proof/Safety.lean ====
section
/-! DEFINITION. What counts as a safe run, in the terms the statements use: the legal capacities, and the invariant the
block keeps (10_state.md R39 and the rules named at each clause). -/

namespace Sys2Proof.Machine

/-- The legal ranges of the parameters (00_scope.md R5). BITBUF_CAP ≤ 2^64 - 1 holds by its register's width. -/
structure CapsLegal (s : State) : Prop where
  inLow : 17 ≤ s.capIn.toNat
  inHigh : s.capIn.toNat ≤ 2 ^ 56
  outLow : 17 ≤ s.capOut.toNat

/-- A frequency list as 10_state.md R39 (a) has it: distinct symbols, strictly ascending in (count, symbol), and a sum of
counts that fits 64 bits. -/
structure ListOk (es : List Entry) : Prop where
  distinct : (es.map (·.sym)).Nodup
  ascending : es.Pairwise entryLt
  sumFits : sumCounts es < 2 ^ 64

/-- FREQ agrees with SLIST (10_state.md R39 (a)). -/
structure FreqAgrees (table : List Word) (es : List Entry) : Prop where
  full : table.length = 256
  listed : ∀ e ∈ es, table[e.sym.toNat]? = some e.cnt
  absent : ∀ b : Byte, (∀ e ∈ es, e.sym ≠ b) → table[b.toNat]? = some 0#64

/-- What ERR can hold: 0, or a recorded error (60_exceptions.md R261, R263). -/
def ErrLegal (err : Word) : Prop := err = 0#64 ∨ ∃ opcode stage cause, err = errWord opcode stage cause

/-- What the block's data keep. -/
structure DataInv (s : State) : Prop where
  /-- 00_scope.md R5. -/
  caps : CapsLegal s
  /-- IN_MEM is in canonical form and lies in its window (20_memory.md R71). -/
  inWf : Memory.wf s.inMem
  inRange : ∀ c ∈ s.inMem, c.1 < s.capIn.toNat
  /-- OUT_MEM is in canonical form and lies in its window (20_memory.md R71). -/
  outWf : Memory.wf s.outMem
  outRange : ∀ c ∈ s.outMem, c.1 < s.capOut.toNat
  /-- len(SLIST) = SYMBOL_COUNT, at most 256 (10_state.md R34). -/
  listLength : s.symbolCount.toNat = s.slist.length
  listShort : s.slist.length ≤ 256
  /-- The node store holds NODE_COUNT nodes (10_state.md R35). -/
  storeLength : s.nodeCount.toNat = s.nodes.length
  /-- 10_state.md R39 (a). -/
  list : s.slistV = true → ListOk s.slist ∧ FreqAgrees s.freq s.slist
  /-- 10_state.md R39 (b). -/
  tree : s.treeV = true → s.slistV = true ∧ s.nodes = buildTree s.slist
  /-- 10_state.md R39 (c). -/
  codes : s.cbV = true → s.treeV = true ∧ s.cb = codebookOf s.nodes s.nodeCount.toNat
  /-- 10_state.md R39 (d). -/
  fits : s.bitsV = true ∨ s.payloadV = true → s.bitLength.toNat ≤ s.capBits.toNat
  /-- 10_state.md R39 (e). -/
  packed : s.bitsV = true → s.payloadV = true → streamOf s = unpack (payloadOf s) s.bitLength.toNat
  /-- No stage reads BITBUF or PAYLOAD where nothing was written since reset (70_reset_and_hazards.md R302). -/
  bitsWritten : s.bitsV = true → s.bitLength.toNat ≤ s.bitbuf.length
  payloadWritten : s.payloadV = true → ceil8 s.bitLength.toNat ≤ s.payload.length
  /-- BITBUF and PAYLOAD have the sizes of 10_state.md R37, R38. -/
  bitbufSize : s.bitbuf.length ≤ s.capBits.toNat
  payloadSize : s.payload.length ≤ ceil8 s.capBits.toNat
  /-- OUT_LEN counts bytes of OUT_MEM (10_state.md R30). -/
  outFits : s.outLen.toNat ≤ s.capOut.toNat
  /-- HC_WIDTH is a legal width, or 0 (10_state.md R30). -/
  width : s.hcWidth = 0#64 ∨ s.hcWidth = 1#64 ∨ s.hcWidth = 2#64 ∨ s.hcWidth = 4#64 ∨ s.hcWidth = 8#64
  /-- The contents that are unspecified now were drawn before (the model's own counters, log 18). -/
  drawn : s.epoch < s.draws ∧ s.outEpoch < s.draws

/-- What the block's control state keeps. -/
structure ControlInv (s : State) : Prop where
  /-- DONE and ERROR are never both 1 (10_state.md R24). -/
  oneReport : ¬(s.done = true ∧ s.error = true)
  /-- While BUSY = 1, DONE = ERROR = 0 and ERR and ERR_INFO are 0 (10_state.md R24; 70_reset_and_hazards.md R321). -/
  busyClear : s.busy = true → s.done = false ∧ s.error = false ∧ s.err = 0#64 ∧ s.errInfo = 0#64
  /-- No (KIND, CAUSE) pair but those of 60_exceptions.md R261 is ever recorded. -/
  errLegal : ErrLegal s.err
  /-- ERROR says that ERR describes an error (10_state.md R24). -/
  errorErr : s.error = true → s.err ≠ 0#64
  /-- DONE says that the last command had none, and ERR and ERR_INFO are 0 (10_state.md R24, R26; 60_exceptions.md R260). -/
  doneErr : s.done = true → s.err = 0#64 ∧ s.errInfo = 0#64
  /-- Nothing of 10_state.md R21 (c), (d) survives a completion, and acceptance starts it afresh. -/
  sequencing : s.stageIndex = 0 ∧ s.walkNode = 0 ∧ s.walkCount = 0
  /-- Reset abandons a running command (70_reset_and_hazards.md R301). -/
  resetIdle : s.resetAsserted = true → s.busy = false

/-- The invariant of the block. -/
structure Inv (s : State) : Prop where
  data : DataInv s
  control : ControlInv s

/-- A safe step: the machine does not stop. -/
def SafeStep (s : State) : Prop := ∃ t, step s = .next t

/-! ### Words for the statements -/

/-- The state in which a command completed without an error and changed nothing (60_exceptions.md R264). -/
abbrev State.succeeded (s : State) : State :=
  { s with busy := false, done := true, stageIndex := 0, walkNode := 0, walkCount := 0 }

/-- The state in which a command completed with an error and changed nothing else (60_exceptions.md R263, R267). -/
abbrev State.failed (s : State) (err info : Word) : State :=
  { s with busy := false, error := true, err := err, errInfo := info, stageIndex := 0, walkNode := 0, walkCount := 0 }

/-- The frequency of node `x` of a store. -/
def nodeFreq (nodes : List Node) (x : Nat) : Nat :=
  match nodes[x]? with
  | none => 0
  | some (.leaf _ f) => f.toNat
  | some (.branch _ _ f) => f.toNat

/-- Node `x` is available at merge `k` of a tree over `n` leaves: it exists, and none of the first `k` branches has it as
a child (41_tree.md R151's avail). -/
def Available (nodes : List Node) (n k x : Nat) : Prop :=
  x < n + k ∧ ∀ j < k, ∀ a b f, nodes[n + j]? = some (.branch a b f) → x ≠ a.toNat ∧ x ≠ b.toNat

/-- Node `x` precedes node `y` in the order of 41_tree.md R150: by frequency, then by number. -/
def Precedes (nodes : List Node) (x y : Nat) : Prop :=
  nodeFreq nodes x < nodeFreq nodes y ∨ (nodeFreq nodes x = nodeFreq nodes y ∧ x < y)

/-- The node that the bits of a path lead to from node `x`: bit 0 to the first child, bit 1 to the second
(42_codebook.md R170); none where a node has no child. -/
def follow (nodes : List Node) : Nat → List Bool → Option Nat
  | x, [] => some x
  | x, b :: bs =>
    match nodes[x]? with
    | some (.branch first second _) => follow nodes (if b then second.toNat else first.toNat) bs
    | _ => none

/-- The code of a symbol in a codebook. -/
def codeIn (cb : List (List Bool)) (b : Byte) : List Bool := cb.getD b.toNat []

/-- NODE_COUNT of a tree over `n` symbols (41_tree.md R151). -/
def nodesFor (n : Nat) : Nat := if n = 0 then 0 else 2 * n - 1

/-- The codebook of a frequency list (41_tree.md R151; 42_codebook.md R171). -/
def codebookFor (es : List Entry) : List (List Bool) := codebookOf (buildTree es) (nodesFor es.length)

/-- What FREQ, BUILD and CODEBOOK leave for input `bytes` (46_composite.md R240, R242). -/
def analyzed (s : State) (bytes : List Byte) : State :=
  { s with
    freq := countTable bytes, slist := freqList bytes, symbolCount := BitVec.ofNat 64 (freqList bytes).length
    nodes := buildTree (freqList bytes), nodeCount := BitVec.ofNat 64 (nodesFor (freqList bytes).length)
    cb := codebookFor (freqList bytes)
    slistV := true, treeV := true, cbV := true, bitsV := false, payloadV := false }

/-- What CODE and PACK then leave for the stream `bits` (46_composite.md R240). -/
def streamed (s : State) (bits : List Bool) : State :=
  { s with
    bitbuf := writePrefix bits s.bitbuf, bitLength := BitVec.ofNat 64 bits.length
    payload := writePrefix (pack bits) s.payload, bitsV := true, payloadV := true }

/-- What PARSE and BUILD leave for container `p` (46_composite.md R241, R242). -/
def rebuilt (s : State) (p : Parsed) : State :=
  { s with
    slist := p.entries, freq := mirrorTable p.entries, symbolCount := BitVec.ofNat 64 p.entries.length
    bitLength := BitVec.ofNat 64 p.bits, hcWidth := BitVec.ofNat 64 p.width, payload := writePrefix p.payload s.payload
    nodes := buildTree p.entries, nodeCount := BitVec.ofNat 64 (nodesFor p.entries.length)
    slistV := true, treeV := true, cbV := false, bitsV := false, payloadV := true }

/-- `t` comes from `s` by `n` steps. -/
def Reaches : Nat → State → State → Prop
  | 0, s, t => t = s
  | n + 1, s, t => ∃ u, step s = .next u ∧ Reaches n u t

end Sys2Proof.Machine
end

