-- ==== Sys2Proof/Certificates/Slice0/Obligations.lean ====
section
/-! DEFINITION. The statements for the provers. Each docstring names the rules it formalises, or the log entry where a
clause is the model's own choice. -/

open Sys2Proof Sys2Proof.Machine

/-! ### Command words -/

/-- 30_encoding.md R121: the eighteen spellings and their words; `.H` adds 0x100 and is legal only for BUILD, ENCODE, DECODE and
STATS, `.C` adds 0x200 and is legal only for STATS. -/
def Obligations.CommandWords : Prop :=
  (∀ p ∈ [(Instr.freq, 0x001#64), (.build, 0x002#64), (.buildH, 0x102#64), (.codebook, 0x003#64), (.code, 0x004#64),
      (.pack, 0x005#64), (.serialize, 0x006#64), (.parse, 0x011#64), (.unpack, 0x012#64), (.walk, 0x013#64),
      (.encode, 0x020#64), (.encodeH, 0x120#64), (.decode, 0x021#64), (.decodeH, 0x121#64), (.stats, 0x022#64),
      (.statsH, 0x122#64), (.statsC, 0x222#64), (.statsHC, 0x322#64)],
    encode p.1 = p.2 ∧ decode p.2 = .command p.1) ∧
  (∀ i : Instr, (encode i).toNat = i.opcode.toNat + (if i.alg then 0x100 else 0) + (if i.src then 0x200 else 0)) ∧
  (∀ i : Instr, i.alg = true → i.opcode ∈ [0x02#8, 0x20#8, 0x21#8, 0x22#8]) ∧
  (∀ i : Instr, i.src = true → i.opcode = 0x22#8)

/-- 30_encoding.md R105, R121: decoding and encoding agree, and a word that decodes to a command is its encoding. -/
def Obligations.DecodeEncodeAgree : Prop :=
  (∀ i : Instr, i.wellFormed = true ∧ decode (encode i) = .command i) ∧
  (∀ (v : Word) (i : Instr), decode v = .command i → v = encode i)

/-- 30_encoding.md R105, R106: the ENGINE decodes the accepted word; a reserved OPCODE and then a reserved bit end the
command with CMD_ERROR and change nothing but STATUS, ERR and ERR_INFO; every other word is one command, which runs. -/
def Obligations.CommandDecoding : Prop :=
  (∀ s : State, engineMoves s = true →
    let v := s.cmd
    let op : Byte := v.extractLsb' 0 8
    let known := op ∈ [0x01#8, 0x02#8, 0x03#8, 0x04#8, 0x05#8, 0x06#8, 0x11#8, 0x12#8, 0x13#8, 0x20#8, 0x21#8, 0x22#8]
    let badBits := v.toNat / 2 ^ 10 ≠ 0 ∨ (v.getLsbD 8 = true ∧ op ∉ [0x02#8, 0x20#8, 0x21#8, 0x22#8]) ∨
      (v.getLsbD 9 = true ∧ op ≠ 0x22#8)
    (¬known → step s =
      .next (s.failed (BitVec.ofNat 64 (1 + 1 * 2 ^ 8 + op.toNat * 2 ^ 16 + op.toNat * 2 ^ 24)) v)) ∧
    (known → badBits → step s =
      .next (s.failed (BitVec.ofNat 64 (1 + 2 * 2 ^ 8 + op.toNat * 2 ^ 16 + op.toNat * 2 ^ 24)) v)) ∧
    (known → ¬badBits → ∃ i : Instr, i.opcode = op ∧ i.alg = v.getLsbD 8 ∧ i.src = v.getLsbD 9 ∧ step s = exec i s)) ∧
  (∀ op : Byte,
    op ∉ [0x01#8, 0x02#8, 0x03#8, 0x04#8, 0x05#8, 0x06#8, 0x11#8, 0x12#8, 0x13#8, 0x20#8, 0x21#8, 0x22#8] ↔
      op = 0 ∨ (0x07 ≤ op.toNat ∧ op.toNat ≤ 0x10) ∨ (0x14 ≤ op.toNat ∧ op.toNat ≤ 0x1F) ∨ 0x23 ≤ op.toNat)

/-! ### The step -/

/-- A step runs the decoded command: a command runs, reset does not come now, and HOST has nothing to do, waits, or has
no more accesses that land before the completion (60_exceptions.md R264; log 2 for which agent moves). -/
def Obligations.StepRunsDecodedCommand : Prop :=
  ∀ (s : State) (i : Instr), decode s.cmd = .command i → s.busy = true → (∀ rest, s.inputs ≠ .assertReset :: rest) →
    (s.inputs = [] ∨ (∃ rest, s.inputs = .wait :: rest) ∨ s.engineDelay = 0) → step s = exec i s

/-- HOST's side of a step (20_memory.md R80; 60_exceptions.md R276): an idle block changes no state until a HOST access, and a
HOST access takes effect in the order issued. The rest is the model's choice: HOST is a list of inputs and its answers are
recorded (log 8), an access is one of those that may land before a running command completes (log 2), and WAIT is one
operation, done once BUSY reads 0 and answered with the STATUS it read (log 9; its result is 30_encoding.md R122's). -/
def Obligations.StepMakesHostAccess : Prop :=
  ∀ s : State, engineMoves s = false →
    (s.inputs = [] → step s = .next s) ∧
    (∀ o w rest, s.inputs = .read o w :: rest → s.resetAsserted = false →
      step s = .next { (hostRead o w { s with inputs := rest }).2 with
        replies := (hostRead o w { s with inputs := rest }).1 :: s.replies
        engineDelay := s.engineDelay - (if s.busy then 1 else 0) }) ∧
    (∀ o w d rest, s.inputs = .write o w d :: rest → s.resetAsserted = false →
      step s = .next { (hostWrite o w d { s with inputs := rest }).2 with
        replies := (hostWrite o w d { s with inputs := rest }).1 :: s.replies
        engineDelay := (hostWrite o w d { s with inputs := rest }).2.engineDelay - (if s.busy then 1 else 0) }) ∧
    (∀ rest, s.inputs = .wait :: rest → s.resetAsserted = false →
      step s = .next { s with inputs := rest, replies := .word (readReg .status s).1 :: s.replies } ∧
      (readReg .status s).1 = statusWord s (validBits s) ∧ (readReg .status s).1.getLsbD 0 = false)

/-- The placed command word is the one that runs (log 14). -/
def Obligations.PlacedWordRuns : Prop :=
  ∀ (s : State) (n w : Nat) (i : Instr), decode (BitVec.ofNat 64 w) = .command i →
    step (s.withFetchWord n w) = exec i (s.withFetchWord n w) ∧
    (s.withFetchWord n w).cmd = BitVec.ofNat 64 w ∧ (s.withFetchWord n w).busy = true ∧
    (s.withFetchWord n w).inMem = s.inMem ∧ (s.withFetchWord n w).inLen = s.inLen

/-- 70_reset_and_hazards.md R326: an accepted command completes after finitely many steps unless reset comes first; that HOST
delays it only by the accesses that land before it is the model's choice (log 2). That every step has a next state is the
model's inference from 60_exceptions.md R263 and R265 (log 11): an error of a command and a bus error are no stop. -/
def Obligations.AcceptedCommandsComplete : Prop :=
  (∀ s : State, SafeStep s) ∧
  (∀ s : State, s.busy = true → .assertReset ∉ s.inputs → ∃ n t, Reaches n s t ∧ t.busy = false)

/-! ### Acceptance, STATUS and the interrupt -/

/-- 10_state.md R27, with the acceptance of 60_exceptions.md R264: a CMD write issues a command or, while one runs, is dropped
with OVERRUN; a read returns the last accepted word, 0 after reset. -/
def Obligations.CmdRegister : Prop :=
  (∀ (s : State) (v : Word), s.busy = false →
    ∃ d n, hostWrite 0x020#64 8 v s = (.written, { s with
      cmd := v, done := false, error := false, err := 0#64, errInfo := 0#64, busy := true
      stageIndex := 0, walkNode := 0, walkCount := 0, engineDelay := d, draws := n })) ∧
  (∀ (s : State) (v : Word), s.busy = true → hostWrite 0x020#64 8 v s = (.written, { s with overrun := true })) ∧
  (∀ s : State, hostRead 0x020#64 8 s = (.word s.cmd, s)) ∧
  (∀ (a b c : Word) (k : Nat), (State.atReset a b c k).cmd = 0#64)

/-- 70_reset_and_hazards.md R322: a CMD write while BUSY = 1 is dropped and sets OVERRUN; nothing else sets it, and it stays until
HOST writes 1 to it or reset comes. -/
def Obligations.OverrunIsSticky : Prop :=
  (∀ (s : State) (v : Word), s.busy = true → hostWrite 0x020#64 8 v s = (.written, { s with overrun := true })) ∧
  (∀ s t : State, step s = .next t →
    (s.overrun = true → t.overrun = true ∨ (∃ v rest, s.inputs = .write 0x028#64 8 v :: rest ∧ v.getLsbD 3 = true) ∨
      (∃ rest, s.inputs = .assertReset :: rest ∨ s.inputs = .releaseReset :: rest)) ∧
    (s.overrun = false → t.overrun = true → s.busy = true ∧ ∃ v rest, s.inputs = .write 0x020#64 8 v :: rest))

/-- 10_state.md R24: the fields of STATUS as HOST reads them. Bits 12:8 while BUSY = 1 are free, and nothing is said of them. -/
def Obligations.StatusFields : Prop :=
  ∀ s : State, Inv s →
    ∃ (w : Word) (t : State), hostRead 0x028#64 8 s = (.word w, t) ∧
      w.getLsbD 0 = s.busy ∧ w.getLsbD 1 = s.done ∧ w.getLsbD 2 = s.error ∧ w.getLsbD 3 = s.overrun ∧
      w.getLsbD 4 = irq s ∧
      (s.busy = false → w.getLsbD 8 = s.slistV ∧ w.getLsbD 9 = s.treeV ∧ w.getLsbD 10 = s.cbV ∧
        w.getLsbD 11 = s.bitsV ∧ w.getLsbD 12 = s.payloadV) ∧
      (∀ j, j ∉ [0, 1, 2, 3, 4, 8, 9, 10, 11, 12] → w.getLsbD j = false) ∧
      ¬(w.getLsbD 1 = true ∧ w.getLsbD 2 = true) ∧
      (s.busy = true → w.getLsbD 1 = false ∧ w.getLsbD 2 = false ∧ w.getLsbD 4 = false)

/-- 60_exceptions.md R268: `irq` is a level; a cleared enable masks it, write-one-to-clear and acceptance clear it, OVERRUN does
not raise it, and it is 0 after reset. -/
def Obligations.InterruptLevel : Prop :=
  ∀ s : State,
    (irq s = true ↔ (s.done = true ∧ s.doneIe = true) ∨ (s.error = true ∧ s.errIe = true)) ∧
    ((readReg .status s).1.getLsbD 4 = irq s) ∧
    (∀ v : Word, hostWrite 0x040#64 8 v s = (.written, { s with doneIe := v.getLsbD 0, errIe := v.getLsbD 1 })) ∧
    (∀ v : Word, hostWrite 0x028#64 8 v s = (.written, { s with
      done := s.done && !v.getLsbD 1, error := s.error && !v.getLsbD 2, overrun := s.overrun && !v.getLsbD 3 })) ∧
    (irq (hostWrite 0x040#64 8 0#64 s).2 = false) ∧
    (irq (hostWrite 0x028#64 8 0x6#64 s).2 = false) ∧
    (s.busy = false → ∀ v : Word, irq (hostWrite 0x020#64 8 v s).2 = false) ∧
    (∀ b : Bool, irq { s with overrun := b } = irq s) ∧
    (∀ (a b c : Word) (k : Nat), irq (State.atReset a b c k) = false)

/-! ### The register map, the windows and bus errors -/

/-- The register map: offset, register, and whether it is read-only (10_state.md R22). -/
def Sys2Proof.Machine.registerTable : List (Nat × Reg × Bool) :=
  [(0x000, .id, true), (0x008, .capIn, true), (0x010, .capOut, true), (0x018, .capBits, true), (0x020, .cmd, false),
    (0x028, .status, false), (0x030, .err, true), (0x038, .errInfo, true), (0x040, .irqEn, false), (0x048, .inLen, false),
    (0x050, .outLen, true), (0x058, .symbolCount, true), (0x060, .bitLength, true), (0x068, .hcWidth, true),
    (0x070, .nodeCount, true), (0x078, .statOrig, true), (0x080, .statBits, true), (0x088, .statContainer, true)] ++
  [(0x090, .lsel, false), (0x098, .listSym, true), (0x0A0, .listCnt, true), (0x0A8, .ssel, false), (0x0B0, .symFreq, true),
    (0x0B8, .symCodeLen, true), (0x0C0, .symCode0, true), (0x0C8, .symCode1, true), (0x0D0, .symCode2, true),
    (0x0D8, .symCode3, true), (0x0E0, .nsel, false), (0x0E8, .nodeInfo, true), (0x0F0, .nodeFreq, true),
    (0x0F8, .bsel, false), (0x100, .bitsWord, true), (0x108, .psel, false), (0x110, .payloadWord, true)]

/-- 10_state.md R22: each register is at its offset, a write to a read-only register is ignored, and the offsets from 0x118 to
0xFF8 read 0 and ignore writes. R23, R25 to R31 and 20_memory.md R82: what each register that is no window reads, the result
and statistics registers once BUSY = 0 (STATUS is in `Obligations.StatusFields`). R29: a write of IN_LEN with BUSY = 0. -/
def Obligations.RegisterMap : Prop :=
  (∀ p ∈ registerTable, ∀ s : State,
    hostRead (BitVec.ofNat 64 p.1) 8 s = (.word (readReg p.2.1 s).1, (readReg p.2.1 s).2) ∧
    (p.2.2 = true → ∀ v : Word, hostWrite (BitVec.ofNat 64 p.1) 8 v s = (.written, s))) ∧
  (∀ (s : State) (o : Word) (v : Word), 0x118 ≤ o.toNat → o.toNat ≤ 0xFF8 → o.toNat % 8 = 0 →
    hostRead o 8 s = (.word 0#64, s) ∧ hostWrite o 8 v s = (.written, s)) ∧
  (∀ s : State,
    readReg .id s = (0x4855464D00070001#64, s) ∧ readReg .capIn s = (s.capIn, s) ∧ readReg .capOut s = (s.capOut, s) ∧
    readReg .capBits s = (s.capBits, s) ∧ readReg .cmd s = (s.cmd, s) ∧ readReg .err s = (s.err, s) ∧
    readReg .errInfo s = (s.errInfo, s) ∧ readReg .inLen s = (s.inLen, s) ∧
    readReg .irqEn s = (BitVec.ofNat 64 (s.doneIe.toNat + 2 * s.errIe.toNat), s)) ∧
  (∀ s : State, s.busy = false →
    readReg .outLen s = (s.outLen, s) ∧ readReg .symbolCount s = (s.symbolCount, s) ∧
    readReg .bitLength s = (s.bitLength, s) ∧ readReg .hcWidth s = (s.hcWidth, s) ∧
    readReg .nodeCount s = (s.nodeCount, s) ∧ readReg .statOrig s = (s.statOrig, s) ∧
    readReg .statBits s = (s.statBits, s) ∧ readReg .statContainer s = (s.statContainer, s)) ∧
  (∀ (s : State) (v : Word), s.busy = false → hostWrite 0x048#64 8 v s = (.written, { s with inLen := v }))

/-- An offset of the IN window (20_memory.md R71). -/
def Sys2Proof.Machine.inWindow (s : State) (o : Word) : Prop :=
  0x1000000000000000 ≤ o.toNat ∧ o.toNat < 0x1000000000000000 + s.capIn.toNat

/-- An offset of the OUT window (20_memory.md R71). -/
def Sys2Proof.Machine.outWindow (s : State) (o : Word) : Prop :=
  0x2000000000000000 ≤ o.toNat ∧ o.toNat < 0x2000000000000000 + s.capOut.toNat

/-- 60_exceptions.md R265 (a) to (c): no window, or a width or alignment that the window does not take. -/
def Sys2Proof.Machine.badAccess (s : State) (o : Word) (w : Nat) : Prop :=
  (0x1000 ≤ o.toNat ∧ ¬inWindow s o ∧ ¬outWindow s o) ∨ (o.toNat < 0x1000 ∧ (w ≠ 8 ∨ o.toNat % 8 ≠ 0)) ∨
    ((inWindow s o ∨ outWindow s o) ∧ w ≠ 1)

/-- 60_exceptions.md R265: exactly these accesses get a bus error, and an access that gets one changes no state; writes to
read-only registers and to reserved offsets are ignored. -/
def Obligations.BusErrors : Prop :=
  ∀ (s : State), CapsLegal s → ∀ (o : Word) (w : Nat) (d : Word),
    ((hostRead o w s).1 = .busError ↔ badAccess s o w) ∧
    ((hostWrite o w d s).1 = .busError ↔ badAccess s o w ∨ outWindow s o ∨
      (s.busy = true ∧ (inWindow s o ∨ o.toNat = 0x048))) ∧
    ((hostRead o w s).1 = .busError → (hostRead o w s).2 = s) ∧
    ((hostWrite o w d s).1 = .busError → (hostWrite o w d s).2 = s) ∧
    (∀ p ∈ registerTable, p.2.2 = true → hostWrite (BitVec.ofNat 64 p.1) 8 d s = (.written, s)) ∧
    (0x118 ≤ o.toNat → o.toNat ≤ 0xFF8 → o.toNat % 8 = 0 → hostWrite o 8 d s = (.written, s))

/-- 20_memory.md R76: a HOST read has no side effect (the model's count of free values apart, log 18), and while BUSY = 0 a
second read gives the same answer. -/
def Obligations.ReadsHaveNoEffect : Prop :=
  ∀ (s : State) (o : Word) (w : Nat),
    (∃ n, (hostRead o w s).2 = { s with draws := n }) ∧
    (s.busy = false → (hostRead o w s).2 = s ∧ hostRead o w (hostRead o w s).2 = hostRead o w s)

/-- 20_memory.md R74, HOST's part: any IN_MEM byte is read at any time; it is written while BUSY = 0, and then that byte alone
changes; a write while BUSY = 1 gets a bus error and changes nothing. That a write takes the low 8 bits of its data is the
model's inference (log 19), and the canonical form of a memory is the model's own (log 4). -/
def Obligations.InMemAccess : Prop :=
  ∀ (s : State), CapsLegal s → ∀ (a : Nat), a < s.capIn.toNat → ∀ d : Word,
    let o := BitVec.ofNat 64 (0x1000000000000000 + a)
    (hostRead o 1 s = (.byte (readIn s a), s)) ∧
    (s.busy = false → ∃ t, hostWrite o 1 d s = (.written, t) ∧ readIn t a = d.setWidth 8 ∧
      (∀ x, x ≠ a → readIn t x = readIn s x) ∧ t = { s with inMem := t.inMem } ∧ (Memory.wf s.inMem → Memory.wf t.inMem)) ∧
    (s.busy = true → hostWrite o 1 d s = (.busError, s))

/-- 20_memory.md R75, HOST's part: OUT_MEM is read while BUSY = 0 as last written; a HOST write gets a bus error. -/
def Obligations.OutMemAccess : Prop :=
  ∀ (s : State), CapsLegal s → ∀ (a : Nat), a < s.capOut.toNat → 0x2000000000000000 + a < 2 ^ 64 → ∀ d : Word,
    let o := BitVec.ofNat 64 (0x2000000000000000 + a)
    (s.busy = false → ∀ b, s.outMem.read a = some b → hostRead o 1 s = (.byte b, s)) ∧
    hostWrite o 1 d s = (.busError, s)

/-- 70_reset_and_hazards.md R321, the registers and bytes that keep their values while BUSY = 1. -/
def Obligations.BusyReads : Prop :=
  ∀ s : State, Inv s → s.busy = true →
    readReg .id s = (0x4855464D00070001#64, s) ∧ readReg .capIn s = (s.capIn, s) ∧ readReg .capOut s = (s.capOut, s) ∧
    readReg .capBits s = (s.capBits, s) ∧ readReg .cmd s = (s.cmd, s) ∧ readReg .inLen s = (s.inLen, s) ∧
    readReg .err s = (0#64, s) ∧ readReg .errInfo s = (0#64, s) ∧
    readReg .irqEn s = (BitVec.ofNat 64 (s.doneIe.toNat + 2 * s.errIe.toNat), s) ∧
    readReg .lsel s = (s.lsel.setWidth 64, s) ∧ readReg .ssel s = (s.ssel.setWidth 64, s) ∧
    readReg .nsel s = (s.nsel.setWidth 64, s) ∧ readReg .bsel s = (s.bsel, s) ∧ readReg .psel s = (s.psel, s) ∧
    ((readReg .status s).1.getLsbD 0 = true ∧ (readReg .status s).1.getLsbD 1 = false ∧
      (readReg .status s).1.getLsbD 2 = false ∧ (readReg .status s).1.getLsbD 3 = s.overrun ∧
      (readReg .status s).1.getLsbD 4 = false) ∧
    (∀ a, a < s.capIn.toNat →
      hostRead (BitVec.ofNat 64 (0x1000000000000000 + a)) 1 s = (.byte (readIn s a), s))

/-- 70_reset_and_hazards.md R320, 10_state.md R46: what HOST can change while BUSY = 1: OVERRUN, DONE and ERROR, the enables and
the selectors, which take what is written at once; never the command word, its inputs or anything a command reads or writes. -/
def Obligations.BusyWritesRaceNothing : Prop :=
  ∀ (s : State), s.busy = true → ∀ (o : Word) (w : Nat) (d : Word),
    let t := (hostWrite o w d s).2
    (t = { s with
      overrun := t.overrun, done := t.done, error := t.error, doneIe := t.doneIe, errIe := t.errIe, lsel := t.lsel
      ssel := t.ssel, nsel := t.nsel, bsel := t.bsel, psel := t.psel }) ∧
    (inWindow s o ∨ o.toNat = 0x048 → hostWrite o w d s = (.busError, s)) ∧
    (hostWrite 0x020#64 8 d s = (.written, { s with overrun := true })) ∧
    (hostWrite 0x040#64 8 d s = (.written, { s with doneIe := d.getLsbD 0, errIe := d.getLsbD 1 })) ∧
    (hostWrite 0x028#64 8 d s = (.written, { s with
      done := s.done && !d.getLsbD 1, error := s.error && !d.getLsbD 2, overrun := s.overrun && !d.getLsbD 3 })) ∧
    (hostWrite 0x090#64 8 d s = (.written, { s with lsel := d.extractLsb' 0 8 })) ∧
    (hostWrite 0x0A8#64 8 d s = (.written, { s with ssel := d.extractLsb' 0 8 })) ∧
    (hostWrite 0x0E0#64 8 d s = (.written, { s with nsel := d.extractLsb' 0 9 })) ∧
    (hostWrite 0x0F8#64 8 d s = (.written, { s with bsel := d })) ∧
    (hostWrite 0x108#64 8 d s = (.written, { s with psel := d })) ∧
    (∀ p ∈ registerTable, p.2.2 = true → hostWrite (BitVec.ofNat 64 p.1) 8 d s = (.written, s)) ∧
    (0x118 ≤ o.toNat → o.toNat ≤ 0xFF8 → o.toNat % 8 = 0 → hostWrite o 8 d s = (.written, s))

/-- 10_state.md R40. -/
def Obligations.ListWindow : Prop :=
  ∀ s : State, Inv s → s.busy = false →
    (∀ v : Word, hostWrite 0x090#64 8 v s = (.written, { s with lsel := v.extractLsb' 0 8 })) ∧
    hostRead 0x090#64 8 s = (.word (s.lsel.setWidth 64), s) ∧
    (s.slistV = true → s.lsel.toNat < s.symbolCount.toNat → ∃ e, s.slist[s.lsel.toNat]? = some e ∧
      hostRead 0x098#64 8 s = (.word (e.sym.setWidth 64), s) ∧ hostRead 0x0A0#64 8 s = (.word e.cnt, s)) ∧
    (¬(s.slistV = true ∧ s.lsel.toNat < s.symbolCount.toNat) →
      hostRead 0x098#64 8 s = (.word 0#64, s) ∧ hostRead 0x0A0#64 8 s = (.word 0#64, s))

/-- 10_state.md R41 and R42: SYM_FREQ, and the code of the selected symbol with its first bit least significant. -/
def Obligations.SymbolWindow : Prop :=
  ∀ s : State, Inv s → s.busy = false →
    (∀ v : Word, hostWrite 0x0A8#64 8 v s = (.written, { s with ssel := v.extractLsb' 0 8 })) ∧
    hostRead 0x0A8#64 8 s = (.word (s.ssel.setWidth 64), s) ∧
    (s.slistV = true → ∃ c, s.freq[s.ssel.toNat]? = some c ∧ hostRead 0x0B0#64 8 s = (.word c, s)) ∧
    (s.slistV = false → hostRead 0x0B0#64 8 s = (.word 0#64, s)) ∧
    (s.cbV = true → ∃ code, s.cb[s.ssel.toNat]? = some code ∧
      hostRead 0x0B8#64 8 s = (.word (BitVec.ofNat 64 code.length), s) ∧
      ∀ w < 4, ∃ v : Word, hostRead (BitVec.ofNat 64 (0x0C0 + 8 * w)) 8 s = (.word v, s) ∧
        ∀ b < 64, v.getLsbD b = code.getD (64 * w + b) false) ∧
    (s.cbV = false → ∀ w < 5, hostRead (BitVec.ofNat 64 (0x0B8 + 8 * w)) 8 s = (.word 0#64, s))

/-- 10_state.md R43. -/
def Obligations.NodeWindow : Prop :=
  ∀ s : State, Inv s → s.busy = false →
    (∀ v : Word, hostWrite 0x0E0#64 8 v s = (.written, { s with nsel := v.extractLsb' 0 9 })) ∧
    hostRead 0x0E0#64 8 s = (.word (s.nsel.setWidth 64), s) ∧
    (s.treeV = true → s.nsel.toNat < s.nodeCount.toNat → ∃ info : Word,
      hostRead 0x0E8#64 8 s = (.word info, s) ∧
      ((∃ sym f, s.nodes[s.nsel.toNat]? = some (.leaf sym f) ∧ hostRead 0x0F0#64 8 s = (.word f, s) ∧
          info = BitVec.ofNat 64 (sym.toNat * 2 ^ 8)) ∨
        (∃ a b f, s.nodes[s.nsel.toNat]? = some (.branch a b f) ∧ hostRead 0x0F0#64 8 s = (.word f, s) ∧
          info = BitVec.ofNat 64 (1 + a.toNat * 2 ^ 16 + b.toNat * 2 ^ 32)))) ∧
    (¬(s.treeV = true ∧ s.nsel.toNat < s.nodeCount.toNat) →
      hostRead 0x0E8#64 8 s = (.word 0#64, s) ∧ hostRead 0x0F0#64 8 s = (.word 0#64, s))

/-- 10_state.md R44 and R45: the stream and payload windows. -/
def Obligations.StreamWindows : Prop :=
  ∀ s : State, s.busy = false →
    (∀ v : Word, hostWrite 0x0F8#64 8 v s = (.written, { s with bsel := v })) ∧
    (∀ v : Word, hostWrite 0x108#64 8 v s = (.written, { s with psel := v })) ∧
    hostRead 0x0F8#64 8 s = (.word s.bsel, s) ∧ hostRead 0x108#64 8 s = (.word s.psel, s) ∧
    (∃ v : Word, hostRead 0x100#64 8 s = (.word v, s) ∧ ∀ b < 64, v.getLsbD b =
      if s.bitsV = true ∧ 64 * s.bsel.toNat + b < s.bitLength.toNat then bitAt s (64 * s.bsel.toNat + b) else false) ∧
    (∃ v : Word, hostRead 0x110#64 8 s = (.word v, s) ∧ ∀ k < 8, v.extractLsb' (8 * k) 8 =
      if s.payloadV = true ∧ 8 * s.psel.toNat + k < ceil8 s.bitLength.toNat then payloadAt s (8 * s.psel.toNat + k)
      else 0#8)

/-! ### Reset -/

/-- What 10_state.md R60 says of the state after reset, for a block with these capacities. -/
def Sys2Proof.Machine.ResetState (t : State) : Prop :=
  (readReg .id t).1 = 0x4855464D00070001#64 ∧ (readReg .capIn t).1 = t.capIn ∧ (readReg .capOut t).1 = t.capOut ∧
  (readReg .capBits t).1 = t.capBits ∧
  (∀ r : Reg, r ∉ [.id, .capIn, .capOut, .capBits] → readReg r t = (0#64, t)) ∧
  t.busy = false ∧ irq t = false ∧ t.inMem = [] ∧ t.outMem = []

/-- 10_state.md R60; 70_reset_and_hazards.md R300: the state after a release of reset, and the state the model starts in,
whose capacities are the model's choice (log 7). That a memory without specified bytes lists nothing is the model's form of
it (logs 4 and 5). -/
def Obligations.ResetValues : Prop :=
  ResetState State.reset ∧
  ∀ (s : State) (rest : List HostOp), s.busy = false → s.resetAsserted = true → s.inputs = .releaseReset :: rest →
    ∃ t, step s = .next t ∧ ResetState t ∧ t.resetAsserted = false ∧ t.inputs = rest ∧
      t.capIn = s.capIn ∧ t.capOut = s.capOut ∧ t.capBits = s.capBits

/-- 70_reset_and_hazards.md R301: reset takes precedence over every other event, and abandons a running command. -/
def Obligations.ResetAbandons : Prop :=
  ∀ (s : State) (rest : List HostOp), s.inputs = .assertReset :: rest →
    ∃ t, step s = .next t ∧ t.resetAsserted = true ∧ t.busy = false ∧ t.done = false ∧ t.error = false ∧ irq t = false ∧
      ResetState t ∧ t.capIn = s.capIn ∧ t.capOut = s.capOut ∧ t.capBits = s.capBits

/-- 70_reset_and_hazards.md R300: while reset is asserted the block takes no HOST access and runs no command. What the platform
answers then is open; the model answers "not taken" (log 10). -/
def Obligations.ResetTakesNoAccess : Prop :=
  ∀ (s : State), Inv s → s.resetAsserted = true →
    engineMoves s = false ∧
    ∀ op rest, s.inputs = op :: rest → op ≠ .assertReset → op ≠ .releaseReset →
      step s = .next { s with inputs := rest, replies := .notTaken :: s.replies }

/-! ### FREQ -/

/-- 40_frequency.md R140: FREQ counts the input bytes and lists the symbols that occur in the order of R141, or ends with
CAPACITY_ERROR.IN_LEN and changes nothing else. -/
def Obligations.FreqCountsTheInput : Prop :=
  decode 0x001#64 = .command .freq ∧
  ∀ s : State,
    (s.capIn.toNat < s.inLen.toNat → exec .freq s = .next (s.failed 0x01010103#64 s.inLen)) ∧
    (s.inLen.toNat ≤ s.capIn.toNat → ∃ (table : List Word) (list : List Entry) (n : Word),
      exec .freq s = .next { s.succeeded with
        freq := table, slist := list, symbolCount := n
        slistV := true, treeV := false, cbV := false, bitsV := false, payloadV := false } ∧
      table.length = 256 ∧ (∀ b : Byte, table[b.toNat]? = some (BitVec.ofNat 64 ((inBytes s).count b))) ∧
      (∀ e : Entry, e ∈ list ↔ 0 < (inBytes s).count e.sym ∧ e.cnt = BitVec.ofNat 64 ((inBytes s).count e.sym)) ∧
      list.Pairwise (fun x y => x.cnt.toNat < y.cnt.toNat ∨ (x.cnt = y.cnt ∧ x.sym.toNat < y.sym.toNat)) ∧
      n.toNat = list.length)

/-- 40_frequency.md R142: the counts sum to IN_LEN, SYMBOL_COUNT is the number of distinct bytes, every count is at least 1,
and the result depends only on how often each byte occurs. -/
def Obligations.FreqProperties : Prop :=
  ∀ s t : State, s.inLen.toNat ≤ s.capIn.toNat → exec .freq s = .next t →
    sumCounts t.slist = s.inLen.toNat ∧ t.symbolCount.toNat = (inBytes s).dedup.length ∧ t.symbolCount.toNat ≤ 256 ∧
    (∀ e ∈ t.slist, 1 ≤ e.cnt.toNat) ∧
    (∀ s' t' : State, s'.inLen.toNat ≤ s'.capIn.toNat → (inBytes s').Perm (inBytes s) → exec .freq s' = .next t' →
      t'.slist = t.slist ∧ t'.freq = t.freq ∧ t'.symbolCount = t.symbolCount)

/-! ### BUILD -/

/-- 41_tree.md R152, R155: from a list in good order (10_state.md R39 (a)) both variants of BUILD write BuildTree(SLIST); with no
list both end with SEQUENCE_ERROR.NO_SLIST and change nothing else. -/
def Obligations.BuildWritesTheTree : Prop :=
  decode 0x002#64 = .command .build ∧ decode 0x102#64 = .command .buildH ∧
  ∀ s : State, ∀ i ∈ [Instr.build, Instr.buildH],
    (s.slistV = false → exec i s = .next (s.failed 0x02020102#64 0#64)) ∧
    (s.slistV = true → ListOk s.slist → exec i s = .next { s.succeeded with
      nodes := buildTree s.slist
      nodeCount := BitVec.ofNat 64 (if s.slist.length = 0 then 0 else 2 * s.slist.length - 1)
      treeV := true, cbV := false })

/-- 41_tree.md R151, and of R157 the root's frequency: the leaves come first, in list order; each merge takes the least available node as its first child
and the least of the others as its second, and a branch's frequency is their sum; the root, the last node, has the sum of
all counts. -/
def Obligations.MergeTakesTheTwoLeast : Prop :=
  ∀ es : List Entry, ListOk es → es.length ≤ 256 →
    (es = [] → buildTree es = []) ∧
    (es ≠ [] →
      (buildTree es).length = 2 * es.length - 1 ∧
      (∀ i (h : i < es.length), (buildTree es)[i]? = some (.leaf es[i].sym es[i].cnt)) ∧
      (∀ k, k + 1 < es.length → ∃ a b f, (buildTree es)[es.length + k]? = some (.branch a b f) ∧
        Available (buildTree es) es.length k a.toNat ∧ Available (buildTree es) es.length k b.toNat ∧ a ≠ b ∧
        (∀ x, Available (buildTree es) es.length k x → x ≠ a.toNat → Precedes (buildTree es) a.toNat x) ∧
        (∀ x, Available (buildTree es) es.length k x → x ≠ a.toNat → x ≠ b.toNat → Precedes (buildTree es) b.toNat x) ∧
        f.toNat = nodeFreq (buildTree es) a.toNat + nodeFreq (buildTree es) b.toNat) ∧
      nodeFreq (buildTree es) (2 * es.length - 2) = sumCounts es)

/-- 41_tree.md R155: the two variants write the identical node store. For every list in good order the merges of the two queues
and of the heap are BuildTree's; and from every state with SLIST_V = 1 BUILD and BUILD.H leave the same state, whose
NODE_COUNT is the number of BuildTree's nodes. -/
def Obligations.VariantsAgree : Prop :=
  (∀ es : List Entry, ListOk es → buildTwoQueue es = buildHeap es ∧ buildHeap es = buildTree es) ∧
  (∀ s : State, Inv s → s.slistV = true → ∃ t, exec .build s = .next t ∧ exec .buildH s = .next t ∧
    t.nodes = buildTree s.slist ∧ t.nodeCount.toNat = (buildTree s.slist).length)

/-! ### CODEBOOK -/

/-- 42_codebook.md R171 with R170: CODEBOOK gives each symbol of the list the path from the root to its leaf, first child 0;
a sole symbol gets the one bit 0; every other symbol has no code; with no tree it ends with SEQUENCE_ERROR.NO_TREE and
changes nothing else. -/
def Obligations.CodebookFollowsTheTree : Prop :=
  decode 0x003#64 = .command .codebook ∧
  (∀ s : State, s.treeV = false → exec .codebook s = .next (s.failed 0x03030202#64 0#64)) ∧
  (∀ s : State, Inv s → s.treeV = true → ∃ cb : List (List Bool),
    exec .codebook s = .next { s.succeeded with cb := cb, cbV := true } ∧ cb.length = 256 ∧
    (∀ b : Byte, (∀ e ∈ s.slist, e.sym ≠ b) → cb[b.toNat]? = some []) ∧
    (s.slist.length = 1 → ∀ e ∈ s.slist, cb[e.sym.toNat]? = some [false]) ∧
    (2 ≤ s.slist.length → ∀ e ∈ s.slist, ∃ (code : List Bool) (x : Nat), cb[e.sym.toNat]? = some code ∧
      follow s.nodes (s.nodeCount.toNat - 1) code = some x ∧ s.nodes[x]? = some (.leaf e.sym e.cnt)))

/-- 42_codebook.md R172: the code lengths. -/
def Obligations.CodeLengths : Prop :=
  ∀ s : State, Inv s → s.cbV = true →
    (2 ≤ s.symbolCount.toNat → ∀ e ∈ s.slist,
      1 ≤ (codeIn s.cb e.sym).length ∧ (codeIn s.cb e.sym).length ≤ s.symbolCount.toNat - 1) ∧
    (s.symbolCount.toNat = 1 → ∀ e ∈ s.slist, (codeIn s.cb e.sym).length = 1) ∧
    (∀ b : Byte, (∀ e ∈ s.slist, e.sym ≠ b) → (codeIn s.cb b).length = 0) ∧
    (∀ b : Byte, (codeIn s.cb b).length ≤ 255)

/-- 42_codebook.md R173: the codes are prefix-free and, for two or more symbols, complete: the sum of 2^(-len), here times
2^255, is 1. -/
def Obligations.PrefixFree : Prop :=
  ∀ s : State, Inv s → s.cbV = true →
    (∀ b c : Byte, b ≠ c → 0 < (codeIn s.cb b).length → 0 < (codeIn s.cb c).length →
      ¬ codeIn s.cb b <+: codeIn s.cb c) ∧
    (2 ≤ s.symbolCount.toNat → (s.slist.map fun e => 2 ^ (255 - (codeIn s.cb e.sym).length)).sum = 2 ^ 255)

/-- 41_tree.md R159: no prefix-free code for the symbols of the list has a shorter stream than the codebook's. -/
def Obligations.CodebookIsOptimal : Prop :=
  ∀ s : State, Inv s → s.cbV = true → 2 ≤ s.symbolCount.toNat →
    ∀ code : Byte → List Bool,
      (∀ e ∈ s.slist, ∀ f ∈ s.slist, e.sym ≠ f.sym → ¬ code e.sym <+: code f.sym) →
      (s.slist.map fun e => e.cnt.toNat * (codeIn s.cb e.sym).length).sum ≤
        (s.slist.map fun e => e.cnt.toNat * (code e.sym).length).sum

/-! ### CODE -/

/-- 42_codebook.md R174: CODE writes the concatenated codes of the input bytes to BITBUF and their length to BIT_LENGTH; its four
errors come in the order of the rule, and each changes nothing else. -/
def Obligations.CodeWritesTheStream : Prop :=
  decode 0x004#64 = .command .code ∧
  ∀ s : State,
    (s.cbV = false → exec .code s = .next (s.failed 0x04040302#64 0#64)) ∧
    (s.cbV = true → s.capIn.toNat < s.inLen.toNat → exec .code s = .next (s.failed 0x04040103#64 s.inLen)) ∧
    (∀ a, s.cbV = true → s.inLen.toNat ≤ s.capIn.toNat → a < s.inLen.toNat → codeOf s (readIn s a) = [] →
      (∀ x < a, codeOf s (readIn s x) ≠ []) →
      exec .code s = .next (s.failed 0x04040602#64 (BitVec.ofNat 64 a))) ∧
    (s.cbV = true → s.inLen.toNat ≤ s.capIn.toNat → (∀ a < s.inLen.toNat, codeOf s (readIn s a) ≠ []) →
      let stream := (inBytes s).flatMap (codeOf s)
      (s.capBits.toNat < stream.length →
        exec .code s = .next (s.failed 0x04040203#64 (BitVec.ofNat 64 stream.length))) ∧
      (stream.length ≤ s.capBits.toNat → ∃ buf : List Bool,
        exec .code s = .next { s.succeeded with
          bitbuf := buf, bitLength := BitVec.ofNat 64 stream.length, bitsV := true, payloadV := false } ∧
        (∀ j < stream.length, buf[j]? = stream[j]?) ∧ (∀ j, stream.length ≤ j → buf[j]? = s.bitbuf[j]?)))

/-- 42_codebook.md R175: with the list of the same input, the stream is as long as the counts times the code lengths, and as
long as the input if there is one symbol. -/
def Obligations.StreamLength : Prop :=
  ∀ s : State, Inv s → s.cbV = true → s.slist = freqList (inBytes s) →
    ((inBytes s).flatMap (codeIn s.cb)).length =
      (s.slist.map fun e => e.cnt.toNat * (codeIn s.cb e.sym).length).sum ∧
    (s.symbolCount.toNat = 1 → ((inBytes s).flatMap (codeIn s.cb)).length = s.inLen.toNat)

/-! ### PACK and UNPACK -/

/-- 43_bitpack.md R192, with the bit order of R190: stream bit j goes to bit j mod 8 of payload byte j div 8, and the padding is 0.
With no stream PACK ends with SEQUENCE_ERROR.NO_BITS and changes nothing else. -/
def Obligations.PackWritesThePayload : Prop :=
  decode 0x005#64 = .command .pack ∧
  ∀ s : State,
    (s.bitsV = false → exec .pack s = .next (s.failed 0x05050402#64 0#64)) ∧
    (s.bitsV = true → ∃ buf : List Byte,
      exec .pack s = .next { s.succeeded with payload := buf, payloadV := true } ∧
      (∀ k < ceil8 s.bitLength.toNat, ∀ q < 8, (buf.getD k 0#8).getLsbD q =
        if 8 * k + q < s.bitLength.toNat then bitAt s (8 * k + q) else false) ∧
      ceil8 s.bitLength.toNat ≤ buf.length ∧
      (∀ k, ceil8 s.bitLength.toNat ≤ k → buf[k]? = s.payload[k]?))

/-- 43_bitpack.md R193, with the bit order of R191: stream bit j is bit j mod 8 of payload byte j div 8; padding is not read. With
no payload UNPACK ends with SEQUENCE_ERROR.NO_PAYLOAD and changes nothing else. -/
def Obligations.UnpackWritesTheStream : Prop :=
  decode 0x012#64 = .command .unpack ∧
  ∀ s : State,
    (s.payloadV = false → exec .unpack s = .next (s.failed 0x12120502#64 0#64)) ∧
    (s.payloadV = true → ∃ buf : List Bool,
      exec .unpack s = .next { s.succeeded with bitbuf := buf, bitsV := true } ∧
      (∀ j < s.bitLength.toNat, buf[j]? = some ((payloadAt s (j / 8)).getLsbD (j % 8))) ∧
      (∀ j, s.bitLength.toNat ≤ j → buf[j]? = s.bitbuf[j]?))

/-- 43_bitpack.md R194 (a) to (c). -/
def Obligations.PackUnpackLaws : Prop :=
  (∀ bits : List Bool, unpack (pack bits) bits.length = bits ∧ (pack bits).length = ceil8 bits.length) ∧
  (∀ (p : List Byte) (b : Nat), p.length = ceil8 b →
    (∀ k < p.length, ∀ q < 8, ((pack (unpack p b)).getD k 0#8).getLsbD q =
      (decide (8 * k + q < b) && (p.getD k 0#8).getLsbD q)) ∧
    ((∀ k < p.length, ∀ q < 8, b ≤ 8 * k + q → (p.getD k 0#8).getLsbD q = false) → pack (unpack p b) = p))

/-! ### SERIALIZE and PARSE -/

/-- 44_container.md R200, R201: SERIALIZE writes the container's bytes to OUT_MEM from byte 0 on and nothing above them, and their
number and the width of the counts; its three errors come in order and change nothing else. -/
def Obligations.SerializeWritesTheContainer : Prop :=
  decode 0x006#64 = .command .serialize ∧
  ∀ s : State,
    (s.slistV = false → exec .serialize s = .next (s.failed 0x06060102#64 0#64)) ∧
    (s.slistV = true → s.payloadV = false → exec .serialize s = .next (s.failed 0x06060502#64 0#64)) ∧
    (s.slistV = true → s.payloadV = true →
      let n := s.slist.length
      let b := s.bitLength.toNat
      let w := minWidth (maxCount s.slist)
      let len := 17 + n + n * w + ceil8 b
      let bytes := bigEndian 8 n ++ bigEndian 8 b ++ [BitVec.ofNat 8 w] ++ s.slist.map (·.sym) ++
        s.slist.flatMap (fun e => bigEndian w e.cnt.toNat) ++ payloadOf s
      (s.capOut.toNat < len → exec .serialize s = .next (s.failed 0x06060303#64 (BitVec.ofNat 64 len))) ∧
      (len ≤ s.capOut.toNat → ∃ mem : Memory,
        exec .serialize s = .next { s.succeeded with
          outMem := mem, outLen := BitVec.ofNat 64 len, hcWidth := BitVec.ofNat 64 w } ∧
        bytes.length = len ∧ (∀ a < len, mem.read a = bytes[a]?) ∧ (∀ a, len ≤ a → mem.read a = s.outMem.read a)))

/-- 44_container.md R202, R203 with 30_encoding.md R119: the width is the smallest of 1, 2, 4 and 8 that holds the largest count,
so every count, and the header's two 8-byte fields, are read back as they were written. The byte order is 00_scope.md R8's
(20_memory.md R77): the most significant byte first. The largest count is one of the counts, 0 for the empty list. -/
def Obligations.WidthBoundaries : Prop :=
  (∀ m : Nat, (m ≤ 255 → minWidth m = 1) ∧ (256 ≤ m → m ≤ 65535 → minWidth m = 2) ∧
    (65536 ≤ m → m ≤ 4294967295 → minWidth m = 4) ∧ (4294967296 ≤ m → minWidth m = 8)) ∧
  (∀ (es : List Entry) (e : Entry), e ∈ es →
    e.cnt.toNat ≤ maxCount es ∧ e.cnt.toNat < 2 ^ (8 * minWidth (maxCount es)) ∧
    unBigEndian (bigEndian (minWidth (maxCount es)) e.cnt.toNat) = e.cnt.toNat) ∧
  (∀ v : Word, unBigEndian (bigEndian 8 v.toNat) = v.toNat) ∧
  (∀ w v : Nat, (bigEndian w v).length = w ∧
    ∀ i < w, ∃ b : Byte, (bigEndian w v)[i]? = some b ∧ b.toNat = v / 256 ^ (w - 1 - i) % 256) ∧
  (∀ es : List Entry, (es = [] ∧ maxCount es = 0) ∨ ∃ e ∈ es, e.cnt.toNat = maxCount es)

/-- 44_container.md R206, R207: PARSE makes its nine checks in order over the bytes of IN_MEM; the first that fails is recorded
with its detail and nothing else changes; when all pass, it writes the list, its mirror in FREQ, the header's fields and the
payload. -/
def Obligations.ParseChecksAndWrites : Prop :=
  decode 0x011#64 = .command .parse ∧
  ∀ s : State,
    let N := s.inLen.toNat
    let d := readIn s
    let n := unBigEndian (bytesAt d 0 8)
    let b := unBigEndian (bytesAt d 8 8)
    let w := (d 16).toNat
    let sym := fun i => d (17 + i)
    let cnt := fun i => unBigEndian (bytesAt d (17 + n + i * w) w)
    let S := 17 + n + n * w
    let T := S + ceil8 b
    let dup := fun i => ∃ j < i, sym j = sym i
    let ordered := fun i => cnt (i - 1) < cnt i ∨ (cnt (i - 1) = cnt i ∧ (sym (i - 1)).toNat < (sym i).toNat)
    let goodEntry := fun i => ¬dup i ∧ (i = 0 ∨ ordered i)
    let sum := ((List.range n).map cnt).sum
    (s.capIn.toNat < N → exec .parse s = .next (s.failed 0x11110103#64 s.inLen)) ∧
    (N ≤ s.capIn.toNat →
      (N < 17 → exec .parse s = .next (s.failed 0x11110104#64 s.inLen)) ∧
      (17 ≤ N →
        (w ∉ [1, 2, 4, 8] → exec .parse s = .next (s.failed 0x11110204#64 (BitVec.ofNat 64 w))) ∧
        (w ∈ [1, 2, 4, 8] →
          (256 < n → exec .parse s = .next (s.failed 0x11110304#64 (BitVec.ofNat 64 n))) ∧
          (n ≤ 256 →
            (N < S → exec .parse s = .next (s.failed 0x11110404#64 (BitVec.ofNat 64 S))) ∧
            (S ≤ N →
              (N < T → exec .parse s = .next (s.failed 0x11110504#64 (BitVec.ofNat 64 T))) ∧
              (T ≤ N →
                (∀ i < n, (∀ j < i, goodEntry j) → dup i →
                  exec .parse s = .next (s.failed 0x11110604#64 (BitVec.ofNat 64 i))) ∧
                (∀ i < n, (∀ j < i, goodEntry j) → ¬dup i → i ≠ 0 → ¬ordered i →
                  exec .parse s = .next (s.failed 0x11110704#64 (BitVec.ofNat 64 i))) ∧
                ((∀ i < n, goodEntry i) →
                  (2 ^ 64 ≤ sum → exec .parse s = .next (s.failed 0x11110403#64 0#64)) ∧
                  (sum < 2 ^ 64 → s.capBits.toNat < b →
                    exec .parse s = .next (s.failed 0x11110203#64 (BitVec.ofNat 64 b))) ∧
                  (sum < 2 ^ 64 → b ≤ s.capBits.toNat →
                    ∃ (list : List Entry) (table : List Word) (pay : List Byte),
                      exec .parse s = .next { s.succeeded with
                        slist := list, freq := table, payload := pay
                        symbolCount := BitVec.ofNat 64 n, bitLength := BitVec.ofNat 64 b, hcWidth := BitVec.ofNat 64 w
                        slistV := true, payloadV := true, treeV := false, cbV := false, bitsV := false } ∧
                      list.length = n ∧
                      (∀ i < n, list[i]? = some { sym := sym i, cnt := BitVec.ofNat 64 (cnt i) }) ∧
                      table.length = 256 ∧
                      (∀ i < n, table[(sym i).toNat]? = some (BitVec.ofNat 64 (cnt i))) ∧
                      (∀ c : Byte, (∀ i < n, sym i ≠ c) → table[c.toNat]? = some 0#64) ∧
                      (∀ k < ceil8 b, pay[k]? = some (d (S + k))) ∧
                      (∀ k, ceil8 b ≤ k → pay[k]? = s.payload[k]?)))))))))

/-- 44_container.md R208: PARSE of what SERIALIZE wrote, then SERIALIZE, writes the same bytes; for any container in IN_MEM that
PARSE accepts, SERIALIZE writes it with the same n, B, symbols, counts and payload bytes, at the minimal width and without
trailing bytes. -/
def Obligations.ParseInvertsSerialize : Prop :=
  (∀ s t : State, Inv s → s.slistV = true → s.payloadV = true → serializeStage s = .ok t →
    ∀ u : State, u.inLen = t.outLen → u.inLen.toNat ≤ u.capIn.toNat → s.bitLength.toNat ≤ u.capBits.toNat →
      t.outLen.toNat ≤ u.capOut.toNat → (∀ a < t.outLen.toNat, readIn u a = readOut t a) →
      ∃ v w : State, exec .parse u = .next v ∧ v.slist = s.slist ∧ v.bitLength = s.bitLength ∧ payloadOf v = payloadOf s ∧
        exec .serialize v = .next w ∧ w.outLen = t.outLen ∧ ∀ a < t.outLen.toNat, readOut w a = readOut t a) ∧
  (∀ u v : State, u.done = false → exec .parse u = .next v → v.done = true →
    let d := readIn u
    let n := unBigEndian (bytesAt d 0 8)
    let b := unBigEndian (bytesAt d 8 8)
    let w := (d 16).toNat
    let cnt := fun i => unBigEndian (bytesAt d (17 + n + i * w) w)
    let width := minWidth (((List.range n).map cnt).foldl max 0)
    let out := bigEndian 8 n ++ bigEndian 8 b ++ [BitVec.ofNat 8 width] ++ bytesAt d 17 n ++
      (List.range n).flatMap (fun i => bigEndian width (cnt i)) ++ bytesAt d (17 + n + n * w) (ceil8 b)
    out.length = 17 + n + n * width + ceil8 b ∧
    (out.length ≤ u.capOut.toNat → ∃ t : State, exec .serialize v = .next t ∧ t.outLen = BitVec.ofNat 64 out.length ∧
      t.hcWidth = BitVec.ofNat 64 width ∧ ∀ a < out.length, some (readOut t a) = out[a]?))

/-! ### WALK -/

/-- 45_decoder.md R230, R231: WALK checks its prerequisites first, changing nothing else; an absent tree takes an empty stream
only; a stream of whole codes is decoded to its symbols, OUT_MEM above them keeping its bytes. -/
def Obligations.WalkDecodesTheStream : Prop :=
  decode 0x013#64 = .command .walk ∧
  (∀ s : State,
    (s.treeV = false → exec .walk s = .next (s.failed 0x13130202#64 0#64)) ∧
    (s.treeV = true → s.bitsV = false → exec .walk s = .next (s.failed 0x13130402#64 0#64)) ∧
    (s.treeV = true → s.bitsV = true → s.nodeCount = 0#64 → s.bitLength = 0#64 →
      exec .walk s = .next { s.succeeded with outLen := 0#64 }) ∧
    (s.treeV = true → s.bitsV = true → s.nodeCount = 0#64 → s.bitLength ≠ 0#64 →
      ∃ (m : Memory) (e n : Nat), exec .walk s =
        .next { s.failed 0x13130105#64 0#64 with outLen := 0#64, outMem := m, outEpoch := e, draws := n })) ∧
  (∀ s : State, Inv s → s.treeV = true → s.bitsV = true → s.nodeCount ≠ 0#64 → ∀ syms : List Byte,
    (∀ c ∈ syms, codeIn (codebookOf s.nodes s.nodeCount.toNat) c ≠ []) →
    streamOf s = syms.flatMap (codeIn (codebookOf s.nodes s.nodeCount.toNat)) → syms.length ≤ s.capOut.toNat →
    ∃ mem : Memory, exec .walk s =
        .next { s.succeeded with outMem := mem, outLen := BitVec.ofNat 64 syms.length } ∧
      (∀ a < syms.length, mem.read a = syms[a]?) ∧ (∀ a, syms.length ≤ a → mem.read a = s.outMem.read a))

/-- 45_decoder.md R231 to R233, 60_exceptions.md R267: a walk that ends inside a code, meets a 1 at a leaf root, or has no room
for a symbol fails with its detail, sets OUT_LEN to 0, leaves OUT_MEM free, and changes nothing else. -/
def Obligations.WalkErrors : Prop :=
  ∀ s : State, Inv s → s.treeV = true → s.bitsV = true → s.nodeCount ≠ 0#64 →
    let code := codeIn (codebookOf s.nodes s.nodeCount.toNat)
    let failedWalk := fun (err info : Word) => ∃ (m : Memory) (e n : Nat),
      exec .walk s = .next { s.failed err info with outLen := 0#64, outMem := m, outEpoch := e, draws := n }
    (∀ (syms : List Byte) (c : Byte) (part : List Bool), (∀ x ∈ syms, code x ≠ []) → syms.length ≤ s.capOut.toNat →
      part ≠ [] → part <+: code c → part ≠ code c → streamOf s = syms.flatMap code ++ part →
      failedWalk 0x13130305#64 s.bitLength) ∧
    (∀ (syms : List Byte) (more : List Bool), (∀ x ∈ syms, code x ≠ []) → s.symbolCount.toNat = 1 →
      syms.length ≤ s.capOut.toNat → streamOf s = syms.flatMap code ++ true :: more →
      failedWalk 0x13130205#64 (BitVec.ofNat 64 syms.length)) ∧
    (∀ (syms : List Byte) (more : List Bool), (∀ x ∈ syms, code x ≠ []) → syms.length = s.capOut.toNat + 1 →
      streamOf s = syms.flatMap code ++ more → failedWalk 0x13130303#64 s.capOut)

/-! ### The composite commands -/

/-- 46_composite.md R240, R244: ENCODE by either variant runs its six stages as one command; only three errors can occur, each
keeping what the stages before it wrote. -/
def Obligations.EncodeRunsItsStages : Prop :=
  decode 0x020#64 = .command .encode ∧ decode 0x120#64 = .command .encodeH ∧
  ∀ s : State, ∀ i ∈ [Instr.encode, Instr.encodeH],
    let bytes := inBytes s
    let list := freqList bytes
    let bits := bytes.flatMap (codeIn (codebookFor list))
    let w := minWidth (maxCount list)
    let len := 17 + list.length + list.length * w + ceil8 bits.length
    (s.capIn.toNat < s.inLen.toNat → exec i s = .next (s.failed 0x20010103#64 s.inLen)) ∧
    (s.inLen.toNat ≤ s.capIn.toNat →
      (s.capBits.toNat < bits.length →
        exec i s = .next ((analyzed s bytes).failed 0x20040203#64 (BitVec.ofNat 64 bits.length))) ∧
      (bits.length ≤ s.capBits.toNat →
        (s.capOut.toNat < len →
          exec i s = .next ((streamed (analyzed s bytes) bits).failed 0x20060303#64 (BitVec.ofNat 64 len))) ∧
        (len ≤ s.capOut.toNat → ∃ mem : Memory,
          exec i s = .next { (streamed (analyzed s bytes) bits).succeeded with
            outMem := mem, outLen := BitVec.ofNat 64 len, hcWidth := BitVec.ofNat 64 w } ∧
          (∀ a < len, mem.read a = (containerBytes list w bits.length (pack bits))[a]?) ∧
          (∀ a, len ≤ a → mem.read a = s.outMem.read a))))

/-- 46_composite.md R241, R244: DECODE by either variant runs its four stages as one command; PARSE's errors change nothing else,
and a failing walk keeps what PARSE, BUILD and UNPACK wrote, sets OUT_LEN to 0 and leaves OUT_MEM free. -/
def Obligations.DecodeRunsItsStages : Prop :=
  decode 0x021#64 = .command .decode ∧ decode 0x121#64 = .command .decodeH ∧
  ∀ s : State, ∀ i ∈ [Instr.decode, Instr.decodeH],
    (∀ r, parseContainer (readIn s) s.inLen.toNat s.capIn.toNat s.capBits.toNat = .fail r →
      exec i s = .next (s.failed (errWord 0x21#8 0x11#8 r.cause) (BitVec.ofNat 64 r.info))) ∧
    (∀ p, parseContainer (readIn s) s.inLen.toNat s.capIn.toNat s.capBits.toNat = .ok p →
      let bits := unpack p.payload p.bits
      let root := nodesFor p.entries.length - 1
      let u := { rebuilt s p with bitbuf := writePrefix bits s.bitbuf, bitsV := true }
      let failedWalk := fun (err info : Word) => ∃ (m : Memory) (e n : Nat),
        exec i s = .next { u.failed err info with outLen := 0#64, outMem := m, outEpoch := e, draws := n }
      (p.entries = [] → p.bits = 0 → exec i s = .next { u.succeeded with outLen := 0#64 }) ∧
      (p.entries = [] → p.bits ≠ 0 → failedWalk 0x21130105#64 0#64) ∧
      (p.entries ≠ [] →
        (∀ r, walkBits (buildTree p.entries) root s.capOut.toNat 0 bits ⟨root, 0, s.outMem⟩ = .fail r →
          failedWalk (errWord 0x21#8 0x13#8 r.cause) (BitVec.ofNat 64 r.info)) ∧
        (∀ w, walkBits (buildTree p.entries) root s.capOut.toNat 0 bits ⟨root, 0, s.outMem⟩ = .ok w →
          (w.node ≠ root → failedWalk 0x21130305#64 (BitVec.ofNat 64 p.bits)) ∧
          (w.node = root →
            exec i s = .next { u.succeeded with outMem := w.out, outLen := BitVec.ofNat 64 w.count }))))

/-- 46_composite.md R242, R243, SRC = 0: STATS of raw bytes by either variant leaves the list, the tree, the codebook and the three
integers, each below 2^64, and writes neither OUT_MEM nor OUT_LEN; its one error is CAPACITY_ERROR.IN_LEN. -/
def Obligations.StatsOfBytes : Prop :=
  decode 0x022#64 = .command .stats ∧ decode 0x122#64 = .command .statsH ∧
  ∀ s : State, CapsLegal s → ∀ i ∈ [Instr.stats, Instr.statsH],
    let list := freqList (inBytes s)
    let bits := (list.map fun e => e.cnt.toNat * (codeIn (codebookFor list) e.sym).length).sum
    let cont := 17 + list.length + list.length * minWidth (maxCount list) + ceil8 bits
    (s.capIn.toNat < s.inLen.toNat → exec i s = .next (s.failed 0x22010103#64 s.inLen)) ∧
    (s.inLen.toNat ≤ s.capIn.toNat →
      bits < 2 ^ 64 ∧ cont < 2 ^ 64 ∧
      exec i s = .next { (analyzed s (inBytes s)).succeeded with
        statOrig := s.inLen, statBits := BitVec.ofNat 64 bits, statContainer := BitVec.ofNat 64 cont })

/-- 46_composite.md R242, R243, SRC = 1: STATS of a container by either variant; PARSE's errors change nothing else, and a sum
above 2^64 - 1 is CAPACITY_ERROR.ARITH in STATCALC, which writes nothing. -/
def Obligations.StatsOfContainer : Prop :=
  decode 0x222#64 = .command .statsC ∧ decode 0x322#64 = .command .statsHC ∧
  ∀ s : State, ∀ i ∈ [Instr.statsC, Instr.statsHC],
    (∀ r, parseContainer (readIn s) s.inLen.toNat s.capIn.toNat s.capBits.toNat = .fail r →
      exec i s = .next (s.failed (errWord 0x22#8 0x11#8 r.cause) (BitVec.ofNat 64 r.info))) ∧
    (∀ p, parseContainer (readIn s) s.inLen.toNat s.capIn.toNat s.capBits.toNat = .ok p →
      let u := { rebuilt s p with cb := codebookFor p.entries, cbV := true }
      let bits := (p.entries.map fun e => e.cnt.toNat * (codeIn (codebookFor p.entries) e.sym).length).sum
      let cont := 17 + p.entries.length + p.entries.length * minWidth (maxCount p.entries) + ceil8 bits
      (2 ^ 64 ≤ bits ∨ 2 ^ 64 ≤ cont → exec i s = .next (u.failed 0x22220403#64 0#64)) ∧
      (bits < 2 ^ 64 → cont < 2 ^ 64 → exec i s = .next { u.succeeded with
        statOrig := BitVec.ofNat 64 (sumCounts p.entries), statBits := BitVec.ofNat 64 bits
        statContainer := BitVec.ofNat 64 cont }))

/-- 45_decoder.md R234: what ENCODE wrote, by either variant, DECODE by either variant gives back, whatever else the decoding
block holds, if its capacities take the container, the stream and the output. -/
def Obligations.RoundTrip : Prop :=
  ∀ s t u : State, ∀ i ∈ [Instr.encode, Instr.encodeH], ∀ j ∈ [Instr.decode, Instr.decodeH],
    s.done = false → exec i s = .next t → t.done = true →
    u.inLen = t.outLen → (∀ a < t.outLen.toNat, readIn u a = readOut t a) →
    u.inLen.toNat ≤ u.capIn.toNat → t.bitLength.toNat ≤ u.capBits.toNat → s.inLen.toNat ≤ u.capOut.toNat →
    ∃ v, exec j u = .next v ∧ v.done = true ∧ v.error = u.error ∧ v.outLen = s.inLen ∧
      ∀ a < s.inLen.toNat, readOut v a = readIn s a

/-- 30_encoding.md R102, 46_composite.md R245: ALG changes nothing that a command leaves. -/
def Obligations.AlgHasNoEffect : Prop :=
  ∀ s : State,
    exec .encode s = exec .encodeH s ∧ exec .decode s = exec .decodeH s ∧ exec .stats s = exec .statsH s ∧
    exec .statsC s = exec .statsHC s ∧ (ListOk s.slist → exec .build s = exec .buildH s)

/-- 46_composite.md R245: what ENCODE reports and writes is a function of its input bytes and the parameters. -/
def Obligations.EncodeIsAFunctionOfItsInput : Prop :=
  ∀ s u t v : State, inBytes u = inBytes s → u.capIn = s.capIn → u.capOut = s.capOut → u.capBits = s.capBits →
    s.done = false → s.error = false → u.done = false → u.error = false → s.err = 0#64 → u.err = 0#64 →
    s.errInfo = 0#64 → u.errInfo = 0#64 → exec .encode s = .next t → exec .encode u = .next v →
    v.done = t.done ∧ v.error = t.error ∧ v.err = t.err ∧ v.errInfo = t.errInfo ∧
    (t.done = true → v.outLen = t.outLen ∧ ∀ a < t.outLen.toNat, readOut v a = readOut t a)

/-! ### Whole-machine rules -/

/-- 10_state.md R46, 20_memory.md R81: the selectors, the enables and OVERRUN have no effect on any command. -/
def Obligations.SelectorsHaveNoEffect : Prop :=
  ∀ (i : Instr) (s t : State) (l q : Byte) (n : BitVec 9) (b p : Word) (d e o : Bool), exec i s = .next t →
    exec i { s with lsel := l, ssel := q, nsel := n, bsel := b, psel := p, doneIe := d, errIe := e, overrun := o } =
      .next { t with lsel := l, ssel := q, nsel := n, bsel := b, psel := p, doneIe := d, errIe := e, overrun := o }

/-- What no command writes: the parameters, CMD, OVERRUN, IRQ_EN, IN_LEN (10_state.md R29), the selectors and IN_MEM
(20_memory.md R74), the reset input and what HOST does; and BUSY is 0 after every command (60_exceptions.md R264). -/
def Obligations.NoCommandWritesItsInputs : Prop :=
  ∀ (i : Instr) (s t : State), exec i s = .next t →
    t.capIn = s.capIn ∧ t.capOut = s.capOut ∧ t.capBits = s.capBits ∧ t.cmd = s.cmd ∧ t.overrun = s.overrun ∧
    t.doneIe = s.doneIe ∧ t.errIe = s.errIe ∧ t.inLen = s.inLen ∧ t.lsel = s.lsel ∧ t.ssel = s.ssel ∧ t.nsel = s.nsel ∧
    t.bsel = s.bsel ∧ t.psel = s.psel ∧ t.inMem = s.inMem ∧ (∀ a, readIn t a = readIn s a) ∧
    t.resetAsserted = s.resetAsserted ∧ t.inputs = s.inputs ∧ t.replies = s.replies ∧ t.busy = false

/-- 10_state.md R30, R31, R33 to R38; 20_memory.md R75: each result register, internal memory and OUT_MEM is written only by the
commands whose stages the rules name. -/
def Obligations.ResultWriters : Prop :=
  ∀ (i : Instr) (s t : State), exec i s = .next t →
    (i ∉ [.serialize, .walk, .encode, .encodeH, .decode, .decodeH] →
      t.outLen = s.outLen ∧ t.outMem = s.outMem ∧ ∀ a, readOut t a = readOut s a) ∧
    (i ∉ [.freq, .parse, .encode, .encodeH, .decode, .decodeH, .stats, .statsH, .statsC, .statsHC] →
      t.symbolCount = s.symbolCount ∧ t.slist = s.slist ∧ t.freq = s.freq) ∧
    (i ∉ [.code, .parse, .encode, .encodeH, .decode, .decodeH, .statsC, .statsHC] → t.bitLength = s.bitLength) ∧
    (i ∉ [.serialize, .parse, .encode, .encodeH, .decode, .decodeH, .statsC, .statsHC] → t.hcWidth = s.hcWidth) ∧
    (i ∉ [.build, .buildH, .encode, .encodeH, .decode, .decodeH, .stats, .statsH, .statsC, .statsHC] →
      t.nodeCount = s.nodeCount ∧ t.nodes = s.nodes) ∧
    (i ∉ [.codebook, .encode, .encodeH, .stats, .statsH, .statsC, .statsHC] → t.cb = s.cb) ∧
    (i ∉ [.code, .unpack, .encode, .encodeH, .decode, .decodeH] → t.bitbuf = s.bitbuf) ∧
    (i ∉ [.pack, .parse, .encode, .encodeH, .decode, .decodeH, .statsC, .statsHC] → t.payload = s.payload) ∧
    (i ∉ [.stats, .statsH, .statsC, .statsHC] →
      t.statOrig = s.statOrig ∧ t.statBits = s.statBits ∧ t.statContainer = s.statContainer)

/-- 60_exceptions.md R263, R264, R267: an accepted command completes once, with DONE or with ERROR and never both; ERR names the
command's OPCODE; a stage command that fails changes nothing but BUSY, ERROR, ERR and ERR_INFO, WALK apart, which may also
set OUT_LEN to 0 and leave OUT_MEM free. -/
def Obligations.FailureFrame : Prop :=
  ∀ (i : Instr) (s t : State), s.done = false → s.error = false → exec i s = .next t →
    t.busy = false ∧ t.done = !t.error ∧
    (t.error = false → t.err = s.err ∧ t.errInfo = s.errInfo) ∧
    (t.error = true → ∃ (stage : Byte) (c : Cause), t.err = errWord i.opcode stage c) ∧
    (t.error = true → i ∈ [.freq, .build, .buildH, .codebook, .code, .pack, .serialize, .parse, .unpack] →
      t = s.failed t.err t.errInfo) ∧
    (t.error = true → i = .walk →
      t = s.failed t.err t.errInfo ∨
      t = { s.failed t.err t.errInfo with
        outLen := 0#64, outMem := t.outMem, outEpoch := t.outEpoch, draws := t.draws })

/-- 20_memory.md R81, R85: while a command runs, no step changes its word, its inputs or anything it reads or writes. -/
def Obligations.RunningCommandIsUndisturbed : Prop :=
  ∀ s t : State, s.busy = true → step s = .next t → t.busy = true →
    t = { s with
      overrun := t.overrun, done := t.done, error := t.error, doneIe := t.doneIe, errIe := t.errIe, lsel := t.lsel
      ssel := t.ssel, nsel := t.nsel, bsel := t.bsel, psel := t.psel, inputs := t.inputs, replies := t.replies
      engineDelay := t.engineDelay, draws := t.draws }

/-- The invariant holds after reset, whatever the legal capacities (10_state.md R39, R60). -/
def Obligations.InvariantHoldsAtReset : Prop :=
  Inv State.reset ∧
  ∀ (capIn capOut capBits : Word) (k : Nat), 17 ≤ capIn.toNat → capIn.toNat ≤ 2 ^ 56 → 17 ≤ capOut.toNat →
    Inv (State.atReset capIn capOut capBits k)

/-- Every step keeps the invariant: 10_state.md R39 (a) to (e), R24, R34, R35; 60_exceptions.md R261; the canonical form of the
memories; the legal capacities. The canonical form (log 4), the sequencing fields (log 15) and the counters of free values
(log 18) are the model's own. -/
def Obligations.EveryStepKeepsTheInvariant : Prop :=
  ∀ s t : State, Inv s → step s = .next t → Inv t
end

