-- ==== Sys2Proof/Laws/BigEndian.lean ====
section
/-! SUPPORT. The laws of the big-endian integers and the widths (00_scope.md R8; 44_container.md R202, R203). -/

namespace Sys2Proof.Machine

@[simp] theorem length_bigEndian (w v : Nat) : (bigEndian w v).length = w := by simp [bigEndian]

theorem bigEndian_succ (w v : Nat) : bigEndian (w + 1) v = BitVec.ofNat 8 (v >>> (8 * w)) :: bigEndian w v := by
  simp only [bigEndian, List.range_succ_eq_map, List.map_cons, List.map_map]
  congr 1
  apply List.map_congr_left
  intro i _
  simp only [Function.comp]
  congr 3; omega

theorem unBigEndian_foldl (acc : Nat) (bs : List Byte) :
    bs.foldl (fun acc b => acc * 256 + b.toNat) acc = acc * 256 ^ bs.length + unBigEndian bs := by
  induction bs generalizing acc with
  | nil => simp [unBigEndian]
  | cons b bs ih =>
    have e : unBigEndian (b :: bs) = (0 * 256 + b.toNat) * 256 ^ bs.length + unBigEndian bs := ih _
    rw [List.foldl_cons, ih, e, List.length_cons]
    ring

theorem unBigEndian_cons (b : Byte) (bs : List Byte) :
    unBigEndian (b :: bs) = b.toNat * 256 ^ bs.length + unBigEndian bs := by
  have := unBigEndian_foldl b.toNat bs
  simpa [unBigEndian] using this

theorem unBigEndian_lt (bs : List Byte) : unBigEndian bs < 256 ^ bs.length := by
  induction bs with
  | nil => simp [unBigEndian]
  | cons b bs ih =>
    rw [unBigEndian_cons, List.length_cons, pow_succ]
    have := b.isLt
    nlinarith

theorem unBigEndian_bigEndian_mod (w v : Nat) : unBigEndian (bigEndian w v) = v % 256 ^ w := by
  induction w with
  | zero => simp [bigEndian, unBigEndian, Nat.mod_one]
  | succ w ih =>
    rw [bigEndian_succ, unBigEndian_cons, length_bigEndian, ih, BitVec.toNat_ofNat, Nat.shiftRight_eq_div_pow]
    have h1 : 2 ^ (8 * w) = 256 ^ w := by rw [pow_mul]; norm_num
    rw [h1, show (2 : Nat) ^ 8 = 256 by norm_num, pow_succ, Nat.mod_mul, Nat.mul_comm, Nat.add_comm]

/-- R8: byte `i` of BE_w(v), the most significant first. -/
theorem getElem?_bigEndian {w i : Nat} (v : Nat) (h : i < w) :
    (bigEndian w v)[i]? = some (BitVec.ofNat 8 (v / 256 ^ (w - 1 - i))) := by
  simp only [bigEndian, List.getElem?_map, List.getElem?_range h, Option.map_some, Nat.shiftRight_eq_div_pow, pow_mul]
  norm_num

/-- unBE is the inverse of BE_w on the numbers below 2^(8w). -/
theorem unBigEndian_bigEndian {w v : Nat} (h : v < 256 ^ w) : unBigEndian (bigEndian w v) = v := by
  rw [unBigEndian_bigEndian_mod, Nat.mod_eq_of_lt h]

theorem minWidth_cases (m : Nat) : minWidth m = 1 ∨ minWidth m = 2 ∨ minWidth m = 4 ∨ minWidth m = 8 := by
  unfold minWidth; split_ifs <;> simp

/-- R202: a count that is at most the largest one fits the width chosen for the largest one. -/
theorem lt_pow_minWidth {v m : Nat} (hv : v ≤ m) (hm : m < 2 ^ 64) : v < 256 ^ minWidth m := by
  unfold minWidth; split_ifs <;> norm_num <;> omega

theorem le_foldl_max (l : List Nat) (acc x : Nat) (h : x ≤ acc ∨ x ∈ l) : x ≤ l.foldl max acc := by
  induction l generalizing acc with
  | nil => simpa using h
  | cons y l ih =>
    apply ih
    rcases h with h | h
    · exact .inl (le_max_of_le_left h)
    · rcases List.mem_cons.mp h with rfl | h
      · exact .inl (le_max_right ..)
      · exact .inr h

theorem foldl_max_lt (l : List Nat) (acc b : Nat) (ha : acc < b) (h : ∀ x ∈ l, x < b) : l.foldl max acc < b := by
  induction l generalizing acc with
  | nil => simpa using ha
  | cons y l ih => exact ih _ (max_lt ha (h y (by simp))) fun x hx => h x (by simp [hx])

theorem le_maxCount {es : List Entry} {e : Entry} (h : e ∈ es) : e.cnt.toNat ≤ maxCount es :=
  le_foldl_max _ _ _ (.inr (List.mem_map.mpr ⟨e, h, rfl⟩))

theorem foldl_max_mem (l : List Nat) (acc : Nat) : l.foldl max acc = acc ∨ l.foldl max acc ∈ l := by
  induction l generalizing acc with
  | nil => exact .inl rfl
  | cons x l ih =>
    rw [List.foldl_cons]
    rcases ih (max acc x) with h | h
    · rcases max_choice acc x with e | e
      · exact .inl (h.trans e)
      · exact .inr (by rw [h, e]; simp)
    · exact .inr (List.mem_cons_of_mem _ h)

@[simp] theorem maxCount_nil : maxCount [] = 0 := rfl

/-- The largest count is one of the counts. -/
theorem exists_maxCount {es : List Entry} (h : es ≠ []) : ∃ e ∈ es, e.cnt.toNat = maxCount es := by
  rcases foldl_max_mem (es.map (·.cnt.toNat)) 0 with e | e
  · obtain ⟨x, xs, rfl⟩ := List.exists_cons_of_ne_nil h
    have h0 : maxCount (x :: xs) = 0 := e
    have := le_maxCount (List.mem_cons_self (a := x) (l := xs))
    exact ⟨x, by simp, by omega⟩
  · obtain ⟨x, hx, e⟩ := List.mem_map.mp e
    exact ⟨x, hx, e⟩

theorem maxCount_lt (es : List Entry) : maxCount es < 2 ^ 64 := by
  apply foldl_max_lt
  · norm_num
  · intro x hx
    obtain ⟨e, _, rfl⟩ := List.mem_map.mp hx
    exact e.cnt.isLt

end Sys2Proof.Machine
end

