-- ==== Sys2Proof/Laws/Bits.lean ====
section
/-! SUPPORT. The laws of the bit packer (43_bitpack.md R194). -/

namespace Sys2Proof.Machine

theorem bitsToNat_lt (bs : List Bool) : bitsToNat bs < 2 ^ bs.length := by
  induction bs with
  | nil => simp [bitsToNat]
  | cons b bs ih =>
    simp only [bitsToNat, List.length_cons, pow_succ]
    cases b <;> simp <;> omega

theorem testBit_bitsToNat (bs : List Bool) (j : Nat) : (bitsToNat bs).testBit j = bs.getD j false := by
  induction bs generalizing j with
  | nil => simp [bitsToNat]
  | cons b bs ih =>
    simp only [bitsToNat]
    cases j with
    | zero => cases b <;> simp [Nat.testBit_zero]
    | succ j =>
      have e : (b.toNat + 2 * bitsToNat bs) / 2 = bitsToNat bs := by cases b <;> simp; omega
      rw [Nat.testBit_succ, e, ih]; simp

theorem length_pack (bits : List Bool) : (pack bits).length = ceil8 bits.length := by simp [pack]

theorem length_unpack (p : List Byte) (b : Nat) : (unpack p b).length = b := by simp [unpack]

theorem getLsbD_packByte (bits : List Bool) (k q : Nat) (hq : q < 8) :
    (packByte bits k).getLsbD q = bits.getD (8 * k + q) false := by
  simp only [packByte, BitVec.getLsbD_ofNat, hq, decide_true, Bool.true_and, testBit_bitsToNat]
  simp [List.getD_eq_getElem?_getD, List.getElem?_drop, hq]

theorem payloadBit_pack (bits : List Bool) (j : Nat) (h : j < bits.length) : payloadBit (pack bits) j = bits[j] := by
  have h1 : j / 8 < ceil8 bits.length := by simp only [ceil8]; omega
  have h2 : 8 * (j / 8) + j % 8 = j := by omega
  have e : (pack bits).getD (j / 8) 0#8 = packByte bits (j / 8) := by
    simp [pack, List.getD_eq_getElem?_getD, h1]
  rw [payloadBit, e, getLsbD_packByte _ _ _ (by omega), h2]
  simp [List.getD_eq_getElem?_getD, h]

/-- R194 (a). -/
theorem unpack_pack (bits : List Bool) : unpack (pack bits) bits.length = bits := by
  apply List.ext_getElem
  · simp [unpack]
  · intro j h1 h2; simp [unpack, payloadBit_pack _ _ h2]

/-- Only the first `b` bits of a payload are read (R191). -/
theorem unpack_congr {p q : List Byte} {b : Nat} (h : ∀ j < b, payloadBit p j = payloadBit q j) : unpack p b = unpack q b := by
  apply List.map_congr_left
  intro j hj; exact h j (List.mem_range.mp hj)

theorem getElem_unpack (p : List Byte) (b j : Nat) (h : j < (unpack p b).length) : (unpack p b)[j] = payloadBit p j := by
  simp [unpack]

theorem payloadBit_eq (p : List Byte) (k q : Nat) (hk : k < p.length) (hq : q < 8) :
    payloadBit p (8 * k + q) = p[k].getLsbD q := by
  have h1 : (8 * k + q) / 8 = k := by omega
  have h2 : (8 * k + q) % 8 = q := by omega
  simp [payloadBit, h1, h2, List.getD_eq_getElem?_getD, hk]

/-- R194 (b): packing an unpacked payload gives it back with its padding bits cleared. -/
theorem getLsbD_pack_unpack (p : List Byte) (b k q : Nat) (hp : p.length = ceil8 b) (hk : k < ceil8 b) (hq : q < 8) :
    ((pack (unpack p b)).getD k 0#8).getLsbD q = (decide (8 * k + q < b) && (p.getD k 0#8).getLsbD q) := by
  have hk' : k < ceil8 (unpack p b).length := by rwa [length_unpack]
  have e : (pack (unpack p b)).getD k 0#8 = packByte (unpack p b) k := by
    simp [pack, List.getD_eq_getElem?_getD, hk']
  rw [e, getLsbD_packByte _ _ _ hq]
  have hk2 : k < p.length := by omega
  by_cases hb : 8 * k + q < b
  · have : 8 * k + q < (unpack p b).length := by rwa [length_unpack]
    simp [List.getD_eq_getElem?_getD, this, getElem_unpack, payloadBit_eq _ _ _ hk2 hq, hb, hk2]
  · have : (unpack p b).length ≤ 8 * k + q := by rw [length_unpack]; omega
    simp [List.getD_eq_getElem?_getD, this, hb]

end Sys2Proof.Machine
end

