-- ==== Sys2Proof/Laws/Container.lean ====
section
/-! SUPPORT. The laws of the container (44_container.md R201 to R208): its length, what the parser accepts, and that the
parser reads back what the serializer wrote. -/

namespace Sys2Proof.Machine

theorem length_flatMap_const {α β : Type} (l : List α) (f : α → List β) (w : Nat) (h : ∀ x ∈ l, (f x).length = w) :
    (l.flatMap f).length = l.length * w := by
  induction l with
  | nil => simp
  | cons x l ih =>
    rw [List.flatMap_cons, List.length_append, h x (by simp), ih fun y hy => h y (by simp [hy]), List.length_cons]
    ring

theorem slice_flatMap {α β : Type} (l : List α) (f : α → List β) (w : Nat) (h : ∀ x ∈ l, (f x).length = w) (i : Nat)
    (hi : i < l.length) (rest : List β) : ((l.flatMap f ++ rest).drop (i * w)).take w = f l[i] := by
  induction l generalizing i with
  | nil => simp at hi
  | cons x l ih =>
    have hx : (f x).length = w := h x (by simp)
    cases i with
    | zero =>
      simp only [List.flatMap_cons, Nat.zero_mul, List.drop_zero, List.append_assoc, List.getElem_cons_zero]
      rw [List.take_append_of_le_length (by omega), ← hx, List.take_length]
    | succ i =>
      have e : (i + 1) * w = (f x).length + i * w := by rw [hx]; ring
      simp only [List.flatMap_cons, List.append_assoc, List.getElem_cons_succ]
      rw [e, ← List.drop_drop, List.drop_left]
      exact ih (fun y hy => h y (by simp [hy])) i (by simpa using hi)

/-- R201: the length of a container. -/
theorem length_containerBytes (es : List Entry) (w b : Nat) (p : List Byte) (hp : p.length = ceil8 b) :
    (containerBytes es w b p).length = containerLength es.length w b := by
  simp only [containerBytes, List.length_append, length_bigEndian, List.length_singleton, List.length_map, hp,
    length_flatMap_const es _ w (fun x _ => length_bigEndian w x.cnt.toNat), containerLength]

theorem bytesAt_eq (d : Nat → Byte) (xs : List Byte) (hd : ∀ a (h : a < xs.length), d a = xs[a]) (a n : Nat)
    (h : a + n ≤ xs.length) : bytesAt d a n = (xs.drop a).take n := by
  apply List.ext_getElem
  · simp [bytesAt]; omega
  · intro i h1 h2
    have : i < n := by simpa [bytesAt] using h1
    simp [bytesAt, hd (a + i) (by omega)]

/-! ### What check 7 accepts -/

theorem checkEntries_none_iff (i : Nat) (seen : List Byte) (prev : Option Entry) (es : List Entry) :
    checkEntries i seen prev es = none ↔
      (∀ e ∈ es, e.sym ∉ seen) ∧ (es.map (·.sym)).Nodup ∧ (prev.toList ++ es).IsChain entryLt := by
  induction es generalizing i seen prev with
  | nil => cases prev <;> simp [checkEntries]
  | cons e es ih =>
    have key : checkEntries (i + 1) (e.sym :: seen) (some e) es = none ↔
        ((∀ x ∈ es, x.sym ∉ e.sym :: seen) ∧ (es.map (·.sym)).Nodup ∧ (e :: es).IsChain entryLt) := by
      simpa using ih (i + 1) (e.sym :: seen) (some e)
    have split : (∀ x ∈ es, x.sym ∉ e.sym :: seen) ↔ (e.sym ∉ es.map (·.sym) ∧ ∀ x ∈ es, x.sym ∉ seen) := by
      simp only [List.mem_cons, not_or, List.mem_map, not_exists, not_and]
      exact ⟨fun h => ⟨fun x hx he => (h x hx).1 he, fun x hx => (h x hx).2⟩,
        fun h x hx => ⟨fun he => h.1 x hx he, h.2 x hx⟩⟩
    by_cases hs : e.sym ∈ seen
    · have : checkEntries i seen prev (e :: es) ≠ none := by simp [checkEntries, hs]
      exact ⟨fun h => absurd h this, fun h => absurd hs (h.1 e (by simp))⟩
    · cases prev with
      | none =>
        have e1 : checkEntries i seen none (e :: es) = checkEntries (i + 1) (e.sym :: seen) (some e) es := by
          simp [checkEntries, hs]
        rw [e1, key, split]
        simp only [List.forall_mem_cons, List.map_cons, List.nodup_cons, Option.toList_none, List.nil_append]
        tauto
      | some p =>
        by_cases ho : entryLt p e
        · have e1 : checkEntries i seen (some p) (e :: es) = checkEntries (i + 1) (e.sym :: seen) (some e) es := by
            simp only [checkEntries]; rw [if_neg (by simpa using hs), if_pos ho]
          rw [e1, key, split]
          simp only [List.forall_mem_cons, List.map_cons, List.nodup_cons, Option.toList_some, List.singleton_append,
            List.isChain_cons_cons]
          tauto
        · have e1 : checkEntries i seen (some p) (e :: es) ≠ none := by
            simp only [checkEntries]; rw [if_neg (by simpa using hs), if_neg ho]; simp
          refine ⟨fun h => absurd h e1, fun h => ?_⟩
          simp only [Option.toList_some, List.singleton_append, List.isChain_cons_cons] at h
          exact absurd h.2.2.1 ho

theorem checkEntries_none (es : List Entry) :
    checkEntries 0 [] none es = none ↔ (es.map (·.sym)).Nodup ∧ es.Pairwise entryLt := by
  have : IsTrans Entry entryLt := ⟨fun x y z => by unfold entryLt; omega⟩
  have := checkEntries_none_iff 0 [] none es
  simpa [List.isChain_iff_pairwise] using this

/-- What a container that PARSE accepts is like (44_container.md R206). -/
structure Accepted (len capBits : Nat) (p : Parsed) : Prop where
  width : p.width = 1 ∨ p.width = 2 ∨ p.width = 4 ∨ p.width = 8
  count : p.entries.length ≤ 256
  length : containerLength p.entries.length p.width p.bits ≤ len
  list : ListOk p.entries
  bitsFit : p.bits ≤ capBits
  bitsWord : p.bits < 2 ^ 64
  payload : p.payload.length = ceil8 p.bits

theorem parseContainer_ok {d : Nat → Byte} {len capIn capBits : Nat} {p : Parsed}
    (h : parseContainer d len capIn capBits = .ok p) : Accepted len capBits p ∧ len ≤ capIn := by
  simp only [parseContainer] at h
  by_cases h1 : len > capIn
  · simp [h1] at h
  by_cases h2 : len < 17
  · simp [h1, h2] at h
  rw [if_neg h1, if_neg h2] at h
  split at h
  · cases h
  rename_i h3
  split at h
  · cases h
  rename_i h4
  split at h
  · cases h
  rename_i h5
  split at h
  · cases h
  rename_i h6
  split at h
  · cases h
  · rename_i hc
    split at h
    · cases h
    rename_i h7
    split at h
    · cases h
    rename_i h8
    obtain rfl := ParseOut.ok.inj h
    obtain ⟨c1, c2⟩ := (checkEntries_none _).mp hc
    have hb := unBigEndian_lt (bytesAt d 8 8)
    rw [show (bytesAt d 8 8).length = 8 by simp [bytesAt]] at hb
    refine ⟨⟨by simp only; omega, by simp; omega, by simp only [List.length_map, List.length_range]; omega,
      ⟨c1, c2, Nat.lt_of_not_le h7⟩, by simp only; omega, by simp only; omega, by simp [bytesAt]⟩, by omega⟩

/-- What the bytes of an accepted container say (44_container.md R206, R207). -/
theorem parseContainer_contents {d : Nat → Byte} {len capIn capBits : Nat} {p : Parsed}
    (h : parseContainer d len capIn capBits = .ok p) :
    p = { width := (d 16).toNat, bits := unBigEndian (bytesAt d 8 8)
          entries := (List.range (unBigEndian (bytesAt d 0 8))).map
            (entryAt d (unBigEndian (bytesAt d 0 8)) (d 16).toNat)
          payload := bytesAt d (17 + unBigEndian (bytesAt d 0 8) + unBigEndian (bytesAt d 0 8) * (d 16).toNat)
            (ceil8 (unBigEndian (bytesAt d 8 8))) } := by
  simp only [parseContainer] at h
  split_ifs at h <;> split at h <;> first | exact (ParseOut.ok.inj h).symm | cases h

/-- R208's heart: the parser reads back what the serializer wrote. -/
theorem parseContainer_containerBytes {d : Nat → Byte} {len capIn capBits w b : Nat} {es : List Entry} {pl : List Byte}
    (hw : w = 1 ∨ w = 2 ∨ w = 4 ∨ w = 8) (hn : es.length ≤ 256) (hb : b < 2 ^ 64) (hl : ListOk es)
    (hc : ∀ e ∈ es, e.cnt.toNat < 256 ^ w) (hp : pl.length = ceil8 b) (h1 : containerLength es.length w b ≤ len)
    (h2 : len ≤ capIn) (h3 : b ≤ capBits)
    (hd : ∀ a (h : a < (containerBytes es w b pl).length), d a = (containerBytes es w b pl)[a]) :
    parseContainer d len capIn capBits = .ok { width := w, bits := b, entries := es, payload := pl } := by
  have hlen := length_containerBytes es w b pl hp
  have hcounts := length_flatMap_const es (fun e => bigEndian w e.cnt.toNat) w (fun x _ => length_bigEndian w x.cnt.toNat)
  have hX : containerLength es.length w b = 17 + es.length + es.length * w + ceil8 b := rfl
  have slice := bytesAt_eq d _ hd
  have e0 : unBigEndian (bytesAt d 0 8) = es.length := by
    rw [slice 0 8 (by omega)]
    have : ((containerBytes es w b pl).drop 0).take 8 = bigEndian 8 es.length := by
      simp [containerBytes, List.append_assoc]
    rw [this, unBigEndian_bigEndian (by omega)]
  have e8 : unBigEndian (bytesAt d 8 8) = b := by
    rw [slice 8 8 (by omega)]
    have : ((containerBytes es w b pl).drop 8).take 8 = bigEndian 8 b := by
      simp only [containerBytes, List.append_assoc]
      rw [List.drop_left' (length_bigEndian ..), List.take_left' (length_bigEndian ..)]
    rw [this, unBigEndian_bigEndian (by omega)]
  have getX : ∀ (pre mid post : List Byte), containerBytes es w b pl = pre ++ mid ++ post → ∀ i, i < mid.length →
      d (pre.length + i) = mid.getD i 0#8 := by
    intro pre mid post e i hi
    rw [hd (pre.length + i) (by rw [e]; simp; omega)]
    simp only [e]
    rw [List.getElem_append_left (by simp; omega), List.getElem_append_right (by omega)]
    simp [List.getD_eq_getElem?_getD, hi]
  have e16 : (d 16).toNat = w := by
    have := getX (bigEndian 8 es.length ++ bigEndian 8 b) [BitVec.ofNat 8 w] (es.map (·.sym)
      ++ es.flatMap (fun e => bigEndian w e.cnt.toNat) ++ pl) (by simp [containerBytes, List.append_assoc]) 0 (by simp)
    simp only [List.length_append, length_bigEndian, Nat.add_zero, List.getD_cons_zero] at this
    rw [this, BitVec.toNat_ofNat, Nat.mod_eq_of_lt (by omega)]
  have hes : (List.range es.length).map (entryAt d es.length w) = es := by
    apply List.ext_getElem
    · simp
    · intro i hi1 hi2
      have es_sym : d (17 + i) = es[i].sym := by
        have := getX (bigEndian 8 es.length ++ bigEndian 8 b ++ [BitVec.ofNat 8 w]) (es.map (·.sym))
          (es.flatMap (fun e => bigEndian w e.cnt.toNat) ++ pl) (by simp [containerBytes, List.append_assoc]) i (by simpa using hi2)
        simp only [List.length_append, length_bigEndian, List.length_singleton] at this
        rw [this]; simp [List.getD_eq_getElem?_getD, hi2]
      have hiw : i * w + w ≤ es.length * w := by
        have : (i + 1) * w ≤ es.length * w := Nat.mul_le_mul_right _ hi2
        linarith [this, Nat.succ_mul i w]
      have cnts : bytesAt d (17 + es.length + i * w) w = bigEndian w es[i].cnt.toNat := by
        rw [slice _ _ (by omega)]
        have e : containerBytes es w b pl = (bigEndian 8 es.length ++ bigEndian 8 b ++ [BitVec.ofNat 8 w] ++ es.map (·.sym))
            ++ (es.flatMap (fun e => bigEndian w e.cnt.toNat) ++ pl) := by simp [containerBytes, List.append_assoc]
        have el : (bigEndian 8 es.length ++ bigEndian 8 b ++ [BitVec.ofNat 8 w] ++ es.map (·.sym)).length = 17 + es.length := by
          simp; omega
        rw [e, ← el, ← List.drop_drop, List.drop_left]
        exact slice_flatMap es (fun e => bigEndian w e.cnt.toNat) w (fun x _ => length_bigEndian w x.cnt.toNat) i hi2 pl
      rw [List.getElem_map, List.getElem_range, entryAt, es_sym, cnts,
        unBigEndian_bigEndian (hc es[i] (List.getElem_mem hi2)), BitVec.ofNat_toNat, BitVec.setWidth_eq]
  have hpay : bytesAt d (17 + es.length + es.length * w) (ceil8 b) = pl := by
    rw [slice _ _ (by omega)]
    have e : containerBytes es w b pl = (bigEndian 8 es.length ++ bigEndian 8 b ++ [BitVec.ofNat 8 w] ++ es.map (·.sym)
        ++ es.flatMap (fun e => bigEndian w e.cnt.toNat)) ++ pl := by simp [containerBytes, List.append_assoc]
    have el : (bigEndian 8 es.length ++ bigEndian 8 b ++ [BitVec.ofNat 8 w] ++ es.map (·.sym)
        ++ es.flatMap (fun e => bigEndian w e.cnt.toNat)).length = 17 + es.length + es.length * w := by
      simp only [List.length_append, length_bigEndian, List.length_singleton, List.length_map, hcounts]
    rw [e, ← el, List.drop_left, ← hp, List.take_length]
  unfold parseContainer
  simp only [e0, e8, e16, hes, hpay]
  rw [if_neg (by omega), if_neg (by omega), if_neg (by omega), if_neg (by omega), if_neg (by omega), if_neg (by omega),
    (checkEntries_none es).mpr ⟨hl.distinct, hl.ascending⟩]
  simp only
  rw [if_neg (by have := hl.sumFits; omega), if_neg (by omega)]

/-! ### The FREQ mirror -/

theorem find?_sym {es : List Entry} (hn : (es.map (·.sym)).Nodup) {e : Entry} (he : e ∈ es) :
    es.find? (fun x => x.sym == e.sym) = some e := by
  induction es with
  | nil => simp at he
  | cons x es ih =>
    obtain ⟨hx, hn⟩ := List.nodup_cons.mp hn
    rcases List.mem_cons.mp he with rfl | he
    · simp
    · have : x.sym ≠ e.sym := fun h => hx (List.mem_map.mpr ⟨e, he, h.symm⟩)
      rw [List.find?_cons_of_neg (by simpa using this), ih hn he]

theorem freqAgrees_mirrorTable {es : List Entry} (hn : (es.map (·.sym)).Nodup) : FreqAgrees (mirrorTable es) es := by
  have get : ∀ b : Byte, (mirrorTable es)[b.toNat]? =
      some (match es.find? (fun e => e.sym == b) with | some e => e.cnt | none => 0#64) := by
    intro b; simp only [mirrorTable, List.getElem?_map, List.getElem?_range b.isLt, Option.map_some, BitVec.ofNat_toNat,
      BitVec.setWidth_eq]; all_goals rfl
  refine ⟨by simp [mirrorTable], fun e he => by rw [get, find?_sym hn he], fun b hb => ?_⟩
  rw [get]
  have : es.find? (fun e => e.sym == b) = none := List.find?_eq_none.mpr fun e he => by simpa using hb e he
  rw [this]

end Sys2Proof.Machine
end

