-- ==== Sys2Proof/Laws/Freq.lean ====
section
/-! SUPPORT. The laws of the frequency analyzer (40_frequency.md R141, R142). -/

namespace Sys2Proof.Machine

theorem mem_allSymbols (b : Byte) : b ∈ allSymbols :=
  List.mem_map.mpr ⟨b.toNat, List.mem_range.mpr b.isLt, by simp⟩

theorem nodup_allSymbols : allSymbols.Nodup := by
  refine List.Nodup.map_on ?_ List.nodup_range
  intro x hx y hy h
  have := congrArg BitVec.toNat h
  simp only [BitVec.toNat_ofNat] at this
  rw [Nat.mod_eq_of_lt (List.mem_range.mp hx), Nat.mod_eq_of_lt (List.mem_range.mp hy)] at this
  exact this

theorem length_allSymbols : allSymbols.length = 256 := by simp [allSymbols]

theorem getElem?_allSymbols (b : Byte) : allSymbols[b.toNat]? = some b := by
  simp [allSymbols, b.isLt]

/-- The list before it is sorted. -/
def presentEntries (bytes : List Byte) : List Entry :=
  (allSymbols.filter fun b => 0 < bytes.count b).map fun b => { sym := b, cnt := BitVec.ofNat 64 (bytes.count b) }

theorem freqList_eq (bytes : List Byte) : freqList bytes = (presentEntries bytes).insertionSort entryLe := rfl

theorem perm_freqList (bytes : List Byte) : (freqList bytes).Perm (presentEntries bytes) := List.perm_insertionSort ..

theorem mem_freqList {bytes : List Byte} {e : Entry} :
    e ∈ freqList bytes ↔ e.sym ∈ bytes ∧ e.cnt = BitVec.ofNat 64 (bytes.count e.sym) := by
  rw [(perm_freqList bytes).mem_iff, presentEntries, List.mem_map]
  constructor
  · rintro ⟨b, hb, rfl⟩
    exact ⟨List.count_pos_iff.mp (by simpa using (List.mem_filter.mp hb).2), rfl⟩
  · rintro ⟨h1, h2⟩
    exact ⟨e.sym, List.mem_filter.mpr ⟨mem_allSymbols _, by simpa using List.count_pos_iff.mpr h1⟩, by rw [← h2]⟩

theorem nodup_freqList (bytes : List Byte) : ((freqList bytes).map (·.sym)).Nodup := by
  rw [((perm_freqList bytes).map _).nodup_iff, presentEntries, List.map_map]
  simpa [Function.comp_def] using nodup_allSymbols.filter _

theorem length_freqList_le (bytes : List Byte) : (freqList bytes).length ≤ 256 := by
  rw [(perm_freqList bytes).length_eq, presentEntries, List.length_map, ← length_allSymbols]
  exact List.length_filter_le ..

theorem pairwise_entryLe_freqList (bytes : List Byte) : (freqList bytes).Pairwise entryLe := by
  have : Std.Total entryLe := ⟨fun x y => by unfold entryLe; omega⟩
  have : IsTrans Entry entryLe := ⟨fun x y z => by unfold entryLe; omega⟩
  exact List.pairwise_insertionSort _ _

theorem entryLt_of_entryLe {x y : Entry} (h : entryLe x y) (hs : x.sym ≠ y.sym) : entryLt x y := by
  rcases h with h | ⟨h1, h2⟩
  · exact .inl h
  · exact .inr ⟨h1, lt_of_le_of_ne h2 fun h => hs (BitVec.eq_of_toNat_eq h)⟩

/-- R141: the list is strictly ascending. -/
theorem pairwise_entryLt_freqList (bytes : List Byte) : (freqList bytes).Pairwise entryLt :=
  (pairwise_entryLe_freqList bytes).imp₂ (fun _ _ h hs => entryLt_of_entryLe h hs)
    (List.pairwise_map.mp (nodup_freqList bytes))

theorem cnt_toNat {bytes : List Byte} (hb : bytes.length < 2 ^ 64) (b : Byte) :
    (BitVec.ofNat 64 (bytes.count b)).toNat = bytes.count b := by
  rw [BitVec.toNat_ofNat, Nat.mod_eq_of_lt (lt_of_le_of_lt List.count_le_length hb)]

theorem sum_count (bytes : List Byte) (l : List Byte) (hl : l.Nodup) (hc : ∀ b ∈ bytes, b ∈ l) :
    (l.map fun b => bytes.count b).sum = bytes.length := by
  induction bytes with
  | nil => simp
  | cons x xs ih =>
    have hx : x ∈ l := hc x (by simp)
    have e : (l.map fun b => (x :: xs).count b) = l.map fun b => xs.count b + if x = b then 1 else 0 := by
      apply List.map_congr_left; intro b _; simp [List.count_cons]
    rw [e, List.sum_map_add, ih fun b hb => hc b (by simp [hb]), List.length_cons]
    congr 1
    have : (l.map fun b => if x = b then 1 else 0).sum = l.count x := by
      clear e hl hc hx ih
      induction l with
      | nil => rfl
      | cons y l ih =>
        rw [List.map_cons, List.sum_cons, ih, List.count_cons, Nat.add_comm]
        by_cases h : y = x
        · simp [h]
        · simp [h, Ne.symm h]
    rw [this, List.count_eq_one_of_mem hl hx]

/-- R142 (a): the counts sum to the length of the input. -/
theorem sumCounts_freqList {bytes : List Byte} (hb : bytes.length < 2 ^ 64) : sumCounts (freqList bytes) = bytes.length := by
  rw [sumCounts, ((perm_freqList bytes).map _).sum_eq, presentEntries, List.map_map]
  rw [← sum_count bytes (allSymbols.filter fun b => 0 < bytes.count b) (nodup_allSymbols.filter _)]
  · congr 1; apply List.map_congr_left; intro b _; exact cnt_toNat hb b
  · intro b h; exact List.mem_filter.mpr ⟨mem_allSymbols b, by simpa using List.count_pos_iff.mpr h⟩

theorem listOk_freqList {bytes : List Byte} (hb : bytes.length < 2 ^ 64) : ListOk (freqList bytes) :=
  ⟨nodup_freqList bytes, pairwise_entryLt_freqList bytes, by rw [sumCounts_freqList hb]; exact hb⟩

theorem freqAgrees_countTable (bytes : List Byte) : FreqAgrees (countTable bytes) (freqList bytes) := by
  have get : ∀ b : Byte, (countTable bytes)[b.toNat]? = some (BitVec.ofNat 64 (bytes.count b)) := by
    intro b; simp [countTable, getElem?_allSymbols]
  refine ⟨by simp [countTable, length_allSymbols], fun e he => ?_, fun b hb => ?_⟩
  · rw [get, (mem_freqList.mp he).2]
  · have : b ∉ bytes := fun h => hb ⟨b, BitVec.ofNat 64 (bytes.count b)⟩ (mem_freqList.mpr ⟨h, rfl⟩) rfl
    rw [get, List.count_eq_zero_of_not_mem this]

/-- R142 (b): SYMBOL_COUNT is the number of distinct bytes. -/
theorem length_freqList (bytes : List Byte) : (freqList bytes).length = bytes.dedup.length := by
  have h : ((freqList bytes).map (·.sym)).Perm bytes.dedup := by
    rw [List.perm_ext_iff_of_nodup (nodup_freqList bytes) (List.nodup_dedup _)]
    intro b
    rw [List.mem_dedup, List.mem_map]
    exact ⟨fun ⟨e, he, h⟩ => h ▸ (mem_freqList.mp he).1, fun h => ⟨⟨b, BitVec.ofNat 64 (bytes.count b)⟩, mem_freqList.mpr ⟨h, rfl⟩, rfl⟩⟩
  simpa using h.length_eq

/-- A sum over the bytes is a sum over the symbols, weighted by their counts. -/
theorem sum_count_mul (bytes : List Byte) (f : Byte → Nat) (l : List Byte) (hl : l.Nodup) (hc : ∀ b ∈ bytes, b ∈ l) :
    (l.map fun b => bytes.count b * f b).sum = (bytes.map f).sum := by
  induction bytes with
  | nil => simp
  | cons x xs ih =>
    have hx : x ∈ l := hc x (by simp)
    have e : (l.map fun b => (x :: xs).count b * f b) = l.map fun b => xs.count b * f b + if x = b then f x else 0 := by
      apply List.map_congr_left; intro b _; simp only [List.count_cons]; split_ifs <;> simp_all [add_mul]
    rw [e, List.sum_map_add, ih fun b hb => hc b (by simp [hb]), List.map_cons, List.sum_cons, Nat.add_comm]
    congr 1
    clear e hc ih
    induction l with
    | nil => simp at hx
    | cons y l ih =>
      rw [List.map_cons, List.sum_cons]
      obtain ⟨h1, h2⟩ := List.nodup_cons.mp hl
      by_cases h : x = y
      · subst h
        have : (l.map fun b => if x = b then f x else 0).sum = 0 := by
          rw [List.sum_eq_zero]; intro z hz; obtain ⟨b, hb, rfl⟩ := List.mem_map.mp hz
          rw [if_neg]; rintro rfl; exact h1 hb
        simp [this]
      · rw [if_neg h, ih h2 (by simpa [h] using hx)]; omega

/-- The length of a stream of codes by the counts of the list (42_codebook.md R175). -/
theorem length_flatMap_code (bytes : List Byte) (hb : bytes.length < 2 ^ 64) (code : Byte → List Bool) :
    (bytes.flatMap code).length = ((freqList bytes).map fun e => e.cnt.toNat * (code e.sym).length).sum := by
  rw [List.length_flatMap, ← sum_count_mul bytes (fun b => (code b).length) ((freqList bytes).map (·.sym)) (nodup_freqList _),
    List.map_map]
  · congr 1; apply List.map_congr_left; intro e he
    obtain ⟨_, h2⟩ := mem_freqList.mp he
    simp only [Function.comp]
    rw [h2, cnt_toNat hb]
  · intro b hb
    exact List.mem_map.mpr ⟨⟨b, BitVec.ofNat 64 (bytes.count b)⟩, mem_freqList.mpr ⟨hb, rfl⟩, rfl⟩

end Sys2Proof.Machine
end

