-- ==== Sys2Proof/Laws/Memory.lean ====
section
/-! SUPPORT. The laws of the addressed memories: read after write, the canonical form, and where the bytes lie. -/

namespace Sys2Proof.Machine

theorem Memory.read_write (m : Memory) (a x : Nat) (b : Byte) :
    (m.write a b).read x = if x = a then some b else m.read x := by
  induction m with
  | nil => rfl
  | cons c m ih =>
    obtain ⟨k, v⟩ := c
    simp only [Memory.write]
    split_ifs with h1 h2 h3 h4 h5 <;> simp only [Memory.read, ih] <;> split_ifs <;> first | rfl | omega

@[simp] theorem Memory.read_write_same (m : Memory) (a : Nat) (b : Byte) : (m.write a b).read a = some b := by
  simp [Memory.read_write]

theorem Memory.read_write_other (m : Memory) {a x : Nat} (b : Byte) (h : x ≠ a) : (m.write a b).read x = m.read x := by
  simp [Memory.read_write, h]

theorem Memory.mem_write {m : Memory} {a : Nat} {b : Byte} {c : Host.Cell} (h : c ∈ m.write a b) : c = (a, b) ∨ c ∈ m := by
  induction m with
  | nil => simpa [Memory.write] using h
  | cons d m ih =>
    obtain ⟨k, v⟩ := d
    simp only [Memory.write] at h
    split_ifs at h with h1 h2
    · simpa using h
    · rcases List.mem_cons.mp h with rfl | h
      · exact .inl rfl
      · exact .inr (List.mem_cons_of_mem _ h)
    · rcases List.mem_cons.mp h with rfl | h
      · exact .inr (List.mem_cons_self ..)
      · exact (ih h).imp_right (List.mem_cons_of_mem _)

theorem Memory.wf_write {m : Memory} (hm : m.wf) (a : Nat) (b : Byte) : (m.write a b).wf := by
  induction m with
  | nil => simp [Memory.write, Memory.wf]
  | cons d m ih =>
    obtain ⟨k, v⟩ := d
    obtain ⟨hk, hm⟩ := List.pairwise_cons.mp hm
    simp only [Memory.write]
    split_ifs with h1 h2
    · refine List.pairwise_cons.mpr ⟨fun c hc => ?_, List.pairwise_cons.mpr ⟨hk, hm⟩⟩
      rcases List.mem_cons.mp hc with rfl | hc
      · exact h1
      · exact h1.trans (hk c hc)
    · exact List.pairwise_cons.mpr ⟨fun c hc => by subst h2; exact hk c hc, hm⟩
    · refine List.pairwise_cons.mpr ⟨fun c hc => ?_, ih hm⟩
      rcases Memory.mem_write hc with rfl | hc
      · simp only; omega
      · exact hk c hc

theorem Memory.read_writeAll (m : Memory) (a x : Nat) (bs : List Byte) :
    (m.writeAll a bs).read x = if a ≤ x ∧ x < a + bs.length then bs[x - a]? else m.read x := by
  induction bs generalizing m a with
  | nil => simp [Memory.writeAll]
  | cons b bs ih =>
    simp only [Memory.writeAll, ih, Memory.read_write, List.length_cons]
    by_cases h : x = a
    · subst h; simp
    · have e : x - a = (x - (a + 1)) + 1 ∨ x < a := by omega
      rcases e with e | e
      · rw [e, List.getElem?_cons_succ]
        split_ifs <;> first | rfl | omega
      · split_ifs <;> first | rfl | omega

theorem Memory.wf_writeAll {m : Memory} (hm : m.wf) (a : Nat) (bs : List Byte) : (m.writeAll a bs).wf := by
  induction bs generalizing m a with
  | nil => exact hm
  | cons b bs ih => exact ih (Memory.wf_write hm a b) (a + 1)

theorem Memory.mem_writeAll {m : Memory} {a : Nat} {bs : List Byte} {c : Host.Cell} (h : c ∈ m.writeAll a bs) :
    c.1 < a + bs.length ∨ c ∈ m := by
  induction bs generalizing m a with
  | nil => exact .inr h
  | cons b bs ih =>
    rcases ih h with h | h
    · left; simp only [List.length_cons]; omega
    · rcases Memory.mem_write h with rfl | h
      · left; simp
      · exact .inr h

/-! ### BITBUF and PAYLOAD -/

theorem length_writePrefix {α : Type} (new old : List α) : (writePrefix new old).length = max new.length old.length := by
  simp only [writePrefix, List.length_append, List.length_drop]; omega

theorem getD_writePrefix_lt {α : Type} (new old : List α) (j : Nat) (d : α) (h : j < new.length) :
    (writePrefix new old).getD j d = new[j] := by
  simp [writePrefix, List.getD_eq_getElem?_getD, List.getElem?_append_left h, h]

theorem getD_writePrefix_ge {α : Type} (new old : List α) (j : Nat) (d : α) (h : new.length ≤ j) :
    (writePrefix new old).getD j d = old.getD j d := by
  simp only [writePrefix, List.getD_eq_getElem?_getD, List.getElem?_append_right h, List.getElem?_drop]
  congr 2; omega

theorem getElem?_writePrefix {α : Type} (new old : List α) (j : Nat) :
    (writePrefix new old)[j]? = if j < new.length then new[j]? else old[j]? := by
  unfold writePrefix
  split_ifs with h
  · rw [List.getElem?_append_left h]
  · rw [List.getElem?_append_right (by omega), List.getElem?_drop]; congr 1; omega

/-- Reading back what was written from position 0. -/
theorem map_getD_writePrefix {α : Type} (new old : List α) (f : Nat → α) :
    ((List.range new.length).map fun j => (writePrefix new old).getD j (f j)) = new := by
  apply List.ext_getElem
  · simp
  · intro j h1 h2
    rw [List.getElem_map, List.getElem_range, getD_writePrefix_lt _ _ _ _ h2]

end Sys2Proof.Machine
end

