-- ==== Sys2Proof/Laws/State.lean ====
section
/-! SUPPORT. One lemma per field and per shared update of the state, so that no later proof unfolds a record update. -/

namespace Sys2Proof.Machine

/-! ### s.withFlags st -/

@[simp] theorem withFlags_capIn (s : State) (st : StageName) : (s.withFlags st).capIn = s.capIn := rfl
@[simp] theorem withFlags_capOut (s : State) (st : StageName) : (s.withFlags st).capOut = s.capOut := rfl
@[simp] theorem withFlags_capBits (s : State) (st : StageName) : (s.withFlags st).capBits = s.capBits := rfl
@[simp] theorem withFlags_cmd (s : State) (st : StageName) : (s.withFlags st).cmd = s.cmd := rfl
@[simp] theorem withFlags_busy (s : State) (st : StageName) : (s.withFlags st).busy = s.busy := rfl
@[simp] theorem withFlags_done (s : State) (st : StageName) : (s.withFlags st).done = s.done := rfl
@[simp] theorem withFlags_error (s : State) (st : StageName) : (s.withFlags st).error = s.error := rfl
@[simp] theorem withFlags_overrun (s : State) (st : StageName) : (s.withFlags st).overrun = s.overrun := rfl
@[simp] theorem withFlags_slistV (s : State) (st : StageName) : (s.withFlags st).slistV = st.after .slist s.slistV := rfl
@[simp] theorem withFlags_treeV (s : State) (st : StageName) : (s.withFlags st).treeV = st.after .tree s.treeV := rfl
@[simp] theorem withFlags_cbV (s : State) (st : StageName) : (s.withFlags st).cbV = st.after .cb s.cbV := rfl
@[simp] theorem withFlags_bitsV (s : State) (st : StageName) : (s.withFlags st).bitsV = st.after .bits s.bitsV := rfl
@[simp] theorem withFlags_payloadV (s : State) (st : StageName) : (s.withFlags st).payloadV = st.after .payload s.payloadV := rfl
@[simp] theorem withFlags_err (s : State) (st : StageName) : (s.withFlags st).err = s.err := rfl
@[simp] theorem withFlags_errInfo (s : State) (st : StageName) : (s.withFlags st).errInfo = s.errInfo := rfl
@[simp] theorem withFlags_doneIe (s : State) (st : StageName) : (s.withFlags st).doneIe = s.doneIe := rfl
@[simp] theorem withFlags_errIe (s : State) (st : StageName) : (s.withFlags st).errIe = s.errIe := rfl
@[simp] theorem withFlags_inLen (s : State) (st : StageName) : (s.withFlags st).inLen = s.inLen := rfl
@[simp] theorem withFlags_outLen (s : State) (st : StageName) : (s.withFlags st).outLen = s.outLen := rfl
@[simp] theorem withFlags_symbolCount (s : State) (st : StageName) : (s.withFlags st).symbolCount = s.symbolCount := rfl
@[simp] theorem withFlags_bitLength (s : State) (st : StageName) : (s.withFlags st).bitLength = s.bitLength := rfl
@[simp] theorem withFlags_hcWidth (s : State) (st : StageName) : (s.withFlags st).hcWidth = s.hcWidth := rfl
@[simp] theorem withFlags_nodeCount (s : State) (st : StageName) : (s.withFlags st).nodeCount = s.nodeCount := rfl
@[simp] theorem withFlags_statOrig (s : State) (st : StageName) : (s.withFlags st).statOrig = s.statOrig := rfl
@[simp] theorem withFlags_statBits (s : State) (st : StageName) : (s.withFlags st).statBits = s.statBits := rfl
@[simp] theorem withFlags_statContainer (s : State) (st : StageName) : (s.withFlags st).statContainer = s.statContainer := rfl
@[simp] theorem withFlags_lsel (s : State) (st : StageName) : (s.withFlags st).lsel = s.lsel := rfl
@[simp] theorem withFlags_ssel (s : State) (st : StageName) : (s.withFlags st).ssel = s.ssel := rfl
@[simp] theorem withFlags_nsel (s : State) (st : StageName) : (s.withFlags st).nsel = s.nsel := rfl
@[simp] theorem withFlags_bsel (s : State) (st : StageName) : (s.withFlags st).bsel = s.bsel := rfl
@[simp] theorem withFlags_psel (s : State) (st : StageName) : (s.withFlags st).psel = s.psel := rfl
@[simp] theorem withFlags_freq (s : State) (st : StageName) : (s.withFlags st).freq = s.freq := rfl
@[simp] theorem withFlags_slist (s : State) (st : StageName) : (s.withFlags st).slist = s.slist := rfl
@[simp] theorem withFlags_nodes (s : State) (st : StageName) : (s.withFlags st).nodes = s.nodes := rfl
@[simp] theorem withFlags_cb (s : State) (st : StageName) : (s.withFlags st).cb = s.cb := rfl
@[simp] theorem withFlags_bitbuf (s : State) (st : StageName) : (s.withFlags st).bitbuf = s.bitbuf := rfl
@[simp] theorem withFlags_payload (s : State) (st : StageName) : (s.withFlags st).payload = s.payload := rfl
@[simp] theorem withFlags_inMem (s : State) (st : StageName) : (s.withFlags st).inMem = s.inMem := rfl
@[simp] theorem withFlags_outMem (s : State) (st : StageName) : (s.withFlags st).outMem = s.outMem := rfl
@[simp] theorem withFlags_stageIndex (s : State) (st : StageName) : (s.withFlags st).stageIndex = s.stageIndex := rfl
@[simp] theorem withFlags_walkNode (s : State) (st : StageName) : (s.withFlags st).walkNode = s.walkNode := rfl
@[simp] theorem withFlags_walkCount (s : State) (st : StageName) : (s.withFlags st).walkCount = s.walkCount := rfl
@[simp] theorem withFlags_resetAsserted (s : State) (st : StageName) : (s.withFlags st).resetAsserted = s.resetAsserted := rfl
@[simp] theorem withFlags_inputs (s : State) (st : StageName) : (s.withFlags st).inputs = s.inputs := rfl
@[simp] theorem withFlags_replies (s : State) (st : StageName) : (s.withFlags st).replies = s.replies := rfl
@[simp] theorem withFlags_engineDelay (s : State) (st : StageName) : (s.withFlags st).engineDelay = s.engineDelay := rfl
@[simp] theorem withFlags_draws (s : State) (st : StageName) : (s.withFlags st).draws = s.draws := rfl
@[simp] theorem withFlags_epoch (s : State) (st : StageName) : (s.withFlags st).epoch = s.epoch := rfl
@[simp] theorem withFlags_outEpoch (s : State) (st : StageName) : (s.withFlags st).outEpoch = s.outEpoch := rfl

/-! ### leaveCommand s -/

@[simp] theorem leaveCommand_capIn (s : State) : (leaveCommand s).capIn = s.capIn := rfl
@[simp] theorem leaveCommand_capOut (s : State) : (leaveCommand s).capOut = s.capOut := rfl
@[simp] theorem leaveCommand_capBits (s : State) : (leaveCommand s).capBits = s.capBits := rfl
@[simp] theorem leaveCommand_cmd (s : State) : (leaveCommand s).cmd = s.cmd := rfl
@[simp] theorem leaveCommand_busy (s : State) : (leaveCommand s).busy = false := rfl
@[simp] theorem leaveCommand_done (s : State) : (leaveCommand s).done = s.done := rfl
@[simp] theorem leaveCommand_error (s : State) : (leaveCommand s).error = s.error := rfl
@[simp] theorem leaveCommand_overrun (s : State) : (leaveCommand s).overrun = s.overrun := rfl
@[simp] theorem leaveCommand_slistV (s : State) : (leaveCommand s).slistV = s.slistV := rfl
@[simp] theorem leaveCommand_treeV (s : State) : (leaveCommand s).treeV = s.treeV := rfl
@[simp] theorem leaveCommand_cbV (s : State) : (leaveCommand s).cbV = s.cbV := rfl
@[simp] theorem leaveCommand_bitsV (s : State) : (leaveCommand s).bitsV = s.bitsV := rfl
@[simp] theorem leaveCommand_payloadV (s : State) : (leaveCommand s).payloadV = s.payloadV := rfl
@[simp] theorem leaveCommand_err (s : State) : (leaveCommand s).err = s.err := rfl
@[simp] theorem leaveCommand_errInfo (s : State) : (leaveCommand s).errInfo = s.errInfo := rfl
@[simp] theorem leaveCommand_doneIe (s : State) : (leaveCommand s).doneIe = s.doneIe := rfl
@[simp] theorem leaveCommand_errIe (s : State) : (leaveCommand s).errIe = s.errIe := rfl
@[simp] theorem leaveCommand_inLen (s : State) : (leaveCommand s).inLen = s.inLen := rfl
@[simp] theorem leaveCommand_outLen (s : State) : (leaveCommand s).outLen = s.outLen := rfl
@[simp] theorem leaveCommand_symbolCount (s : State) : (leaveCommand s).symbolCount = s.symbolCount := rfl
@[simp] theorem leaveCommand_bitLength (s : State) : (leaveCommand s).bitLength = s.bitLength := rfl
@[simp] theorem leaveCommand_hcWidth (s : State) : (leaveCommand s).hcWidth = s.hcWidth := rfl
@[simp] theorem leaveCommand_nodeCount (s : State) : (leaveCommand s).nodeCount = s.nodeCount := rfl
@[simp] theorem leaveCommand_statOrig (s : State) : (leaveCommand s).statOrig = s.statOrig := rfl
@[simp] theorem leaveCommand_statBits (s : State) : (leaveCommand s).statBits = s.statBits := rfl
@[simp] theorem leaveCommand_statContainer (s : State) : (leaveCommand s).statContainer = s.statContainer := rfl
@[simp] theorem leaveCommand_lsel (s : State) : (leaveCommand s).lsel = s.lsel := rfl
@[simp] theorem leaveCommand_ssel (s : State) : (leaveCommand s).ssel = s.ssel := rfl
@[simp] theorem leaveCommand_nsel (s : State) : (leaveCommand s).nsel = s.nsel := rfl
@[simp] theorem leaveCommand_bsel (s : State) : (leaveCommand s).bsel = s.bsel := rfl
@[simp] theorem leaveCommand_psel (s : State) : (leaveCommand s).psel = s.psel := rfl
@[simp] theorem leaveCommand_freq (s : State) : (leaveCommand s).freq = s.freq := rfl
@[simp] theorem leaveCommand_slist (s : State) : (leaveCommand s).slist = s.slist := rfl
@[simp] theorem leaveCommand_nodes (s : State) : (leaveCommand s).nodes = s.nodes := rfl
@[simp] theorem leaveCommand_cb (s : State) : (leaveCommand s).cb = s.cb := rfl
@[simp] theorem leaveCommand_bitbuf (s : State) : (leaveCommand s).bitbuf = s.bitbuf := rfl
@[simp] theorem leaveCommand_payload (s : State) : (leaveCommand s).payload = s.payload := rfl
@[simp] theorem leaveCommand_inMem (s : State) : (leaveCommand s).inMem = s.inMem := rfl
@[simp] theorem leaveCommand_outMem (s : State) : (leaveCommand s).outMem = s.outMem := rfl
@[simp] theorem leaveCommand_stageIndex (s : State) : (leaveCommand s).stageIndex = 0 := rfl
@[simp] theorem leaveCommand_walkNode (s : State) : (leaveCommand s).walkNode = 0 := rfl
@[simp] theorem leaveCommand_walkCount (s : State) : (leaveCommand s).walkCount = 0 := rfl
@[simp] theorem leaveCommand_resetAsserted (s : State) : (leaveCommand s).resetAsserted = s.resetAsserted := rfl
@[simp] theorem leaveCommand_inputs (s : State) : (leaveCommand s).inputs = s.inputs := rfl
@[simp] theorem leaveCommand_replies (s : State) : (leaveCommand s).replies = s.replies := rfl
@[simp] theorem leaveCommand_engineDelay (s : State) : (leaveCommand s).engineDelay = s.engineDelay := rfl
@[simp] theorem leaveCommand_draws (s : State) : (leaveCommand s).draws = s.draws := rfl
@[simp] theorem leaveCommand_epoch (s : State) : (leaveCommand s).epoch = s.epoch := rfl
@[simp] theorem leaveCommand_outEpoch (s : State) : (leaveCommand s).outEpoch = s.outEpoch := rfl

/-! ### completeDone s -/

@[simp] theorem completeDone_capIn (s : State) : (completeDone s).capIn = s.capIn := rfl
@[simp] theorem completeDone_capOut (s : State) : (completeDone s).capOut = s.capOut := rfl
@[simp] theorem completeDone_capBits (s : State) : (completeDone s).capBits = s.capBits := rfl
@[simp] theorem completeDone_cmd (s : State) : (completeDone s).cmd = s.cmd := rfl
@[simp] theorem completeDone_busy (s : State) : (completeDone s).busy = false := rfl
@[simp] theorem completeDone_done (s : State) : (completeDone s).done = true := rfl
@[simp] theorem completeDone_error (s : State) : (completeDone s).error = s.error := rfl
@[simp] theorem completeDone_overrun (s : State) : (completeDone s).overrun = s.overrun := rfl
@[simp] theorem completeDone_slistV (s : State) : (completeDone s).slistV = s.slistV := rfl
@[simp] theorem completeDone_treeV (s : State) : (completeDone s).treeV = s.treeV := rfl
@[simp] theorem completeDone_cbV (s : State) : (completeDone s).cbV = s.cbV := rfl
@[simp] theorem completeDone_bitsV (s : State) : (completeDone s).bitsV = s.bitsV := rfl
@[simp] theorem completeDone_payloadV (s : State) : (completeDone s).payloadV = s.payloadV := rfl
@[simp] theorem completeDone_err (s : State) : (completeDone s).err = s.err := rfl
@[simp] theorem completeDone_errInfo (s : State) : (completeDone s).errInfo = s.errInfo := rfl
@[simp] theorem completeDone_doneIe (s : State) : (completeDone s).doneIe = s.doneIe := rfl
@[simp] theorem completeDone_errIe (s : State) : (completeDone s).errIe = s.errIe := rfl
@[simp] theorem completeDone_inLen (s : State) : (completeDone s).inLen = s.inLen := rfl
@[simp] theorem completeDone_outLen (s : State) : (completeDone s).outLen = s.outLen := rfl
@[simp] theorem completeDone_symbolCount (s : State) : (completeDone s).symbolCount = s.symbolCount := rfl
@[simp] theorem completeDone_bitLength (s : State) : (completeDone s).bitLength = s.bitLength := rfl
@[simp] theorem completeDone_hcWidth (s : State) : (completeDone s).hcWidth = s.hcWidth := rfl
@[simp] theorem completeDone_nodeCount (s : State) : (completeDone s).nodeCount = s.nodeCount := rfl
@[simp] theorem completeDone_statOrig (s : State) : (completeDone s).statOrig = s.statOrig := rfl
@[simp] theorem completeDone_statBits (s : State) : (completeDone s).statBits = s.statBits := rfl
@[simp] theorem completeDone_statContainer (s : State) : (completeDone s).statContainer = s.statContainer := rfl
@[simp] theorem completeDone_lsel (s : State) : (completeDone s).lsel = s.lsel := rfl
@[simp] theorem completeDone_ssel (s : State) : (completeDone s).ssel = s.ssel := rfl
@[simp] theorem completeDone_nsel (s : State) : (completeDone s).nsel = s.nsel := rfl
@[simp] theorem completeDone_bsel (s : State) : (completeDone s).bsel = s.bsel := rfl
@[simp] theorem completeDone_psel (s : State) : (completeDone s).psel = s.psel := rfl
@[simp] theorem completeDone_freq (s : State) : (completeDone s).freq = s.freq := rfl
@[simp] theorem completeDone_slist (s : State) : (completeDone s).slist = s.slist := rfl
@[simp] theorem completeDone_nodes (s : State) : (completeDone s).nodes = s.nodes := rfl
@[simp] theorem completeDone_cb (s : State) : (completeDone s).cb = s.cb := rfl
@[simp] theorem completeDone_bitbuf (s : State) : (completeDone s).bitbuf = s.bitbuf := rfl
@[simp] theorem completeDone_payload (s : State) : (completeDone s).payload = s.payload := rfl
@[simp] theorem completeDone_inMem (s : State) : (completeDone s).inMem = s.inMem := rfl
@[simp] theorem completeDone_outMem (s : State) : (completeDone s).outMem = s.outMem := rfl
@[simp] theorem completeDone_stageIndex (s : State) : (completeDone s).stageIndex = 0 := rfl
@[simp] theorem completeDone_walkNode (s : State) : (completeDone s).walkNode = 0 := rfl
@[simp] theorem completeDone_walkCount (s : State) : (completeDone s).walkCount = 0 := rfl
@[simp] theorem completeDone_resetAsserted (s : State) : (completeDone s).resetAsserted = s.resetAsserted := rfl
@[simp] theorem completeDone_inputs (s : State) : (completeDone s).inputs = s.inputs := rfl
@[simp] theorem completeDone_replies (s : State) : (completeDone s).replies = s.replies := rfl
@[simp] theorem completeDone_engineDelay (s : State) : (completeDone s).engineDelay = s.engineDelay := rfl
@[simp] theorem completeDone_draws (s : State) : (completeDone s).draws = s.draws := rfl
@[simp] theorem completeDone_epoch (s : State) : (completeDone s).epoch = s.epoch := rfl
@[simp] theorem completeDone_outEpoch (s : State) : (completeDone s).outEpoch = s.outEpoch := rfl

/-! ### errorEntry op st r s -/

@[simp] theorem errorEntry_capIn (op st : Byte) (r : Raise) (s : State) : (errorEntry op st r s).capIn = s.capIn := rfl
@[simp] theorem errorEntry_capOut (op st : Byte) (r : Raise) (s : State) : (errorEntry op st r s).capOut = s.capOut := rfl
@[simp] theorem errorEntry_capBits (op st : Byte) (r : Raise) (s : State) : (errorEntry op st r s).capBits = s.capBits := rfl
@[simp] theorem errorEntry_cmd (op st : Byte) (r : Raise) (s : State) : (errorEntry op st r s).cmd = s.cmd := rfl
@[simp] theorem errorEntry_busy (op st : Byte) (r : Raise) (s : State) : (errorEntry op st r s).busy = false := rfl
@[simp] theorem errorEntry_done (op st : Byte) (r : Raise) (s : State) : (errorEntry op st r s).done = s.done := rfl
@[simp] theorem errorEntry_error (op st : Byte) (r : Raise) (s : State) : (errorEntry op st r s).error = true := rfl
@[simp] theorem errorEntry_overrun (op st : Byte) (r : Raise) (s : State) : (errorEntry op st r s).overrun = s.overrun := rfl
@[simp] theorem errorEntry_slistV (op st : Byte) (r : Raise) (s : State) : (errorEntry op st r s).slistV = s.slistV := rfl
@[simp] theorem errorEntry_treeV (op st : Byte) (r : Raise) (s : State) : (errorEntry op st r s).treeV = s.treeV := rfl
@[simp] theorem errorEntry_cbV (op st : Byte) (r : Raise) (s : State) : (errorEntry op st r s).cbV = s.cbV := rfl
@[simp] theorem errorEntry_bitsV (op st : Byte) (r : Raise) (s : State) : (errorEntry op st r s).bitsV = s.bitsV := rfl
@[simp] theorem errorEntry_payloadV (op st : Byte) (r : Raise) (s : State) : (errorEntry op st r s).payloadV = s.payloadV := rfl
@[simp] theorem errorEntry_err (op st : Byte) (r : Raise) (s : State) : (errorEntry op st r s).err = errWord op st r.cause := rfl
@[simp] theorem errorEntry_errInfo (op st : Byte) (r : Raise) (s : State) : (errorEntry op st r s).errInfo = BitVec.ofNat 64 r.info := rfl
@[simp] theorem errorEntry_doneIe (op st : Byte) (r : Raise) (s : State) : (errorEntry op st r s).doneIe = s.doneIe := rfl
@[simp] theorem errorEntry_errIe (op st : Byte) (r : Raise) (s : State) : (errorEntry op st r s).errIe = s.errIe := rfl
@[simp] theorem errorEntry_inLen (op st : Byte) (r : Raise) (s : State) : (errorEntry op st r s).inLen = s.inLen := rfl
@[simp] theorem errorEntry_outLen (op st : Byte) (r : Raise) (s : State) : (errorEntry op st r s).outLen = s.outLen := rfl
@[simp] theorem errorEntry_symbolCount (op st : Byte) (r : Raise) (s : State) : (errorEntry op st r s).symbolCount = s.symbolCount := rfl
@[simp] theorem errorEntry_bitLength (op st : Byte) (r : Raise) (s : State) : (errorEntry op st r s).bitLength = s.bitLength := rfl
@[simp] theorem errorEntry_hcWidth (op st : Byte) (r : Raise) (s : State) : (errorEntry op st r s).hcWidth = s.hcWidth := rfl
@[simp] theorem errorEntry_nodeCount (op st : Byte) (r : Raise) (s : State) : (errorEntry op st r s).nodeCount = s.nodeCount := rfl
@[simp] theorem errorEntry_statOrig (op st : Byte) (r : Raise) (s : State) : (errorEntry op st r s).statOrig = s.statOrig := rfl
@[simp] theorem errorEntry_statBits (op st : Byte) (r : Raise) (s : State) : (errorEntry op st r s).statBits = s.statBits := rfl
@[simp] theorem errorEntry_statContainer (op st : Byte) (r : Raise) (s : State) : (errorEntry op st r s).statContainer = s.statContainer := rfl
@[simp] theorem errorEntry_lsel (op st : Byte) (r : Raise) (s : State) : (errorEntry op st r s).lsel = s.lsel := rfl
@[simp] theorem errorEntry_ssel (op st : Byte) (r : Raise) (s : State) : (errorEntry op st r s).ssel = s.ssel := rfl
@[simp] theorem errorEntry_nsel (op st : Byte) (r : Raise) (s : State) : (errorEntry op st r s).nsel = s.nsel := rfl
@[simp] theorem errorEntry_bsel (op st : Byte) (r : Raise) (s : State) : (errorEntry op st r s).bsel = s.bsel := rfl
@[simp] theorem errorEntry_psel (op st : Byte) (r : Raise) (s : State) : (errorEntry op st r s).psel = s.psel := rfl
@[simp] theorem errorEntry_freq (op st : Byte) (r : Raise) (s : State) : (errorEntry op st r s).freq = s.freq := rfl
@[simp] theorem errorEntry_slist (op st : Byte) (r : Raise) (s : State) : (errorEntry op st r s).slist = s.slist := rfl
@[simp] theorem errorEntry_nodes (op st : Byte) (r : Raise) (s : State) : (errorEntry op st r s).nodes = s.nodes := rfl
@[simp] theorem errorEntry_cb (op st : Byte) (r : Raise) (s : State) : (errorEntry op st r s).cb = s.cb := rfl
@[simp] theorem errorEntry_bitbuf (op st : Byte) (r : Raise) (s : State) : (errorEntry op st r s).bitbuf = s.bitbuf := rfl
@[simp] theorem errorEntry_payload (op st : Byte) (r : Raise) (s : State) : (errorEntry op st r s).payload = s.payload := rfl
@[simp] theorem errorEntry_inMem (op st : Byte) (r : Raise) (s : State) : (errorEntry op st r s).inMem = s.inMem := rfl
@[simp] theorem errorEntry_outMem (op st : Byte) (r : Raise) (s : State) : (errorEntry op st r s).outMem = s.outMem := rfl
@[simp] theorem errorEntry_stageIndex (op st : Byte) (r : Raise) (s : State) : (errorEntry op st r s).stageIndex = 0 := rfl
@[simp] theorem errorEntry_walkNode (op st : Byte) (r : Raise) (s : State) : (errorEntry op st r s).walkNode = 0 := rfl
@[simp] theorem errorEntry_walkCount (op st : Byte) (r : Raise) (s : State) : (errorEntry op st r s).walkCount = 0 := rfl
@[simp] theorem errorEntry_resetAsserted (op st : Byte) (r : Raise) (s : State) : (errorEntry op st r s).resetAsserted = s.resetAsserted := rfl
@[simp] theorem errorEntry_inputs (op st : Byte) (r : Raise) (s : State) : (errorEntry op st r s).inputs = s.inputs := rfl
@[simp] theorem errorEntry_replies (op st : Byte) (r : Raise) (s : State) : (errorEntry op st r s).replies = s.replies := rfl
@[simp] theorem errorEntry_engineDelay (op st : Byte) (r : Raise) (s : State) : (errorEntry op st r s).engineDelay = s.engineDelay := rfl
@[simp] theorem errorEntry_draws (op st : Byte) (r : Raise) (s : State) : (errorEntry op st r s).draws = s.draws := rfl
@[simp] theorem errorEntry_epoch (op st : Byte) (r : Raise) (s : State) : (errorEntry op st r s).epoch = s.epoch := rfl
@[simp] theorem errorEntry_outEpoch (op st : Byte) (r : Raise) (s : State) : (errorEntry op st r s).outEpoch = s.outEpoch := rfl

/-! ### accept v s -/

@[simp] theorem accept_capIn (v : Word) (s : State) : (accept v s).capIn = s.capIn := rfl
@[simp] theorem accept_capOut (v : Word) (s : State) : (accept v s).capOut = s.capOut := rfl
@[simp] theorem accept_capBits (v : Word) (s : State) : (accept v s).capBits = s.capBits := rfl
@[simp] theorem accept_cmd (v : Word) (s : State) : (accept v s).cmd = v := rfl
@[simp] theorem accept_busy (v : Word) (s : State) : (accept v s).busy = true := rfl
@[simp] theorem accept_done (v : Word) (s : State) : (accept v s).done = false := rfl
@[simp] theorem accept_error (v : Word) (s : State) : (accept v s).error = false := rfl
@[simp] theorem accept_overrun (v : Word) (s : State) : (accept v s).overrun = s.overrun := rfl
@[simp] theorem accept_slistV (v : Word) (s : State) : (accept v s).slistV = s.slistV := rfl
@[simp] theorem accept_treeV (v : Word) (s : State) : (accept v s).treeV = s.treeV := rfl
@[simp] theorem accept_cbV (v : Word) (s : State) : (accept v s).cbV = s.cbV := rfl
@[simp] theorem accept_bitsV (v : Word) (s : State) : (accept v s).bitsV = s.bitsV := rfl
@[simp] theorem accept_payloadV (v : Word) (s : State) : (accept v s).payloadV = s.payloadV := rfl
@[simp] theorem accept_err (v : Word) (s : State) : (accept v s).err = 0#64 := rfl
@[simp] theorem accept_errInfo (v : Word) (s : State) : (accept v s).errInfo = 0#64 := rfl
@[simp] theorem accept_doneIe (v : Word) (s : State) : (accept v s).doneIe = s.doneIe := rfl
@[simp] theorem accept_errIe (v : Word) (s : State) : (accept v s).errIe = s.errIe := rfl
@[simp] theorem accept_inLen (v : Word) (s : State) : (accept v s).inLen = s.inLen := rfl
@[simp] theorem accept_outLen (v : Word) (s : State) : (accept v s).outLen = s.outLen := rfl
@[simp] theorem accept_symbolCount (v : Word) (s : State) : (accept v s).symbolCount = s.symbolCount := rfl
@[simp] theorem accept_bitLength (v : Word) (s : State) : (accept v s).bitLength = s.bitLength := rfl
@[simp] theorem accept_hcWidth (v : Word) (s : State) : (accept v s).hcWidth = s.hcWidth := rfl
@[simp] theorem accept_nodeCount (v : Word) (s : State) : (accept v s).nodeCount = s.nodeCount := rfl
@[simp] theorem accept_statOrig (v : Word) (s : State) : (accept v s).statOrig = s.statOrig := rfl
@[simp] theorem accept_statBits (v : Word) (s : State) : (accept v s).statBits = s.statBits := rfl
@[simp] theorem accept_statContainer (v : Word) (s : State) : (accept v s).statContainer = s.statContainer := rfl
@[simp] theorem accept_lsel (v : Word) (s : State) : (accept v s).lsel = s.lsel := rfl
@[simp] theorem accept_ssel (v : Word) (s : State) : (accept v s).ssel = s.ssel := rfl
@[simp] theorem accept_nsel (v : Word) (s : State) : (accept v s).nsel = s.nsel := rfl
@[simp] theorem accept_bsel (v : Word) (s : State) : (accept v s).bsel = s.bsel := rfl
@[simp] theorem accept_psel (v : Word) (s : State) : (accept v s).psel = s.psel := rfl
@[simp] theorem accept_freq (v : Word) (s : State) : (accept v s).freq = s.freq := rfl
@[simp] theorem accept_slist (v : Word) (s : State) : (accept v s).slist = s.slist := rfl
@[simp] theorem accept_nodes (v : Word) (s : State) : (accept v s).nodes = s.nodes := rfl
@[simp] theorem accept_cb (v : Word) (s : State) : (accept v s).cb = s.cb := rfl
@[simp] theorem accept_bitbuf (v : Word) (s : State) : (accept v s).bitbuf = s.bitbuf := rfl
@[simp] theorem accept_payload (v : Word) (s : State) : (accept v s).payload = s.payload := rfl
@[simp] theorem accept_inMem (v : Word) (s : State) : (accept v s).inMem = s.inMem := rfl
@[simp] theorem accept_outMem (v : Word) (s : State) : (accept v s).outMem = s.outMem := rfl
@[simp] theorem accept_stageIndex (v : Word) (s : State) : (accept v s).stageIndex = 0 := rfl
@[simp] theorem accept_walkNode (v : Word) (s : State) : (accept v s).walkNode = 0 := rfl
@[simp] theorem accept_walkCount (v : Word) (s : State) : (accept v s).walkCount = 0 := rfl
@[simp] theorem accept_resetAsserted (v : Word) (s : State) : (accept v s).resetAsserted = s.resetAsserted := rfl
@[simp] theorem accept_inputs (v : Word) (s : State) : (accept v s).inputs = s.inputs := rfl
@[simp] theorem accept_replies (v : Word) (s : State) : (accept v s).replies = s.replies := rfl
@[simp] theorem accept_engineDelay (v : Word) (s : State) : (accept v s).engineDelay = Config.freeDelay s.draws := rfl
@[simp] theorem accept_draws (v : Word) (s : State) : (accept v s).draws = s.draws + 1 := rfl
@[simp] theorem accept_epoch (v : Word) (s : State) : (accept v s).epoch = s.epoch := rfl
@[simp] theorem accept_outEpoch (v : Word) (s : State) : (accept v s).outEpoch = s.outEpoch := rfl

/-! ### placeWord v s -/

@[simp] theorem placeWord_capIn (v : Word) (s : State) : (placeWord v s).capIn = s.capIn := rfl
@[simp] theorem placeWord_capOut (v : Word) (s : State) : (placeWord v s).capOut = s.capOut := rfl
@[simp] theorem placeWord_capBits (v : Word) (s : State) : (placeWord v s).capBits = s.capBits := rfl
@[simp] theorem placeWord_cmd (v : Word) (s : State) : (placeWord v s).cmd = v := rfl
@[simp] theorem placeWord_busy (v : Word) (s : State) : (placeWord v s).busy = true := rfl
@[simp] theorem placeWord_done (v : Word) (s : State) : (placeWord v s).done = false := rfl
@[simp] theorem placeWord_error (v : Word) (s : State) : (placeWord v s).error = false := rfl
@[simp] theorem placeWord_overrun (v : Word) (s : State) : (placeWord v s).overrun = s.overrun := rfl
@[simp] theorem placeWord_slistV (v : Word) (s : State) : (placeWord v s).slistV = s.slistV := rfl
@[simp] theorem placeWord_treeV (v : Word) (s : State) : (placeWord v s).treeV = s.treeV := rfl
@[simp] theorem placeWord_cbV (v : Word) (s : State) : (placeWord v s).cbV = s.cbV := rfl
@[simp] theorem placeWord_bitsV (v : Word) (s : State) : (placeWord v s).bitsV = s.bitsV := rfl
@[simp] theorem placeWord_payloadV (v : Word) (s : State) : (placeWord v s).payloadV = s.payloadV := rfl
@[simp] theorem placeWord_err (v : Word) (s : State) : (placeWord v s).err = 0#64 := rfl
@[simp] theorem placeWord_errInfo (v : Word) (s : State) : (placeWord v s).errInfo = 0#64 := rfl
@[simp] theorem placeWord_doneIe (v : Word) (s : State) : (placeWord v s).doneIe = s.doneIe := rfl
@[simp] theorem placeWord_errIe (v : Word) (s : State) : (placeWord v s).errIe = s.errIe := rfl
@[simp] theorem placeWord_inLen (v : Word) (s : State) : (placeWord v s).inLen = s.inLen := rfl
@[simp] theorem placeWord_outLen (v : Word) (s : State) : (placeWord v s).outLen = s.outLen := rfl
@[simp] theorem placeWord_symbolCount (v : Word) (s : State) : (placeWord v s).symbolCount = s.symbolCount := rfl
@[simp] theorem placeWord_bitLength (v : Word) (s : State) : (placeWord v s).bitLength = s.bitLength := rfl
@[simp] theorem placeWord_hcWidth (v : Word) (s : State) : (placeWord v s).hcWidth = s.hcWidth := rfl
@[simp] theorem placeWord_nodeCount (v : Word) (s : State) : (placeWord v s).nodeCount = s.nodeCount := rfl
@[simp] theorem placeWord_statOrig (v : Word) (s : State) : (placeWord v s).statOrig = s.statOrig := rfl
@[simp] theorem placeWord_statBits (v : Word) (s : State) : (placeWord v s).statBits = s.statBits := rfl
@[simp] theorem placeWord_statContainer (v : Word) (s : State) : (placeWord v s).statContainer = s.statContainer := rfl
@[simp] theorem placeWord_lsel (v : Word) (s : State) : (placeWord v s).lsel = s.lsel := rfl
@[simp] theorem placeWord_ssel (v : Word) (s : State) : (placeWord v s).ssel = s.ssel := rfl
@[simp] theorem placeWord_nsel (v : Word) (s : State) : (placeWord v s).nsel = s.nsel := rfl
@[simp] theorem placeWord_bsel (v : Word) (s : State) : (placeWord v s).bsel = s.bsel := rfl
@[simp] theorem placeWord_psel (v : Word) (s : State) : (placeWord v s).psel = s.psel := rfl
@[simp] theorem placeWord_freq (v : Word) (s : State) : (placeWord v s).freq = s.freq := rfl
@[simp] theorem placeWord_slist (v : Word) (s : State) : (placeWord v s).slist = s.slist := rfl
@[simp] theorem placeWord_nodes (v : Word) (s : State) : (placeWord v s).nodes = s.nodes := rfl
@[simp] theorem placeWord_cb (v : Word) (s : State) : (placeWord v s).cb = s.cb := rfl
@[simp] theorem placeWord_bitbuf (v : Word) (s : State) : (placeWord v s).bitbuf = s.bitbuf := rfl
@[simp] theorem placeWord_payload (v : Word) (s : State) : (placeWord v s).payload = s.payload := rfl
@[simp] theorem placeWord_inMem (v : Word) (s : State) : (placeWord v s).inMem = s.inMem := rfl
@[simp] theorem placeWord_outMem (v : Word) (s : State) : (placeWord v s).outMem = s.outMem := rfl
@[simp] theorem placeWord_stageIndex (v : Word) (s : State) : (placeWord v s).stageIndex = 0 := rfl
@[simp] theorem placeWord_walkNode (v : Word) (s : State) : (placeWord v s).walkNode = 0 := rfl
@[simp] theorem placeWord_walkCount (v : Word) (s : State) : (placeWord v s).walkCount = 0 := rfl
@[simp] theorem placeWord_resetAsserted (v : Word) (s : State) : (placeWord v s).resetAsserted = false := rfl
@[simp] theorem placeWord_inputs (v : Word) (s : State) : (placeWord v s).inputs = s.inputs.dropWhile fun op => resetComes [op] := rfl
@[simp] theorem placeWord_replies (v : Word) (s : State) : (placeWord v s).replies = s.replies := rfl
@[simp] theorem placeWord_engineDelay (v : Word) (s : State) : (placeWord v s).engineDelay = 0 := rfl
@[simp] theorem placeWord_draws (v : Word) (s : State) : (placeWord v s).draws = s.draws + 1 := rfl
@[simp] theorem placeWord_epoch (v : Word) (s : State) : (placeWord v s).epoch = s.epoch := rfl
@[simp] theorem placeWord_outEpoch (v : Word) (s : State) : (placeWord v s).outEpoch = s.outEpoch := rfl

/-! ### clearStatus v s -/

@[simp] theorem clearStatus_capIn (v : Word) (s : State) : (clearStatus v s).capIn = s.capIn := rfl
@[simp] theorem clearStatus_capOut (v : Word) (s : State) : (clearStatus v s).capOut = s.capOut := rfl
@[simp] theorem clearStatus_capBits (v : Word) (s : State) : (clearStatus v s).capBits = s.capBits := rfl
@[simp] theorem clearStatus_cmd (v : Word) (s : State) : (clearStatus v s).cmd = s.cmd := rfl
@[simp] theorem clearStatus_busy (v : Word) (s : State) : (clearStatus v s).busy = s.busy := rfl
@[simp] theorem clearStatus_done (v : Word) (s : State) : (clearStatus v s).done = (s.done && !v.getLsbD 1) := rfl
@[simp] theorem clearStatus_error (v : Word) (s : State) : (clearStatus v s).error = (s.error && !v.getLsbD 2) := rfl
@[simp] theorem clearStatus_overrun (v : Word) (s : State) : (clearStatus v s).overrun = (s.overrun && !v.getLsbD 3) := rfl
@[simp] theorem clearStatus_slistV (v : Word) (s : State) : (clearStatus v s).slistV = s.slistV := rfl
@[simp] theorem clearStatus_treeV (v : Word) (s : State) : (clearStatus v s).treeV = s.treeV := rfl
@[simp] theorem clearStatus_cbV (v : Word) (s : State) : (clearStatus v s).cbV = s.cbV := rfl
@[simp] theorem clearStatus_bitsV (v : Word) (s : State) : (clearStatus v s).bitsV = s.bitsV := rfl
@[simp] theorem clearStatus_payloadV (v : Word) (s : State) : (clearStatus v s).payloadV = s.payloadV := rfl
@[simp] theorem clearStatus_err (v : Word) (s : State) : (clearStatus v s).err = s.err := rfl
@[simp] theorem clearStatus_errInfo (v : Word) (s : State) : (clearStatus v s).errInfo = s.errInfo := rfl
@[simp] theorem clearStatus_doneIe (v : Word) (s : State) : (clearStatus v s).doneIe = s.doneIe := rfl
@[simp] theorem clearStatus_errIe (v : Word) (s : State) : (clearStatus v s).errIe = s.errIe := rfl
@[simp] theorem clearStatus_inLen (v : Word) (s : State) : (clearStatus v s).inLen = s.inLen := rfl
@[simp] theorem clearStatus_outLen (v : Word) (s : State) : (clearStatus v s).outLen = s.outLen := rfl
@[simp] theorem clearStatus_symbolCount (v : Word) (s : State) : (clearStatus v s).symbolCount = s.symbolCount := rfl
@[simp] theorem clearStatus_bitLength (v : Word) (s : State) : (clearStatus v s).bitLength = s.bitLength := rfl
@[simp] theorem clearStatus_hcWidth (v : Word) (s : State) : (clearStatus v s).hcWidth = s.hcWidth := rfl
@[simp] theorem clearStatus_nodeCount (v : Word) (s : State) : (clearStatus v s).nodeCount = s.nodeCount := rfl
@[simp] theorem clearStatus_statOrig (v : Word) (s : State) : (clearStatus v s).statOrig = s.statOrig := rfl
@[simp] theorem clearStatus_statBits (v : Word) (s : State) : (clearStatus v s).statBits = s.statBits := rfl
@[simp] theorem clearStatus_statContainer (v : Word) (s : State) : (clearStatus v s).statContainer = s.statContainer := rfl
@[simp] theorem clearStatus_lsel (v : Word) (s : State) : (clearStatus v s).lsel = s.lsel := rfl
@[simp] theorem clearStatus_ssel (v : Word) (s : State) : (clearStatus v s).ssel = s.ssel := rfl
@[simp] theorem clearStatus_nsel (v : Word) (s : State) : (clearStatus v s).nsel = s.nsel := rfl
@[simp] theorem clearStatus_bsel (v : Word) (s : State) : (clearStatus v s).bsel = s.bsel := rfl
@[simp] theorem clearStatus_psel (v : Word) (s : State) : (clearStatus v s).psel = s.psel := rfl
@[simp] theorem clearStatus_freq (v : Word) (s : State) : (clearStatus v s).freq = s.freq := rfl
@[simp] theorem clearStatus_slist (v : Word) (s : State) : (clearStatus v s).slist = s.slist := rfl
@[simp] theorem clearStatus_nodes (v : Word) (s : State) : (clearStatus v s).nodes = s.nodes := rfl
@[simp] theorem clearStatus_cb (v : Word) (s : State) : (clearStatus v s).cb = s.cb := rfl
@[simp] theorem clearStatus_bitbuf (v : Word) (s : State) : (clearStatus v s).bitbuf = s.bitbuf := rfl
@[simp] theorem clearStatus_payload (v : Word) (s : State) : (clearStatus v s).payload = s.payload := rfl
@[simp] theorem clearStatus_inMem (v : Word) (s : State) : (clearStatus v s).inMem = s.inMem := rfl
@[simp] theorem clearStatus_outMem (v : Word) (s : State) : (clearStatus v s).outMem = s.outMem := rfl
@[simp] theorem clearStatus_stageIndex (v : Word) (s : State) : (clearStatus v s).stageIndex = s.stageIndex := rfl
@[simp] theorem clearStatus_walkNode (v : Word) (s : State) : (clearStatus v s).walkNode = s.walkNode := rfl
@[simp] theorem clearStatus_walkCount (v : Word) (s : State) : (clearStatus v s).walkCount = s.walkCount := rfl
@[simp] theorem clearStatus_resetAsserted (v : Word) (s : State) : (clearStatus v s).resetAsserted = s.resetAsserted := rfl
@[simp] theorem clearStatus_inputs (v : Word) (s : State) : (clearStatus v s).inputs = s.inputs := rfl
@[simp] theorem clearStatus_replies (v : Word) (s : State) : (clearStatus v s).replies = s.replies := rfl
@[simp] theorem clearStatus_engineDelay (v : Word) (s : State) : (clearStatus v s).engineDelay = s.engineDelay := rfl
@[simp] theorem clearStatus_draws (v : Word) (s : State) : (clearStatus v s).draws = s.draws := rfl
@[simp] theorem clearStatus_epoch (v : Word) (s : State) : (clearStatus v s).epoch = s.epoch := rfl
@[simp] theorem clearStatus_outEpoch (v : Word) (s : State) : (clearStatus v s).outEpoch = s.outEpoch := rfl

/-! ### s.draw -/

@[simp] theorem draw_capIn (s : State) : (s.draw).capIn = s.capIn := rfl
@[simp] theorem draw_capOut (s : State) : (s.draw).capOut = s.capOut := rfl
@[simp] theorem draw_capBits (s : State) : (s.draw).capBits = s.capBits := rfl
@[simp] theorem draw_cmd (s : State) : (s.draw).cmd = s.cmd := rfl
@[simp] theorem draw_busy (s : State) : (s.draw).busy = s.busy := rfl
@[simp] theorem draw_done (s : State) : (s.draw).done = s.done := rfl
@[simp] theorem draw_error (s : State) : (s.draw).error = s.error := rfl
@[simp] theorem draw_overrun (s : State) : (s.draw).overrun = s.overrun := rfl
@[simp] theorem draw_slistV (s : State) : (s.draw).slistV = s.slistV := rfl
@[simp] theorem draw_treeV (s : State) : (s.draw).treeV = s.treeV := rfl
@[simp] theorem draw_cbV (s : State) : (s.draw).cbV = s.cbV := rfl
@[simp] theorem draw_bitsV (s : State) : (s.draw).bitsV = s.bitsV := rfl
@[simp] theorem draw_payloadV (s : State) : (s.draw).payloadV = s.payloadV := rfl
@[simp] theorem draw_err (s : State) : (s.draw).err = s.err := rfl
@[simp] theorem draw_errInfo (s : State) : (s.draw).errInfo = s.errInfo := rfl
@[simp] theorem draw_doneIe (s : State) : (s.draw).doneIe = s.doneIe := rfl
@[simp] theorem draw_errIe (s : State) : (s.draw).errIe = s.errIe := rfl
@[simp] theorem draw_inLen (s : State) : (s.draw).inLen = s.inLen := rfl
@[simp] theorem draw_outLen (s : State) : (s.draw).outLen = s.outLen := rfl
@[simp] theorem draw_symbolCount (s : State) : (s.draw).symbolCount = s.symbolCount := rfl
@[simp] theorem draw_bitLength (s : State) : (s.draw).bitLength = s.bitLength := rfl
@[simp] theorem draw_hcWidth (s : State) : (s.draw).hcWidth = s.hcWidth := rfl
@[simp] theorem draw_nodeCount (s : State) : (s.draw).nodeCount = s.nodeCount := rfl
@[simp] theorem draw_statOrig (s : State) : (s.draw).statOrig = s.statOrig := rfl
@[simp] theorem draw_statBits (s : State) : (s.draw).statBits = s.statBits := rfl
@[simp] theorem draw_statContainer (s : State) : (s.draw).statContainer = s.statContainer := rfl
@[simp] theorem draw_lsel (s : State) : (s.draw).lsel = s.lsel := rfl
@[simp] theorem draw_ssel (s : State) : (s.draw).ssel = s.ssel := rfl
@[simp] theorem draw_nsel (s : State) : (s.draw).nsel = s.nsel := rfl
@[simp] theorem draw_bsel (s : State) : (s.draw).bsel = s.bsel := rfl
@[simp] theorem draw_psel (s : State) : (s.draw).psel = s.psel := rfl
@[simp] theorem draw_freq (s : State) : (s.draw).freq = s.freq := rfl
@[simp] theorem draw_slist (s : State) : (s.draw).slist = s.slist := rfl
@[simp] theorem draw_nodes (s : State) : (s.draw).nodes = s.nodes := rfl
@[simp] theorem draw_cb (s : State) : (s.draw).cb = s.cb := rfl
@[simp] theorem draw_bitbuf (s : State) : (s.draw).bitbuf = s.bitbuf := rfl
@[simp] theorem draw_payload (s : State) : (s.draw).payload = s.payload := rfl
@[simp] theorem draw_inMem (s : State) : (s.draw).inMem = s.inMem := rfl
@[simp] theorem draw_outMem (s : State) : (s.draw).outMem = s.outMem := rfl
@[simp] theorem draw_stageIndex (s : State) : (s.draw).stageIndex = s.stageIndex := rfl
@[simp] theorem draw_walkNode (s : State) : (s.draw).walkNode = s.walkNode := rfl
@[simp] theorem draw_walkCount (s : State) : (s.draw).walkCount = s.walkCount := rfl
@[simp] theorem draw_resetAsserted (s : State) : (s.draw).resetAsserted = s.resetAsserted := rfl
@[simp] theorem draw_inputs (s : State) : (s.draw).inputs = s.inputs := rfl
@[simp] theorem draw_replies (s : State) : (s.draw).replies = s.replies := rfl
@[simp] theorem draw_engineDelay (s : State) : (s.draw).engineDelay = s.engineDelay := rfl
@[simp] theorem draw_draws (s : State) : (s.draw).draws = s.draws + 1 := rfl
@[simp] theorem draw_epoch (s : State) : (s.draw).epoch = s.epoch := rfl
@[simp] theorem draw_outEpoch (s : State) : (s.draw).outEpoch = s.outEpoch := rfl

/-! ### answer was r -/

@[simp] theorem answer_capIn (was : Bool) (r : Reply × State) : (answer was r).capIn = r.2.capIn := rfl
@[simp] theorem answer_capOut (was : Bool) (r : Reply × State) : (answer was r).capOut = r.2.capOut := rfl
@[simp] theorem answer_capBits (was : Bool) (r : Reply × State) : (answer was r).capBits = r.2.capBits := rfl
@[simp] theorem answer_cmd (was : Bool) (r : Reply × State) : (answer was r).cmd = r.2.cmd := rfl
@[simp] theorem answer_busy (was : Bool) (r : Reply × State) : (answer was r).busy = r.2.busy := rfl
@[simp] theorem answer_done (was : Bool) (r : Reply × State) : (answer was r).done = r.2.done := rfl
@[simp] theorem answer_error (was : Bool) (r : Reply × State) : (answer was r).error = r.2.error := rfl
@[simp] theorem answer_overrun (was : Bool) (r : Reply × State) : (answer was r).overrun = r.2.overrun := rfl
@[simp] theorem answer_slistV (was : Bool) (r : Reply × State) : (answer was r).slistV = r.2.slistV := rfl
@[simp] theorem answer_treeV (was : Bool) (r : Reply × State) : (answer was r).treeV = r.2.treeV := rfl
@[simp] theorem answer_cbV (was : Bool) (r : Reply × State) : (answer was r).cbV = r.2.cbV := rfl
@[simp] theorem answer_bitsV (was : Bool) (r : Reply × State) : (answer was r).bitsV = r.2.bitsV := rfl
@[simp] theorem answer_payloadV (was : Bool) (r : Reply × State) : (answer was r).payloadV = r.2.payloadV := rfl
@[simp] theorem answer_err (was : Bool) (r : Reply × State) : (answer was r).err = r.2.err := rfl
@[simp] theorem answer_errInfo (was : Bool) (r : Reply × State) : (answer was r).errInfo = r.2.errInfo := rfl
@[simp] theorem answer_doneIe (was : Bool) (r : Reply × State) : (answer was r).doneIe = r.2.doneIe := rfl
@[simp] theorem answer_errIe (was : Bool) (r : Reply × State) : (answer was r).errIe = r.2.errIe := rfl
@[simp] theorem answer_inLen (was : Bool) (r : Reply × State) : (answer was r).inLen = r.2.inLen := rfl
@[simp] theorem answer_outLen (was : Bool) (r : Reply × State) : (answer was r).outLen = r.2.outLen := rfl
@[simp] theorem answer_symbolCount (was : Bool) (r : Reply × State) : (answer was r).symbolCount = r.2.symbolCount := rfl
@[simp] theorem answer_bitLength (was : Bool) (r : Reply × State) : (answer was r).bitLength = r.2.bitLength := rfl
@[simp] theorem answer_hcWidth (was : Bool) (r : Reply × State) : (answer was r).hcWidth = r.2.hcWidth := rfl
@[simp] theorem answer_nodeCount (was : Bool) (r : Reply × State) : (answer was r).nodeCount = r.2.nodeCount := rfl
@[simp] theorem answer_statOrig (was : Bool) (r : Reply × State) : (answer was r).statOrig = r.2.statOrig := rfl
@[simp] theorem answer_statBits (was : Bool) (r : Reply × State) : (answer was r).statBits = r.2.statBits := rfl
@[simp] theorem answer_statContainer (was : Bool) (r : Reply × State) : (answer was r).statContainer = r.2.statContainer := rfl
@[simp] theorem answer_lsel (was : Bool) (r : Reply × State) : (answer was r).lsel = r.2.lsel := rfl
@[simp] theorem answer_ssel (was : Bool) (r : Reply × State) : (answer was r).ssel = r.2.ssel := rfl
@[simp] theorem answer_nsel (was : Bool) (r : Reply × State) : (answer was r).nsel = r.2.nsel := rfl
@[simp] theorem answer_bsel (was : Bool) (r : Reply × State) : (answer was r).bsel = r.2.bsel := rfl
@[simp] theorem answer_psel (was : Bool) (r : Reply × State) : (answer was r).psel = r.2.psel := rfl
@[simp] theorem answer_freq (was : Bool) (r : Reply × State) : (answer was r).freq = r.2.freq := rfl
@[simp] theorem answer_slist (was : Bool) (r : Reply × State) : (answer was r).slist = r.2.slist := rfl
@[simp] theorem answer_nodes (was : Bool) (r : Reply × State) : (answer was r).nodes = r.2.nodes := rfl
@[simp] theorem answer_cb (was : Bool) (r : Reply × State) : (answer was r).cb = r.2.cb := rfl
@[simp] theorem answer_bitbuf (was : Bool) (r : Reply × State) : (answer was r).bitbuf = r.2.bitbuf := rfl
@[simp] theorem answer_payload (was : Bool) (r : Reply × State) : (answer was r).payload = r.2.payload := rfl
@[simp] theorem answer_inMem (was : Bool) (r : Reply × State) : (answer was r).inMem = r.2.inMem := rfl
@[simp] theorem answer_outMem (was : Bool) (r : Reply × State) : (answer was r).outMem = r.2.outMem := rfl
@[simp] theorem answer_stageIndex (was : Bool) (r : Reply × State) : (answer was r).stageIndex = r.2.stageIndex := rfl
@[simp] theorem answer_walkNode (was : Bool) (r : Reply × State) : (answer was r).walkNode = r.2.walkNode := rfl
@[simp] theorem answer_walkCount (was : Bool) (r : Reply × State) : (answer was r).walkCount = r.2.walkCount := rfl
@[simp] theorem answer_resetAsserted (was : Bool) (r : Reply × State) : (answer was r).resetAsserted = r.2.resetAsserted := rfl
@[simp] theorem answer_inputs (was : Bool) (r : Reply × State) : (answer was r).inputs = r.2.inputs := rfl
@[simp] theorem answer_replies (was : Bool) (r : Reply × State) : (answer was r).replies = r.1 :: r.2.replies := rfl
@[simp] theorem answer_engineDelay (was : Bool) (r : Reply × State) : (answer was r).engineDelay = if was then r.2.engineDelay - 1 else r.2.engineDelay := rfl
@[simp] theorem answer_draws (was : Bool) (r : Reply × State) : (answer was r).draws = r.2.draws := rfl
@[simp] theorem answer_epoch (was : Bool) (r : Reply × State) : (answer was r).epoch = r.2.epoch := rfl
@[simp] theorem answer_outEpoch (was : Bool) (r : Reply × State) : (answer was r).outEpoch = r.2.outEpoch := rfl

end Sys2Proof.Machine
end

