-- ==== Sys2Proof/Laws/Tree.lean ====
section
/-! SUPPORT. The three ways of keeping the available nodes take the same nodes, so the two variants of BUILD give the
one tree of 41_tree.md R151 (R153 to R155). -/

namespace Sys2Proof.Machine

/-- The order of 41_tree.md R150 in its derived form: by frequency, then by node number. -/
abbrev Item.lt (x y : Item) : Prop := x.freq < y.freq ∨ (x.freq = y.freq ∧ x.ix < y.ix)

theorem keyLt_iff (n : Nat) (x y : Item) : keyLt n x y = true ↔ x.lt y := by
  by_cases hx : x.ix < n <;> by_cases hy : y.ix < n <;> simp [keyLt, hx, hy] <;> omega

/-- Available nodes have distinct numbers, all below the next one. -/
def Fresh (next : Nat) (l : List Item) : Prop := (l.map (·.ix)).Nodup ∧ ∀ x ∈ l, x.ix < next

theorem Fresh.perm {next : Nat} {l l' : List Item} (h : Fresh next l) (p : l.Perm l') : Fresh next l' :=
  ⟨((p.map _).nodup_iff).mp h.1, fun x hx => h.2 x (p.mem_iff.mpr hx)⟩

theorem Fresh.tail {next : Nat} {x : Item} {l : List Item} (h : Fresh next (x :: l)) : Fresh next l :=
  ⟨(List.nodup_cons.mp h.1).2, fun y hy => h.2 y (List.mem_cons_of_mem _ hy)⟩

theorem Fresh.put {next : Nat} {l : List Item} (h : Fresh next l) (f : Nat) : Fresh (next + 1) (⟨f, next⟩ :: l) := by
  refine ⟨List.nodup_cons.mpr ⟨fun hm => ?_, h.1⟩, fun x hx => ?_⟩
  · obtain ⟨y, hy, e⟩ := List.mem_map.mp hm
    have := h.2 y hy
    simp only at e; omega
  · rcases List.mem_cons.mp hx with rfl | hx
    · exact Nat.lt_succ_self _
    · exact Nat.lt_succ_of_lt (h.2 x hx)

/-- In a list with distinct numbers, a first element that none of the others precedes precedes them all. -/
theorem Fresh.lt_of_not_lt {next : Nat} {x y : Item} {l : List Item} (h : Fresh next (x :: l)) (hy : y ∈ l)
    (hn : ¬ y.lt x) : x.lt y := by
  have : x.ix ≠ y.ix := fun e => (List.nodup_cons.mp h.1).1 (List.mem_map.mpr ⟨y, hy, e.symm⟩)
  simp only [Item.lt] at *; omega

/-- What one merge of 41_tree.md R151 needs of a way to keep the available nodes: `G next q` says that `q` holds the nodes
`toL q`, numbered below `next`, in good order; then the two nodes taken are the two least, in order. -/
structure Merges {Q : Type} (take : Q → Option (Item × Q)) (put : Item → Q → Q) (toL : Q → List Item)
    (G : Nat → Q → Prop) : Prop where
  fresh : ∀ next q, G next q → Fresh next (toL q)
  step : ∀ next q, G next q → 2 ≤ (toL q).length → ∃ a q1 b q2,
    take q = some (a, q1) ∧ take q1 = some (b, q2) ∧ (toL q).Perm (a :: b :: toL q2) ∧
    (∀ y ∈ b :: toL q2, a.lt y) ∧ (∀ y ∈ toL q2, b.lt y) ∧
    G (next + 1) (put ⟨a.freq + b.freq, next⟩ q2) ∧
    (toL (put ⟨a.freq + b.freq, next⟩ q2)).Perm (⟨a.freq + b.freq, next⟩ :: toL q2)

theorem perm_cons_least {a b : Item} {l l' : List Item} (p : (a :: l).Perm (b :: l')) (ha : ∀ y ∈ l, a.lt y)
    (hb : ∀ y ∈ l', b.lt y) : a = b ∧ l.Perm l' := by
  have e : a = b := by
    rcases List.mem_cons.mp (p.mem_iff.mp (List.mem_cons_self ..)) with h | h
    · exact h
    · rcases List.mem_cons.mp (p.mem_iff.mpr (List.mem_cons_self ..)) with h' | h'
      · exact h'.symm
      · have h1 := hb a h
        have h2 := ha b h'
        simp only [Item.lt] at h1 h2; omega
  subst e
  exact ⟨rfl, List.Perm.cons_inv p⟩

/-- Two ways that hold the same nodes make the same branches. -/
theorem mergeLoop_eq {Q R : Type} {tq : Q → Option (Item × Q)} {pq : Item → Q → Q} {lq : Q → List Item} {gq : Nat → Q → Prop}
    {tr : R → Option (Item × R)} {pr : Item → R → R} {lr : R → List Item} {gr : Nat → R → Prop}
    (hq : Merges tq pq lq gq) (hr : Merges tr pr lr gr) :
    ∀ k next q r, gq next q → gr next r → (lq q).Perm (lr r) → k + 1 ≤ (lq q).length →
      mergeLoop tq pq k next q = mergeLoop tr pr k next r := by
  intro k
  induction k with
  | zero => intros; rfl
  | succ k ih =>
    intro next q r hgq hgr p hk
    obtain ⟨a, q1, b, q2, e1, e2, p1, m1, m2, g1, pp1⟩ := hq.step next q hgq (by omega)
    obtain ⟨c, r1, d, r2, f1, f2, p2, n1, n2, g2, pp2⟩ := hr.step next r hgr (by rw [← p.length_eq]; omega)
    obtain ⟨rfl, pt⟩ := perm_cons_least ((p1.symm.trans p).trans p2) m1 n1
    obtain ⟨rfl, pu⟩ := perm_cons_least pt m2 n2
    simp only [mergeLoop, e1, e2, f1, f2]
    congr 1
    refine ih _ _ _ g1 g2 (pp1.trans ((pu.cons _).trans pp2.symm)) ?_
    have := p1.length_eq
    have := pp1.length_eq
    simp only [List.length_cons] at *
    omega

/-! ### The plain set -/

theorem takeLeast_spec (n : Nat) (l : List Item) (h : l ≠ []) :
    ∃ a rest, takeLeast n l = some (a, rest) ∧ l.Perm (a :: rest) ∧ ∀ y ∈ rest, ¬ y.lt a := by
  induction l with
  | nil => exact absurd rfl h
  | cons x xs ih =>
    by_cases hx : xs = []
    · subst hx; exact ⟨x, [], rfl, List.Perm.refl _, by simp⟩
    · obtain ⟨m, rest, e, p, hm⟩ := ih hx
      by_cases hk : keyLt n x m = true
      · refine ⟨x, xs, by simp [takeLeast, e, hk], List.Perm.refl _, fun y hy => ?_⟩
        rw [keyLt_iff] at hk
        rcases List.mem_cons.mp (p.mem_iff.mp hy) with rfl | hy
        · simp only [Item.lt] at *; omega
        · have := hm y hy; simp only [Item.lt] at *; omega
      · refine ⟨m, x :: rest, by simp [takeLeast, e, hk], (p.cons x).trans (List.Perm.swap ..), fun y hy => ?_⟩
        rw [keyLt_iff] at hk
        rcases List.mem_cons.mp hy with rfl | hy
        · exact hk
        · exact hm y hy

theorem merges_least (n : Nat) : Merges (takeLeast n) List.cons (fun l => l) Fresh where
  fresh _ _ h := h
  step next q h hl := by
    have hq : q ≠ [] := by rintro rfl; simp at hl
    obtain ⟨a, q1, e1, p1, m1⟩ := takeLeast_spec n q hq
    have hq1 : q1 ≠ [] := by rintro rfl; have := p1.length_eq; simp at this; omega
    obtain ⟨b, q2, e2, p2, m2⟩ := takeLeast_spec n q1 hq1
    have f1 := h.perm p1
    have f2 := f1.tail.perm p2
    have m1' : ∀ y ∈ b :: q2, ¬ y.lt a := fun y hy => m1 y (p2.mem_iff.mpr hy)
    exact ⟨a, q1, b, q2, e1, e2, p1.trans (p2.cons a),
      fun y hy => (h.perm (p1.trans (p2.cons a))).lt_of_not_lt hy (m1' y hy),
      fun y hy => f2.lt_of_not_lt hy (m2 y hy), f2.tail.put _, List.Perm.refl _⟩

/-! ### Two queues -/

/-- The nodes of the two queues. -/
def Queues.toList (q : Queues) : List Item := q.leaves ++ q.branches

/-- Both queues are in order, and every leaf is numbered before every branch. -/
structure QueuesOk (n next : Nat) (q : Queues) : Prop where
  leaves : q.leaves.Pairwise Item.lt
  branches : q.branches.Pairwise Item.lt
  leafIx : ∀ x ∈ q.leaves, x.ix < n
  branchIx : ∀ x ∈ q.branches, n ≤ x.ix ∧ x.ix < next
  high : n ≤ next

theorem takeFront_spec {n next : Nat} {q : Queues} (h : QueuesOk n next q) (hq : q.toList ≠ []) :
    ∃ a q1, takeFront q = some (a, q1) ∧ q.toList.Perm (a :: q1.toList) ∧ (∀ y ∈ q1.toList, a.lt y) ∧ QueuesOk n next q1 ∧
      ∀ x ∈ q1.branches, x ∈ q.branches := by
  obtain ⟨ls, bs⟩ := q
  obtain ⟨hl, hb, hli, hbi, hn⟩ := h
  simp only at hl hb hli hbi
  cases ls with
  | nil =>
    cases bs with
    | nil => simp [Queues.toList] at hq
    | cons b bs =>
      obtain ⟨hb1, hb2⟩ := List.pairwise_cons.mp hb
      exact ⟨b, ⟨[], bs⟩, rfl, List.Perm.refl _, by simpa [Queues.toList] using hb1,
        ⟨hl, hb2, hli, fun x hx => hbi x (List.mem_cons_of_mem _ hx), hn⟩, fun x hx => List.mem_cons_of_mem _ hx⟩
  | cons l ls =>
    obtain ⟨hl1, hl2⟩ := List.pairwise_cons.mp hl
    cases bs with
    | nil =>
      exact ⟨l, ⟨ls, []⟩, rfl, List.Perm.refl _, by simpa [Queues.toList] using hl1,
        ⟨hl2, hb, fun x hx => hli x (List.mem_cons_of_mem _ hx), hbi, hn⟩, fun x hx => hx⟩
    | cons b bs =>
      obtain ⟨hb1, hb2⟩ := List.pairwise_cons.mp hb
      have li := hli l (List.mem_cons_self ..)
      have bi := hbi b (List.mem_cons_self ..)
      by_cases hf : l.freq ≤ b.freq
      · have hlb : l.lt b := by simp only [Item.lt]; omega
        refine ⟨l, ⟨ls, b :: bs⟩, by simp [takeFront, hf], List.Perm.refl _, fun y hy => ?_,
          ⟨hl2, hb, fun x hx => hli x (List.mem_cons_of_mem _ hx), hbi, hn⟩, fun x hx => hx⟩
        rcases List.mem_append.mp hy with hy | hy
        · exact hl1 y hy
        · rcases List.mem_cons.mp hy with rfl | hy
          · exact hlb
          · have := hb1 y hy; simp only [Item.lt] at *; omega
      · have hbl : b.lt l := by simp only [Item.lt]; omega
        refine ⟨b, ⟨l :: ls, bs⟩, by simp [takeFront, hf], List.perm_middle, fun y hy => ?_,
          ⟨hl, hb2, hli, fun x hx => hbi x (List.mem_cons_of_mem _ hx), hn⟩, fun x hx => List.mem_cons_of_mem _ hx⟩
        rcases List.mem_append.mp hy with hy | hy
        · rcases List.mem_cons.mp hy with rfl | hy
          · exact hbl
          · have := hl1 y hy; simp only [Item.lt] at *; omega
        · exact hb1 y hy

/-- The invariant of the two queues (41_tree.md R155's argument): every queued branch is at most twice the least
available frequency, so a new branch belongs at the end. -/
def QueuesGood (n next : Nat) (q : Queues) : Prop :=
  QueuesOk n next q ∧ Fresh next q.toList ∧ ∃ m, (∀ y ∈ q.toList, m ≤ y.freq) ∧ ∀ x ∈ q.branches, x.freq ≤ 2 * m

theorem merges_queues (n : Nat) : Merges takeFront putBack Queues.toList (QueuesGood n) where
  fresh _ _ h := h.2.1
  step next q h hl := by
    obtain ⟨hok, hf, m, hm1, hm2⟩ := h
    obtain ⟨a, q1, e1, p1, m1, ok1, s1⟩ := takeFront_spec hok (by rintro e; simp [e] at hl)
    obtain ⟨b, q2, e2, p2, m2, ok2, s2⟩ := takeFront_spec ok1 (by rintro e; have := p1.length_eq; simp [e] at this; omega)
    have p := p1.trans (p2.cons a)
    have f2 : Fresh next q2.toList := (hf.perm p).tail.tail
    have am : m ≤ a.freq := hm1 a (p.mem_iff.mpr (by simp))
    have ab : a.freq ≤ b.freq := by
      have := m1 b (p2.mem_iff.mpr (by simp)); simp only [Item.lt] at this; omega
    have pb : (putBack ⟨a.freq + b.freq, next⟩ q2).toList.Perm (⟨a.freq + b.freq, next⟩ :: q2.toList) := by
      simp only [putBack, Queues.toList, ← List.append_assoc]
      exact List.perm_append_singleton _ _
    refine ⟨a, q1, b, q2, e1, e2, p, fun y hy => m1 y (p2.mem_iff.mpr hy), m2, ⟨⟨ok2.leaves, ?_, ok2.leafIx, ?_, ?_⟩, ?_, ?_⟩, pb⟩
    · refine List.pairwise_append.mpr ⟨ok2.branches, List.pairwise_singleton .., fun x hx y hy => ?_⟩
      obtain rfl := List.mem_singleton.mp hy
      have := hm2 x (s1 x (s2 x hx))
      have := ok2.branchIx x hx
      simp only [Item.lt]; omega
    · intro x hx
      rcases List.mem_append.mp hx with hx | hx
      · have := ok2.branchIx x hx; omega
      · obtain rfl := List.mem_singleton.mp hx
        have := ok2.high
        exact ⟨this, Nat.lt_succ_self _⟩
    · have := ok2.high; omega
    · exact (f2.put _).perm pb.symm
    · refine ⟨b.freq, fun y hy => ?_, fun x hx => ?_⟩
      · rcases List.mem_cons.mp (pb.mem_iff.mp hy) with rfl | hy
        · simp
        · have := m2 y hy; simp only [Item.lt] at this; omega
      · rcases List.mem_append.mp hx with hx | hx
        · have := hm2 x (s1 x (s2 x hx)); omega
        · obtain rfl := List.mem_singleton.mp hx
          simp only; omega

/-! ### A binary heap -/

/-- The nodes of a heap. -/
def Heap.toList : Heap → List Item
  | .empty => []
  | .node l x r => x :: (l.toList ++ r.toList)

/-- No node precedes the root of a heap it is in. -/
def Heap.ordered : Heap → Prop
  | .empty => True
  | .node l x r => (∀ y ∈ l.toList ++ r.toList, ¬ y.lt x) ∧ l.ordered ∧ r.ordered

theorem heapInsert_spec (n : Nat) (x : Item) (h : Heap) (ho : h.ordered) :
    (heapInsert n x h).toList.Perm (x :: h.toList) ∧ (heapInsert n x h).ordered := by
  induction h generalizing x with
  | empty => exact ⟨List.Perm.refl _, by simp [heapInsert, Heap.ordered, Heap.toList]⟩
  | node l y r _ ihr =>
    obtain ⟨hy, hl, hr⟩ := ho
    by_cases hk : keyLt n x y = true
    · obtain ⟨p, o⟩ := ihr y hr
      simp only [heapInsert, hk, if_true, Heap.toList, Heap.ordered]
      rw [keyLt_iff] at hk
      have q : ((heapInsert n y r).toList ++ l.toList).Perm (y :: (l.toList ++ r.toList)) :=
        (p.append_right _).trans ((List.perm_append_comm).cons y)
      refine ⟨q.cons x, fun z hz => ?_, o, hl⟩
      rcases List.mem_cons.mp (q.mem_iff.mp hz) with rfl | hz
      · simp only [Item.lt] at *; omega
      · have := hy z hz; simp only [Item.lt] at *; omega
    · obtain ⟨p, o⟩ := ihr x hr
      simp only [heapInsert, hk, Bool.false_eq_true, if_false, Heap.toList, Heap.ordered]
      rw [keyLt_iff] at hk
      have q : ((heapInsert n x r).toList ++ l.toList).Perm (x :: (l.toList ++ r.toList)) :=
        (p.append_right _).trans ((List.perm_append_comm).cons x)
      refine ⟨(q.cons y).trans (List.Perm.swap ..), fun z hz => ?_, o, hl⟩
      rcases List.mem_cons.mp (q.mem_iff.mp hz) with rfl | hz
      · exact hk
      · exact hy z hz

theorem heapPopLast_spec (l : Heap) (y : Item) (r : Heap) (ho : (Heap.node l y r).ordered) :
    (Heap.node l y r).toList.Perm ((heapPopLast l y r).1 :: (heapPopLast l y r).2.toList) ∧ (heapPopLast l y r).2.ordered := by
  induction l generalizing y r with
  | empty => exact ⟨by simp [heapPopLast, Heap.toList], ho.2.2⟩
  | node l' y' r' ih _ =>
    obtain ⟨hy, hl, hr⟩ := ho
    obtain ⟨p, o⟩ := ih y' r' hl
    have q : ((Heap.node l' y' r').toList ++ r.toList).Perm
        ((heapPopLast l' y' r').1 :: (r.toList ++ (heapPopLast l' y' r').2.toList)) :=
      (p.append_right _).trans (List.perm_append_comm.cons _)
    refine ⟨?_, ?_, hr, o⟩
    · exact (q.cons y).trans (List.Perm.swap ..)
    · intro z hz
      exact hy z (q.mem_iff.mpr (List.mem_cons_of_mem _ hz))

theorem heapReplaceRoot_spec (n : Nat) (x : Item) (h : Heap) : ∀ l y r, h = .node l y r → l.ordered → r.ordered →
    (heapReplaceRoot n x h).toList.Perm (x :: (l.toList ++ r.toList)) ∧ (heapReplaceRoot n x h).ordered := by
  induction h with
  | empty => intro l y r e; cases e
  | node l y r ihl ihr =>
    rintro _ _ _ ⟨rfl⟩ hl hr
    have lt_trans' : ∀ {u v w : Item}, ¬ v.lt u → ¬ w.lt v → ¬ w.lt u := by
      intro u v w; simp only [Item.lt]; omega
    have lt_asymm' : ∀ {u v : Item}, u.lt v → ¬ v.lt u := by intro u v; simp only [Item.lt]; omega
    cases l with
    | empty =>
      cases r with
      | empty => exact ⟨List.Perm.refl _, by simp [heapReplaceRoot, Heap.ordered, Heap.toList]⟩
      | node rl ry rr =>
        obtain ⟨p, o⟩ := ihr _ _ _ rfl hr.2.1 hr.2.2
        by_cases hk : keyLt n ry x = true
        · simp only [heapReplaceRoot, hk, if_true, Heap.toList, Heap.ordered, List.nil_append]
          rw [keyLt_iff] at hk
          refine ⟨(p.cons ry).trans (List.Perm.swap ..), fun z hz => ?_, trivial, o⟩
          rcases List.mem_cons.mp (p.mem_iff.mp hz) with rfl | hz
          · exact lt_asymm' hk
          · exact hr.1 z hz
        · simp only [heapReplaceRoot, hk, Bool.false_eq_true, if_false, Heap.toList, Heap.ordered, List.nil_append]
          rw [keyLt_iff] at hk
          refine ⟨List.Perm.refl _, fun z hz => ?_, trivial, hr⟩
          rcases List.mem_cons.mp hz with rfl | hz
          · exact hk
          · exact lt_trans' hk (hr.1 z hz)
    | node ll ly lr =>
      obtain ⟨pl, ol⟩ := ihl _ _ _ rfl hl.2.1 hl.2.2
      cases r with
      | empty =>
        by_cases hk : keyLt n ly x = true
        · simp only [heapReplaceRoot, hk, if_true, Heap.toList, Heap.ordered, List.append_nil]
          rw [keyLt_iff] at hk
          refine ⟨(pl.cons ly).trans (List.Perm.swap ..), fun z hz => ?_, ol, trivial⟩
          rcases List.mem_cons.mp (pl.mem_iff.mp hz) with rfl | hz
          · exact lt_asymm' hk
          · exact hl.1 z hz
        · simp only [heapReplaceRoot, hk, Bool.false_eq_true, if_false, Heap.toList, Heap.ordered, List.append_nil]
          rw [keyLt_iff] at hk
          refine ⟨List.Perm.refl _, fun z hz => ?_, hl, trivial⟩
          rcases List.mem_cons.mp hz with rfl | hz
          · exact hk
          · exact lt_trans' hk (hl.1 z hz)
      | node rl ry rr =>
        obtain ⟨pr, or⟩ := ihr _ _ _ rfl hr.2.1 hr.2.2
        have inL : ∀ z ∈ (Heap.node ll ly lr).toList, ¬ z.lt ly := fun z hz => by
          rcases List.mem_cons.mp hz with rfl | hz
          · simp only [Item.lt]; omega
          · exact hl.1 z hz
        have inR : ∀ z ∈ (Heap.node rl ry rr).toList, ¬ z.lt ry := fun z hz => by
          rcases List.mem_cons.mp hz with rfl | hz
          · simp only [Item.lt]; omega
          · exact hr.1 z hz
        have stay : ∀ u : Item, ¬ ly.lt u → ¬ ry.lt u →
            ∀ z ∈ (Heap.node ll ly lr).toList ++ (Heap.node rl ry rr).toList, ¬ z.lt u := fun u h1 h2 z hz => by
          rcases List.mem_append.mp hz with hz | hz
          · exact lt_trans' h1 (inL z hz)
          · exact lt_trans' h2 (inR z hz)
        by_cases hc : keyLt n ly ry = true
        · by_cases hk : keyLt n ly x = true
          · simp only [heapReplaceRoot, hc, hk, if_true]
            rw [keyLt_iff] at hc hk
            have q : ((heapReplaceRoot n x (.node ll ly lr)).toList ++ (Heap.node rl ry rr).toList).Perm
                (x :: ((ll.toList ++ lr.toList) ++ (Heap.node rl ry rr).toList)) := pl.append_right _
            refine ⟨(q.cons ly).trans (List.Perm.swap ..), fun z hz => ?_, ol, hr⟩
            rcases List.mem_cons.mp (q.mem_iff.mp hz) with rfl | hz
            · exact lt_asymm' hk
            · rcases List.mem_append.mp hz with hz | hz
              · exact hl.1 z hz
              · exact lt_trans' (lt_asymm' hc) (inR z hz)
          · simp only [heapReplaceRoot, hc, hk, if_true, Bool.false_eq_true, if_false]
            rw [keyLt_iff] at hc hk
            exact ⟨List.Perm.refl _, stay x hk (lt_trans' hk (lt_asymm' hc)), hl, hr⟩
        · by_cases hk : keyLt n ry x = true
          · simp only [heapReplaceRoot, hc, hk, if_true, Bool.false_eq_true, if_false]
            rw [keyLt_iff] at hc hk
            have q : ((Heap.node ll ly lr).toList ++ (heapReplaceRoot n x (.node rl ry rr)).toList).Perm
                (x :: ((Heap.node ll ly lr).toList ++ (rl.toList ++ rr.toList))) :=
              (pr.append_left _).trans List.perm_middle
            refine ⟨(q.cons ry).trans ((List.Perm.swap ..).trans (List.perm_middle.symm.cons x)), fun z hz => ?_, hl, or⟩
            rcases List.mem_cons.mp (q.mem_iff.mp hz) with rfl | hz
            · exact lt_asymm' hk
            · rcases List.mem_append.mp hz with hz | hz
              · exact lt_trans' hc (inL z hz)
              · exact hr.1 z hz
          · simp only [heapReplaceRoot, hc, hk, Bool.false_eq_true, if_false]
            rw [keyLt_iff] at hc hk
            exact ⟨List.Perm.refl _, stay x (lt_trans' hk hc) hk, hl, hr⟩

theorem heapTake_spec (n : Nat) (h : Heap) (ho : h.ordered) (hne : h.toList ≠ []) :
    ∃ a h1, heapTake n h = some (a, h1) ∧ h.toList.Perm (a :: h1.toList) ∧ (∀ y ∈ h1.toList, ¬ y.lt a) ∧ h1.ordered := by
  cases h with
  | empty => exact absurd rfl hne
  | node l x r =>
    cases l with
    | empty => exact ⟨x, r, rfl, List.Perm.refl _, by simpa [Heap.toList] using ho.1, ho.2.2⟩
    | node l' y' r' =>
      obtain ⟨p, o⟩ := heapPopLast_spec l' y' r' ho.2.1
      obtain ⟨q, oq⟩ := heapReplaceRoot_spec n (heapPopLast l' y' r').1 _ r x (heapPopLast l' y' r').2 rfl ho.2.2 o
      have pq : ((Heap.node l' y' r').toList ++ r.toList).Perm
          (heapReplaceRoot n (heapPopLast l' y' r').1 (.node r x (heapPopLast l' y' r').2)).toList :=
        ((p.append_right _).trans (List.perm_append_comm.cons _)).trans q.symm
      exact ⟨x, _, rfl, pq.cons x, fun y hy => ho.1 y (pq.mem_iff.mpr hy), oq⟩

theorem heapOf_spec (n : Nat) (l : List Item) : (heapOf n l).toList.Perm l ∧ (heapOf n l).ordered := by
  induction l with
  | nil => exact ⟨List.Perm.refl _, trivial⟩
  | cons x xs ih =>
    obtain ⟨p, o⟩ := heapInsert_spec n x _ ih.2
    exact ⟨p.trans (ih.1.cons x), o⟩

/-- The invariant of the heap. -/
def HeapGood (next : Nat) (h : Heap) : Prop := h.ordered ∧ Fresh next h.toList

theorem merges_heap (n : Nat) : Merges (heapTake n) (heapInsert n) Heap.toList HeapGood where
  fresh _ _ h := h.2
  step next q h hl := by
    obtain ⟨a, q1, e1, p1, m1, o1⟩ := heapTake_spec n q h.1 (by rintro e; simp [e] at hl)
    obtain ⟨b, q2, e2, p2, m2, o2⟩ := heapTake_spec n q1 o1 (by rintro e; have := p1.length_eq; simp [e] at this; omega)
    have p := p1.trans (p2.cons a)
    have f := h.2.perm p
    obtain ⟨pi, oi⟩ := heapInsert_spec n ⟨a.freq + b.freq, next⟩ q2 o2
    exact ⟨a, q1, b, q2, e1, e2, p, fun y hy => f.lt_of_not_lt hy (m1 y (p2.mem_iff.mpr hy)),
      fun y hy => f.tail.lt_of_not_lt hy (m2 y hy), ⟨oi, (f.tail.tail.put _).perm pi.symm⟩, pi⟩

/-! ### The leaves, and the two variants -/

theorem length_leafItemsFrom (i : Nat) (es : List Entry) : (leafItemsFrom i es).length = es.length := by
  induction es generalizing i with
  | nil => rfl
  | cons e es ih => simp [leafItemsFrom, ih]

theorem mem_leafItemsFrom {i : Nat} {es : List Entry} {x : Item} (h : x ∈ leafItemsFrom i es) :
    i ≤ x.ix ∧ x.ix < i + es.length ∧ ∃ e, es[x.ix - i]? = some e ∧ x.freq = e.cnt.toNat := by
  induction es generalizing i with
  | nil => simp [leafItemsFrom] at h
  | cons e es ih =>
    rcases List.mem_cons.mp h with rfl | h
    · exact ⟨le_rfl, by simp, e, by simp, rfl⟩
    · obtain ⟨h1, h2, e', h3, h4⟩ := ih h
      refine ⟨by omega, by simp only [List.length_cons]; omega, e', ?_, h4⟩
      rw [show x.ix - i = (x.ix - (i + 1)) + 1 by omega, List.getElem?_cons_succ, h3]

theorem fresh_leafItemsFrom (i : Nat) (es : List Entry) : Fresh (i + es.length) (leafItemsFrom i es) := by
  refine ⟨?_, fun x hx => (mem_leafItemsFrom hx).2.1⟩
  induction es generalizing i with
  | nil => exact List.nodup_nil
  | cons e es ih =>
    refine List.nodup_cons.mpr ⟨fun hm => ?_, ih (i + 1)⟩
    obtain ⟨y, hy, e'⟩ := List.mem_map.mp hm
    have := (mem_leafItemsFrom hy).1
    simp only at e'; omega

theorem fresh_leafItems (es : List Entry) : Fresh es.length (leafItems es) := by
  simpa [leafItems] using fresh_leafItemsFrom 0 es

theorem pairwise_leafItemsFrom (i : Nat) (es : List Entry) (h : es.Pairwise entryLt) :
    (leafItemsFrom i es).Pairwise Item.lt := by
  induction es generalizing i with
  | nil => exact List.Pairwise.nil
  | cons e es ih =>
    obtain ⟨h1, h2⟩ := List.pairwise_cons.mp h
    refine List.pairwise_cons.mpr ⟨fun y hy => ?_, ih (i + 1) h2⟩
    obtain ⟨a1, a2, e', g, f⟩ := mem_leafItemsFrom hy
    have := h1 e' (List.mem_of_getElem? g)
    simp only [Item.lt, entryLt] at *; omega

/-- 41_tree.md R153: the heap variant gives BuildTree(SLIST), for any order of SLIST. -/
theorem buildHeap_eq (es : List Entry) : buildHeap es = buildTree es := by
  unfold buildHeap buildTree
  congr 1
  by_cases h : es = []
  · subst h; rfl
  · have hp : 0 < es.length := List.length_pos_iff.mpr h
    obtain ⟨p, o⟩ := heapOf_spec es.length (leafItems es)
    have hl : (leafItems es).length = es.length := length_leafItemsFrom 0 es
    refine mergeLoop_eq (merges_heap es.length) (merges_least es.length) _ _ _ _
      ⟨o, (fresh_leafItems es).perm p.symm⟩ (fresh_leafItems es) p ?_
    rw [p.length_eq, hl]; omega

/-- 41_tree.md R154, R155: the two-queue variant gives BuildTree(SLIST) where SLIST is ascending. -/
theorem buildTwoQueue_eq (es : List Entry) (hs : es.Pairwise entryLt) : buildTwoQueue es = buildTree es := by
  unfold buildTwoQueue buildTree
  congr 1
  by_cases h : es = []
  · subst h; rfl
  · have hp : 0 < es.length := List.length_pos_iff.mpr h
    have hl : (leafItems es).length = es.length := length_leafItemsFrom 0 es
    have hf : Fresh es.length (Queues.toList ⟨leafItems es, []⟩) := by simpa [Queues.toList] using fresh_leafItems es
    refine mergeLoop_eq (merges_queues es.length) (merges_least es.length) _ _ _ _
      ⟨⟨pairwise_leafItemsFrom 0 es hs, List.Pairwise.nil, fun x hx => (fresh_leafItems es).2 x hx, by simp, le_rfl⟩,
        hf, 0, by simp, by simp⟩ (fresh_leafItems es) (by simp [Queues.toList]) ?_
    simp only [Queues.toList, List.append_nil, hl]; omega

/-- A loop over a good state makes as many branches as it is asked for. -/
theorem length_mergeLoop {Q : Type} {take : Q → Option (Item × Q)} {put : Item → Q → Q} {toL : Q → List Item}
    {G : Nat → Q → Prop} (h : Merges take put toL G) :
    ∀ k next q, G next q → k + 1 ≤ (toL q).length → (mergeLoop take put k next q).length = k := by
  intro k
  induction k with
  | zero => intros; rfl
  | succ k ih =>
    intro next q hg hk
    obtain ⟨a, q1, b, q2, e1, e2, p1, _, _, g1, pp1⟩ := h.step next q hg (by omega)
    simp only [mergeLoop, e1, e2, List.length_cons]
    rw [ih _ _ g1]
    have := p1.length_eq
    have := pp1.length_eq
    simp only [List.length_cons] at *
    omega

/-- 41_tree.md R151, R160: the store has NODE_COUNT nodes. -/
theorem length_buildTree (es : List Entry) : (buildTree es).length = nodeCountOf es.length := by
  have hl : (leafItems es).length = es.length := length_leafItemsFrom 0 es
  by_cases h : es = []
  · subst h; rfl
  · have hp : 0 < es.length := List.length_pos_iff.mpr h
    rw [buildTree, List.length_append, length_mergeLoop (merges_least _) _ _ _ (fresh_leafItems es) (by rw [hl]; omega)]
    simp only [leafNodes, List.length_map, nodeCountOf]
    split_ifs <;> omega

end Sys2Proof.Machine
end

