-- ==== Sys2Proof/Laws/Stages.lean ====
section
/-! SUPPORT. For each stage, what it answers in each of its cases (40_frequency.md to 46_composite.md), and the words of the
errors. -/

namespace Sys2Proof.Machine

/-! ### The shared frame of a stage -/

theorem guarded_ok {st : StageName} {body : State → StageOut} {s t : State} (h : firstMissing s st.requires = none)
    (hb : body s = .ok t) : guarded st body s = .ok (t.withFlags st) := by simp [guarded, h, hb]

theorem guarded_fail {st : StageName} {body : State → StageOut} {s t : State} {r : Raise}
    (h : firstMissing s st.requires = none) (hb : body s = .fail r t) : guarded st body s = .fail r t := by
  simp [guarded, h, hb]

theorem guarded_missing {st : StageName} {body : State → StageOut} {s : State} {f : Flag}
    (h : firstMissing s st.requires = some f) : guarded st body s = .fail ⟨f.missing, 0⟩ s := by simp [guarded, h]

/-- A stage either lacks a flag, or its body decides. -/
theorem guarded_cases (st : StageName) (body : State → StageOut) (s : State) :
    (∃ f, firstMissing s st.requires = some f ∧ guarded st body s = .fail ⟨f.missing, 0⟩ s) ∨
    (firstMissing s st.requires = none ∧ ∃ t, body s = .ok t ∧ guarded st body s = .ok (t.withFlags st)) ∨
    (firstMissing s st.requires = none ∧ ∃ r t, body s = .fail r t ∧ guarded st body s = .fail r t) := by
  cases h : firstMissing s st.requires with
  | some f => exact .inl ⟨f, rfl, guarded_missing h⟩
  | none =>
    cases hb : body s with
    | ok t => exact .inr (.inl ⟨rfl, t, rfl, guarded_ok h hb⟩)
    | fail r t => exact .inr (.inr ⟨rfl, r, t, rfl, guarded_fail h hb⟩)

theorem firstMissing_nil (s : State) : firstMissing s [] = none := rfl

theorem firstMissing_cons (s : State) (f : Flag) (fs : List Flag) :
    firstMissing s (f :: fs) = if s.flag f then firstMissing s fs else some f := rfl

theorem firstMissing_eq_none {s : State} {fs : List Flag} : firstMissing s fs = none ↔ ∀ f ∈ fs, s.flag f = true := by
  induction fs with
  | nil => simp [firstMissing]
  | cons f fs ih => by_cases h : s.flag f = true <;> simp [firstMissing, h, ih]

/-! ### The stages, case by case -/

/-- 40_frequency.md R140. -/
theorem freqStage_ok {s : State} (h : s.inLen.toNat ≤ s.capIn.toNat) :
    freqStage s = .ok { s with
      freq := countTable (inBytes s), slist := freqList (inBytes s)
      symbolCount := BitVec.ofNat 64 (freqList (inBytes s)).length
      slistV := true, treeV := false, cbV := false, bitsV := false, payloadV := false } := by
  have h' : ¬ s.inLen.toNat > s.capIn.toNat := by omega
  simp only [freqStage, guarded, StageName.requires, firstMissing, freqBody, if_neg h']
  rfl

theorem freqStage_fail {s : State} (h : s.capIn.toNat < s.inLen.toNat) :
    freqStage s = .fail ⟨.inLen, s.inLen.toNat⟩ s :=
  guarded_fail (firstMissing_nil _) (by simp only [freqBody, if_pos h])

/-- 41_tree.md R152. -/
theorem buildStage_ok {s : State} (heap : Bool) (h : s.slistV = true) :
    buildStage heap s = .ok { s with
      nodes := if heap then buildHeap s.slist else buildTwoQueue s.slist
      nodeCount := BitVec.ofNat 64 (nodeCountOf s.slist.length), treeV := true, cbV := false } := by
  simp only [buildStage, guarded, StageName.requires, firstMissing, State.flag, if_true, buildBody, h]
  rfl

theorem buildStage_fail {s : State} (heap : Bool) (h : s.slistV = false) :
    buildStage heap s = .fail ⟨.noSlist, 0⟩ s :=
  guarded_missing (f := .slist) (by simp [StageName.requires, firstMissing, State.flag, h])

/-- 42_codebook.md R171. -/
theorem codebookStage_ok {s : State} (h : s.treeV = true) :
    codebookStage s = .ok { s with cb := codebookOf s.nodes s.nodeCount.toNat, cbV := true } := by
  simp only [codebookStage, guarded, StageName.requires, firstMissing, State.flag, if_true, codebookBody, h]
  rfl

theorem codebookStage_fail {s : State} (h : s.treeV = false) : codebookStage s = .fail ⟨.noTree, 0⟩ s :=
  guarded_missing (f := .tree) (by simp [StageName.requires, firstMissing, State.flag, h])

/-- 42_codebook.md R174. -/
theorem codeStage_ok {s : State} (h : s.cbV = true) (h1 : s.inLen.toNat ≤ s.capIn.toNat)
    (h2 : firstMiss (codeOf s) 0 (inBytes s) = none)
    (h3 : (codeStream (codeOf s) (inBytes s)).length ≤ s.capBits.toNat) :
    codeStage s = .ok { s with
      bitbuf := writePrefix (codeStream (codeOf s) (inBytes s)) s.bitbuf
      bitLength := BitVec.ofNat 64 (codeStream (codeOf s) (inBytes s)).length, bitsV := true, payloadV := false } := by
  have h1' : ¬ s.inLen.toNat > s.capIn.toNat := by omega
  have h3' : ¬ (codeStream (codeOf s) (inBytes s)).length > s.capBits.toNat := by omega
  simp only [codeStage, guarded, StageName.requires, firstMissing, State.flag, if_true, codeBody, h, if_neg h1', h2, if_neg h3']
  rfl

theorem codeStage_noCodebook {s : State} (h : s.cbV = false) : codeStage s = .fail ⟨.noCodebook, 0⟩ s :=
  guarded_missing (f := .cb) (by simp [StageName.requires, firstMissing, State.flag, h])

theorem codeStage_inLen {s : State} (h : s.cbV = true) (h1 : s.capIn.toNat < s.inLen.toNat) :
    codeStage s = .fail ⟨.inLen, s.inLen.toNat⟩ s :=
  guarded_fail (by simp [StageName.requires, firstMissing, State.flag, h]) (by simp only [codeBody, if_pos h1])

theorem codeStage_miss {s : State} {a : Nat} (h : s.cbV = true) (h1 : s.inLen.toNat ≤ s.capIn.toNat)
    (h2 : firstMiss (codeOf s) 0 (inBytes s) = some a) : codeStage s = .fail ⟨.codeMiss, a⟩ s := by
  have h1' : ¬ s.inLen.toNat > s.capIn.toNat := by omega
  exact guarded_fail (by simp [StageName.requires, firstMissing, State.flag, h]) (by simp only [codeBody, if_neg h1', h2])

theorem codeStage_bitbuf {s : State} (h : s.cbV = true) (h1 : s.inLen.toNat ≤ s.capIn.toNat)
    (h2 : firstMiss (codeOf s) 0 (inBytes s) = none)
    (h3 : s.capBits.toNat < (codeStream (codeOf s) (inBytes s)).length) :
    codeStage s = .fail ⟨.bitbuf, (codeStream (codeOf s) (inBytes s)).length⟩ s := by
  have h1' : ¬ s.inLen.toNat > s.capIn.toNat := by omega
  exact guarded_fail (by simp [StageName.requires, firstMissing, State.flag, h])
    (by simp only [codeBody, if_neg h1', h2, if_pos h3])

/-- 43_bitpack.md R192. -/
theorem packStage_ok {s : State} (h : s.bitsV = true) :
    packStage s = .ok { s with payload := writePrefix (pack (streamOf s)) s.payload, payloadV := true } := by
  simp only [packStage, guarded, StageName.requires, firstMissing, State.flag, if_true, packBody, h]
  rfl

theorem packStage_fail {s : State} (h : s.bitsV = false) : packStage s = .fail ⟨.noBits, 0⟩ s :=
  guarded_missing (f := .bits) (by simp [StageName.requires, firstMissing, State.flag, h])

/-- 43_bitpack.md R193. -/
theorem unpackStage_ok {s : State} (h : s.payloadV = true) :
    unpackStage s = .ok { s with bitbuf := writePrefix (unpack (payloadOf s) s.bitLength.toNat) s.bitbuf, bitsV := true } := by
  simp only [unpackStage, guarded, StageName.requires, firstMissing, State.flag, if_true, unpackBody, h]
  rfl

theorem unpackStage_fail {s : State} (h : s.payloadV = false) : unpackStage s = .fail ⟨.noPayload, 0⟩ s :=
  guarded_missing (f := .payload) (by simp [StageName.requires, firstMissing, State.flag, h])

/-- The length of the container that SERIALIZE would write (44_container.md R200's L). -/
def serializedLength (s : State) : Nat :=
  containerLength s.slist.length (minWidth (maxCount s.slist)) s.bitLength.toNat

theorem withFlags_serialize (s : State) : s.withFlags .serialize = s := rfl

/-- 44_container.md R200. -/
theorem serializeStage_ok {s : State} (h1 : s.slistV = true) (h2 : s.payloadV = true)
    (h3 : serializedLength s ≤ s.capOut.toNat) :
    serializeStage s = .ok { s with
      outMem := s.outMem.writeAll 0
        (containerBytes s.slist (minWidth (maxCount s.slist)) s.bitLength.toNat (payloadOf s))
      outLen := BitVec.ofNat 64 (serializedLength s), hcWidth := BitVec.ofNat 64 (minWidth (maxCount s.slist)) } := by
  have h3' : ¬ containerLength s.slist.length (minWidth (maxCount s.slist)) s.bitLength.toNat > s.capOut.toNat := by
    simpa [serializedLength] using h3
  simp only [serializeStage, guarded, StageName.requires, firstMissing, State.flag, if_true, serializeBody, h1, h2,
    if_neg h3', serializedLength, withFlags_serialize]

theorem serializeStage_noSlist {s : State} (h : s.slistV = false) : serializeStage s = .fail ⟨.noSlist, 0⟩ s :=
  guarded_missing (f := .slist) (by simp [StageName.requires, firstMissing, State.flag, h])

theorem serializeStage_noPayload {s : State} (h1 : s.slistV = true) (h2 : s.payloadV = false) :
    serializeStage s = .fail ⟨.noPayload, 0⟩ s :=
  guarded_missing (f := .payload) (by simp [StageName.requires, firstMissing, State.flag, h1, h2])

theorem serializeStage_out {s : State} (h1 : s.slistV = true) (h2 : s.payloadV = true)
    (h3 : s.capOut.toNat < serializedLength s) : serializeStage s = .fail ⟨.out, serializedLength s⟩ s := by
  refine guarded_fail (by simp [StageName.requires, firstMissing, State.flag, h1, h2]) ?_
  simp only [serializeBody]
  exact if_pos h3

/-- What PARSE reads (44_container.md R206). -/
def parsedOf (s : State) : ParseOut := parseContainer (readIn s) s.inLen.toNat s.capIn.toNat s.capBits.toNat

/-- 44_container.md R207. -/
theorem parseStage_ok {s : State} {p : Parsed} (h : parsedOf s = .ok p) :
    parseStage s = .ok { s with
      slist := p.entries, freq := mirrorTable p.entries, symbolCount := BitVec.ofNat 64 p.entries.length
      bitLength := BitVec.ofNat 64 p.bits, hcWidth := BitVec.ofNat 64 p.width
      payload := writePrefix p.payload s.payload
      slistV := true, payloadV := true, treeV := false, cbV := false, bitsV := false } := by
  rw [parsedOf] at h
  simp only [parseStage, guarded, StageName.requires, firstMissing, parseBody, h]
  rfl

theorem parseStage_fail {s : State} {r : Raise} (h : parsedOf s = .fail r) : parseStage s = .fail r s := by
  rw [parsedOf] at h
  exact guarded_fail (firstMissing_nil _) (by simp only [parseBody, h])

/-- What the walk of a state with a tree gives (45_decoder.md R231). -/
def walkOf (s : State) : WalkOut :=
  walkBits s.nodes (s.nodeCount.toNat - 1) s.capOut.toNat 0 (streamOf s) ⟨s.nodeCount.toNat - 1, 0, s.outMem⟩

/-- 45_decoder.md R231's fail. -/
abbrev State.walkFailed (s : State) : State :=
  { s with outLen := 0#64, outMem := [], outEpoch := s.draws, draws := s.draws + 1 }

theorem walkStage_noTree {s : State} (h : s.treeV = false) : walkStage s = .fail ⟨.noTree, 0⟩ s :=
  guarded_missing (f := .tree) (by simp [StageName.requires, firstMissing, State.flag, h])

theorem walkStage_noBits {s : State} (h1 : s.treeV = true) (h2 : s.bitsV = false) : walkStage s = .fail ⟨.noBits, 0⟩ s :=
  guarded_missing (f := .bits) (by simp [StageName.requires, firstMissing, State.flag, h1, h2])

theorem walkStage_absent_ok {s : State} (h1 : s.treeV = true) (h2 : s.bitsV = true) (h3 : s.nodeCount.toNat = 0)
    (h4 : s.bitLength.toNat = 0) : walkStage s = .ok { s with outLen := 0#64 } := by
  simp only [walkStage, guarded, StageName.requires, firstMissing, State.flag, if_true, walkBody, h1, h2, h3, h4]
  rfl

theorem walkStage_absent_fail {s : State} (h1 : s.treeV = true) (h2 : s.bitsV = true) (h3 : s.nodeCount.toNat = 0)
    (h4 : s.bitLength.toNat ≠ 0) : walkStage s = .fail ⟨.decodeNoTree, 0⟩ s.walkFailed :=
  guarded_fail (by simp [StageName.requires, firstMissing, State.flag, h1, h2])
    (by simp only [walkBody, if_pos h3, if_neg h4, walkFail])

theorem walkStage_fail {s : State} {r : Raise} (h1 : s.treeV = true) (h2 : s.bitsV = true) (h3 : s.nodeCount.toNat ≠ 0)
    (h4 : walkOf s = .fail r) : walkStage s = .fail r s.walkFailed := by
  rw [walkOf] at h4
  exact guarded_fail (by simp [StageName.requires, firstMissing, State.flag, h1, h2])
    (by simp only [walkBody, if_neg h3, h4, walkFail])

theorem walkStage_incomplete {s : State} {w : Walker} (h1 : s.treeV = true) (h2 : s.bitsV = true)
    (h3 : s.nodeCount.toNat ≠ 0) (h4 : walkOf s = .ok w) (h5 : w.node ≠ s.nodeCount.toNat - 1) :
    walkStage s = .fail ⟨.incomplete, s.bitLength.toNat⟩ s.walkFailed := by
  rw [walkOf] at h4
  exact guarded_fail (by simp [StageName.requires, firstMissing, State.flag, h1, h2])
    (by simp only [walkBody, if_neg h3, h4, if_pos h5, walkFail])

theorem walkStage_ok {s : State} {w : Walker} (h1 : s.treeV = true) (h2 : s.bitsV = true)
    (h3 : s.nodeCount.toNat ≠ 0) (h4 : walkOf s = .ok w) (h5 : w.node = s.nodeCount.toNat - 1) :
    walkStage s = .ok { s with
      outMem := w.out, outLen := BitVec.ofNat 64 w.count, walkNode := w.node, walkCount := w.count } := by
  rw [walkOf] at h4
  have h5' : ¬ w.node ≠ s.nodeCount.toNat - 1 := by simp [h5]
  simp only [walkStage, guarded, StageName.requires, firstMissing, State.flag, if_true, walkBody, h1, h2, if_neg h3, h4, if_neg h5']
  rfl

/-- The three sums of 46_composite.md R243. -/
def statcalcFits (s : State) : Prop :=
  sumCounts s.slist < 2 ^ 64 ∧ statBitsOf s < 2 ^ 64 ∧
    containerLength s.slist.length (minWidth (maxCount s.slist)) (statBitsOf s) < 2 ^ 64

theorem statcalcStage_ok {s : State} (h : statcalcFits s) :
    statcalcStage s = .ok { s with
      statOrig := BitVec.ofNat 64 (sumCounts s.slist), statBits := BitVec.ofNat 64 (statBitsOf s)
      statContainer :=
        BitVec.ofNat 64 (containerLength s.slist.length (minWidth (maxCount s.slist)) (statBitsOf s)) } := by
  obtain ⟨a, b, c⟩ := h
  have h' : ¬ (sumCounts s.slist ≥ 2 ^ 64 ∨ statBitsOf s ≥ 2 ^ 64 ∨
    containerLength s.slist.length (minWidth (maxCount s.slist)) (statBitsOf s) ≥ 2 ^ 64) := by omega
  simp only [statcalcStage, guarded, StageName.requires, firstMissing, statcalcBody, if_neg h']
  rfl

theorem statcalcStage_fail {s : State} (h : ¬ statcalcFits s) : statcalcStage s = .fail ⟨.arith, 0⟩ s := by
  have h' : sumCounts s.slist ≥ 2 ^ 64 ∨ statBitsOf s ≥ 2 ^ 64 ∨
    containerLength s.slist.length (minWidth (maxCount s.slist)) (statBitsOf s) ≥ 2 ^ 64 := by
    unfold statcalcFits at h; omega
  exact guarded_fail (firstMissing_nil _) (by simp only [statcalcBody]; rw [if_pos h'])

end Sys2Proof.Machine
end

