-- ==== Sys2Proof/Laws/Invariant.lean ====
section
/-! SUPPORT. What the stages leave alone, and that each of them keeps the invariant of the data (10_state.md R39). -/

namespace Sys2Proof.Machine

/-- The state that a stage leaves, whether it raised or not. -/
def StageOut.state : StageOut → State
  | .ok t => t
  | .fail _ t => t

/-- What no stage of any command writes: the parameters, the command word, the reports, the enables, the inputs, the
selectors, IN_MEM and what stands outside the block (10_state.md R29, R46, R48; 20_memory.md R74). -/
structure Untouched (s t : State) : Prop where
  capIn : t.capIn = s.capIn
  capOut : t.capOut = s.capOut
  capBits : t.capBits = s.capBits
  cmd : t.cmd = s.cmd
  busy : t.busy = s.busy
  done : t.done = s.done
  error : t.error = s.error
  overrun : t.overrun = s.overrun
  err : t.err = s.err
  errInfo : t.errInfo = s.errInfo
  doneIe : t.doneIe = s.doneIe
  errIe : t.errIe = s.errIe
  inLen : t.inLen = s.inLen
  lsel : t.lsel = s.lsel
  ssel : t.ssel = s.ssel
  nsel : t.nsel = s.nsel
  bsel : t.bsel = s.bsel
  psel : t.psel = s.psel
  inMem : t.inMem = s.inMem
  resetAsserted : t.resetAsserted = s.resetAsserted
  inputs : t.inputs = s.inputs
  replies : t.replies = s.replies
  engineDelay : t.engineDelay = s.engineDelay
  epoch : t.epoch = s.epoch
  draws : s.draws ≤ t.draws

theorem Untouched.refl (s : State) : Untouched s s := by constructor <;> rfl

theorem Untouched.trans {s t u : State} (h : Untouched s t) (g : Untouched t u) : Untouched s u where
  capIn := g.capIn.trans h.capIn
  capOut := g.capOut.trans h.capOut
  capBits := g.capBits.trans h.capBits
  cmd := g.cmd.trans h.cmd
  busy := g.busy.trans h.busy
  done := g.done.trans h.done
  error := g.error.trans h.error
  overrun := g.overrun.trans h.overrun
  err := g.err.trans h.err
  errInfo := g.errInfo.trans h.errInfo
  doneIe := g.doneIe.trans h.doneIe
  errIe := g.errIe.trans h.errIe
  inLen := g.inLen.trans h.inLen
  lsel := g.lsel.trans h.lsel
  ssel := g.ssel.trans h.ssel
  nsel := g.nsel.trans h.nsel
  bsel := g.bsel.trans h.bsel
  psel := g.psel.trans h.psel
  inMem := g.inMem.trans h.inMem
  resetAsserted := g.resetAsserted.trans h.resetAsserted
  inputs := g.inputs.trans h.inputs
  replies := g.replies.trans h.replies
  engineDelay := g.engineDelay.trans h.engineDelay
  epoch := g.epoch.trans h.epoch
  draws := h.draws.trans g.draws

/-- The data do not depend on the control state. -/
theorem DataInv.control {s : State} (h : DataInv s) (cmd : Word) (busy done error overrun : Bool) (err errInfo : Word)
    (doneIe errIe : Bool) (inLen : Word) (lsel ssel : Byte) (nsel : BitVec 9) (bsel psel : Word) (stageIndex walkNode walkCount : Nat)
    (resetAsserted : Bool) (inputs : List HostOp) (replies : List Reply) (engineDelay draws : Nat) (hd : s.draws ≤ draws)
    (o b c : Word) :
    DataInv { s with
      cmd := cmd, busy := busy, done := done, error := error, overrun := overrun, err := err, errInfo := errInfo
      doneIe := doneIe, errIe := errIe, inLen := inLen, lsel := lsel, ssel := ssel, nsel := nsel, bsel := bsel, psel := psel
      stageIndex := stageIndex, walkNode := walkNode, walkCount := walkCount, resetAsserted := resetAsserted
      inputs := inputs, replies := replies, engineDelay := engineDelay, draws := draws
      statOrig := o, statBits := b, statContainer := c } where
  caps := ⟨h.caps.inLow, h.caps.inHigh, h.caps.outLow⟩
  inWf := h.inWf
  inRange := h.inRange
  outWf := h.outWf
  outRange := h.outRange
  listLength := h.listLength
  listShort := h.listShort
  storeLength := h.storeLength
  list := h.list
  tree := h.tree
  codes := h.codes
  fits := h.fits
  packed := h.packed
  bitsWritten := h.bitsWritten
  payloadWritten := h.payloadWritten
  bitbufSize := h.bitbufSize
  payloadSize := h.payloadSize
  outFits := h.outFits
  width := h.width
  drawn := ⟨lt_of_lt_of_le h.drawn.1 hd, lt_of_lt_of_le h.drawn.2 hd⟩

/-! ### Reading back what a stage wrote -/

theorem length_inBytes (s : State) : (inBytes s).length = s.inLen.toNat := by simp [inBytes]

theorem length_streamOf (s : State) : (streamOf s).length = s.bitLength.toNat := by simp [streamOf]

theorem length_payloadOf (s : State) : (payloadOf s).length = ceil8 s.bitLength.toNat := by simp [payloadOf]

theorem toNat_ofNat_of_le {n : Nat} {w : Word} (h : n ≤ w.toNat) : (BitVec.ofNat 64 n).toNat = n := by
  rw [BitVec.toNat_ofNat, Nat.mod_eq_of_lt (lt_of_le_of_lt h w.isLt)]

theorem ceil8_mono {a b : Nat} (h : a ≤ b) : ceil8 a ≤ ceil8 b := by simp only [ceil8]; omega

theorem ceil8_le (a : Nat) : ceil8 a ≤ a := by simp only [ceil8]; omega

/-- A stream written to BITBUF is the stream. -/
theorem streamOf_writePrefix (s : State) (bits old : List Bool) (h : s.bitbuf = writePrefix bits old)
    (hl : bits.length = s.bitLength.toNat) : streamOf s = bits := by
  have e : bitAt s = fun j => (writePrefix bits old).getD j (Config.freeBit s.epoch j) := by funext j; rw [bitAt, h]
  simp only [streamOf, e, ← hl]
  exact map_getD_writePrefix bits old _

/-- Bytes written to PAYLOAD are the payload. -/
theorem payloadOf_writePrefix (s : State) (bytes old : List Byte) (h : s.payload = writePrefix bytes old)
    (hl : bytes.length = ceil8 s.bitLength.toNat) : payloadOf s = bytes := by
  have e : payloadAt s = fun j => (writePrefix bytes old).getD j (Config.freePayloadByte s.epoch j) := by
    funext j; rw [payloadAt, h]
  simp only [payloadOf, e, ← hl]
  exact map_getD_writePrefix bytes old _

/-! ### The stages -/

/-- What every stage keeps to. -/
structure StageLaw (run : State → StageOut) : Prop where
  untouched : ∀ s, Untouched s (run s).state
  keeps : ∀ s, DataInv s → DataInv (run s).state

theorem freqStage_law : StageLaw freqStage where
  untouched s := by
    rcases Nat.lt_or_ge s.capIn.toNat s.inLen.toNat with h | h
    · rw [freqStage_fail h]; exact Untouched.refl s
    · rw [freqStage_ok h]; constructor <;> rfl
  keeps s i := by
    rcases Nat.lt_or_ge s.capIn.toNat s.inLen.toNat with h | h
    · rw [freqStage_fail h]; exact i
    · rw [freqStage_ok h]
      have hb : (inBytes s).length < 2 ^ 64 := by rw [length_inBytes]; exact s.inLen.isLt
      have hn := length_freqList_le (inBytes s)
      exact
        { caps := ⟨i.caps.inLow, i.caps.inHigh, i.caps.outLow⟩
          inWf := i.inWf, inRange := i.inRange, outWf := i.outWf, outRange := i.outRange
          listLength := by
            show (BitVec.ofNat 64 (freqList (inBytes s)).length).toNat = _
            rw [BitVec.toNat_ofNat, Nat.mod_eq_of_lt (by omega)]; rfl
          listShort := hn
          storeLength := i.storeLength
          list := fun _ => ⟨listOk_freqList hb, freqAgrees_countTable _⟩
          tree := fun h => by cases h
          codes := fun h => by cases h
          fits := fun h => by rcases h with h | h <;> cases h
          packed := fun h => by cases h
          bitsWritten := fun h => by cases h
          payloadWritten := fun h => by cases h
          bitbufSize := i.bitbufSize, payloadSize := i.payloadSize, outFits := i.outFits, width := i.width
          drawn := i.drawn }

/-- 41_tree.md R155: on a list in good order both variants give BuildTree(SLIST). -/
theorem variant_eq (heap : Bool) {es : List Entry} (h : es.Pairwise entryLt) :
    (if heap then buildHeap es else buildTwoQueue es) = buildTree es := by
  cases heap
  · exact buildTwoQueue_eq es h
  · exact buildHeap_eq es

theorem buildStage_law (heap : Bool) : StageLaw (buildStage heap) where
  untouched s := by
    cases h : s.slistV with
    | false => rw [buildStage_fail heap h]; exact Untouched.refl s
    | true => rw [buildStage_ok heap h]; constructor <;> rfl
  keeps s i := by
    cases h : s.slistV with
    | false => rw [buildStage_fail heap h]; exact i
    | true =>
      rw [buildStage_ok heap h]
      have hv := variant_eq heap (i.list h).1.ascending
      have hc : nodeCountOf s.slist.length < 2 ^ 64 := by
        have := i.listShort
        simp only [nodeCountOf]; split_ifs <;> omega
      exact
        { caps := ⟨i.caps.inLow, i.caps.inHigh, i.caps.outLow⟩
          inWf := i.inWf, inRange := i.inRange, outWf := i.outWf, outRange := i.outRange
          listLength := i.listLength, listShort := i.listShort
          storeLength := by
            show (BitVec.ofNat 64 (nodeCountOf s.slist.length)).toNat = List.length (if heap then _ else _)
            rw [hv, length_buildTree, BitVec.toNat_ofNat, Nat.mod_eq_of_lt hc]
          list := i.list
          tree := fun _ => ⟨h, hv⟩
          codes := fun h => by cases h
          fits := i.fits, packed := i.packed, bitsWritten := i.bitsWritten, payloadWritten := i.payloadWritten
          bitbufSize := i.bitbufSize, payloadSize := i.payloadSize, outFits := i.outFits, width := i.width
          drawn := i.drawn }

theorem codebookStage_law : StageLaw codebookStage where
  untouched s := by
    cases h : s.treeV with
    | false => rw [codebookStage_fail h]; exact Untouched.refl s
    | true => rw [codebookStage_ok h]; constructor <;> rfl
  keeps s i := by
    cases h : s.treeV with
    | false => rw [codebookStage_fail h]; exact i
    | true =>
      rw [codebookStage_ok h]
      exact
        { caps := ⟨i.caps.inLow, i.caps.inHigh, i.caps.outLow⟩
          inWf := i.inWf, inRange := i.inRange, outWf := i.outWf, outRange := i.outRange
          listLength := i.listLength, listShort := i.listShort, storeLength := i.storeLength
          list := i.list, tree := i.tree
          codes := fun _ => ⟨h, rfl⟩
          fits := i.fits, packed := i.packed, bitsWritten := i.bitsWritten, payloadWritten := i.payloadWritten
          bitbufSize := i.bitbufSize, payloadSize := i.payloadSize, outFits := i.outFits, width := i.width
          drawn := i.drawn }

/-- The five cases of CODE (42_codebook.md R174). -/
theorem codeStage_cases (s : State) :
    (∃ r, codeStage s = .fail r s) ∨
    (s.cbV = true ∧ s.inLen.toNat ≤ s.capIn.toNat ∧ firstMiss (codeOf s) 0 (inBytes s) = none ∧
      (codeStream (codeOf s) (inBytes s)).length ≤ s.capBits.toNat) := by
  cases h : s.cbV with
  | false => exact .inl ⟨_, codeStage_noCodebook h⟩
  | true =>
    rcases Nat.lt_or_ge s.capIn.toNat s.inLen.toNat with h1 | h1
    · exact .inl ⟨_, codeStage_inLen h h1⟩
    · cases h2 : firstMiss (codeOf s) 0 (inBytes s) with
      | some a => exact .inl ⟨_, codeStage_miss h h1 h2⟩
      | none =>
        rcases Nat.lt_or_ge s.capBits.toNat (codeStream (codeOf s) (inBytes s)).length with h3 | h3
        · exact .inl ⟨_, codeStage_bitbuf h h1 h2 h3⟩
        · exact .inr ⟨rfl, h1, rfl, h3⟩

theorem codeStage_law : StageLaw codeStage where
  untouched s := by
    rcases codeStage_cases s with ⟨r, e⟩ | ⟨h, h1, h2, h3⟩
    · rw [e]; exact Untouched.refl s
    · rw [codeStage_ok h h1 h2 h3]; constructor <;> rfl
  keeps s i := by
    rcases codeStage_cases s with ⟨r, e⟩ | ⟨h, h1, h2, h3⟩
    · rw [e]; exact i
    · rw [codeStage_ok h h1 h2 h3]
      have hB := toNat_ofNat_of_le h3
      exact
        { caps := ⟨i.caps.inLow, i.caps.inHigh, i.caps.outLow⟩
          inWf := i.inWf, inRange := i.inRange, outWf := i.outWf, outRange := i.outRange
          listLength := i.listLength, listShort := i.listShort, storeLength := i.storeLength
          list := i.list, tree := i.tree, codes := i.codes
          fits := fun _ => by simpa [StageOut.state, hB] using h3
          packed := fun _ h => by cases h
          bitsWritten := fun _ => by simp only [StageOut.state, hB, length_writePrefix]; omega
          payloadWritten := fun h => by cases h
          bitbufSize := by
            have := i.bitbufSize
            simp only [StageOut.state, length_writePrefix]; omega
          payloadSize := i.payloadSize, outFits := i.outFits, width := i.width
          drawn := i.drawn }

theorem packStage_law : StageLaw packStage where
  untouched s := by
    cases h : s.bitsV with
    | false => rw [packStage_fail h]; exact Untouched.refl s
    | true => rw [packStage_ok h]; constructor <;> rfl
  keeps s i := by
    cases h : s.bitsV with
    | false => rw [packStage_fail h]; exact i
    | true =>
      rw [packStage_ok h]
      have hf := i.fits (.inl h)
      have hl : (pack (streamOf s)).length = ceil8 s.bitLength.toNat := by rw [length_pack, length_streamOf]
      have hc := ceil8_mono hf
      exact
        { caps := ⟨i.caps.inLow, i.caps.inHigh, i.caps.outLow⟩
          inWf := i.inWf, inRange := i.inRange, outWf := i.outWf, outRange := i.outRange
          listLength := i.listLength, listShort := i.listShort, storeLength := i.storeLength
          list := i.list, tree := i.tree, codes := i.codes
          fits := fun _ => hf
          packed := fun _ _ => by
            rw [payloadOf_writePrefix (StageOut.state _) _ _ rfl hl]
            show streamOf s = unpack (pack (streamOf s)) s.bitLength.toNat
            rw [← length_streamOf s, unpack_pack]
          bitsWritten := i.bitsWritten
          payloadWritten := fun _ => by simp only [StageOut.state, length_writePrefix, hl]; omega
          bitbufSize := i.bitbufSize
          payloadSize := by
            have := i.payloadSize
            simp only [StageOut.state, length_writePrefix, hl]; omega
          outFits := i.outFits, width := i.width
          drawn := i.drawn }

theorem unpackStage_law : StageLaw unpackStage where
  untouched s := by
    cases h : s.payloadV with
    | false => rw [unpackStage_fail h]; exact Untouched.refl s
    | true => rw [unpackStage_ok h]; constructor <;> rfl
  keeps s i := by
    cases h : s.payloadV with
    | false => rw [unpackStage_fail h]; exact i
    | true =>
      rw [unpackStage_ok h]
      have hf := i.fits (.inr h)
      have hl : (unpack (payloadOf s) s.bitLength.toNat).length = s.bitLength.toNat := length_unpack _ _
      exact
        { caps := ⟨i.caps.inLow, i.caps.inHigh, i.caps.outLow⟩
          inWf := i.inWf, inRange := i.inRange, outWf := i.outWf, outRange := i.outRange
          listLength := i.listLength, listShort := i.listShort, storeLength := i.storeLength
          list := i.list, tree := i.tree, codes := i.codes
          fits := fun _ => hf
          packed := fun _ _ => streamOf_writePrefix (StageOut.state _) _ _ rfl hl
          bitsWritten := fun _ => by simp only [StageOut.state, length_writePrefix, hl]; omega
          payloadWritten := i.payloadWritten
          bitbufSize := by
            have := i.bitbufSize
            simp only [StageOut.state, length_writePrefix, hl]; omega
          payloadSize := i.payloadSize
          outFits := i.outFits, width := i.width
          drawn := i.drawn }

theorem width_word (m : Nat) : BitVec.ofNat 64 (minWidth m) = 0#64 ∨ BitVec.ofNat 64 (minWidth m) = 1#64 ∨
    BitVec.ofNat 64 (minWidth m) = 2#64 ∨ BitVec.ofNat 64 (minWidth m) = 4#64 ∨ BitVec.ofNat 64 (minWidth m) = 8#64 := by
  rcases minWidth_cases m with h | h | h | h <;> rw [h] <;> simp

theorem serializeStage_law : StageLaw serializeStage where
  untouched s := by
    cases h1 : s.slistV with
    | false => rw [serializeStage_noSlist h1]; exact Untouched.refl s
    | true =>
      cases h2 : s.payloadV with
      | false => rw [serializeStage_noPayload h1 h2]; exact Untouched.refl s
      | true =>
        rcases Nat.lt_or_ge s.capOut.toNat (serializedLength s) with h3 | h3
        · rw [serializeStage_out h1 h2 h3]; exact Untouched.refl s
        · rw [serializeStage_ok h1 h2 h3]; constructor <;> rfl
  keeps s i := by
    cases h1 : s.slistV with
    | false => rw [serializeStage_noSlist h1]; exact i
    | true =>
      cases h2 : s.payloadV with
      | false => rw [serializeStage_noPayload h1 h2]; exact i
      | true =>
        rcases Nat.lt_or_ge s.capOut.toNat (serializedLength s) with h3 | h3
        · rw [serializeStage_out h1 h2 h3]; exact i
        · rw [serializeStage_ok h1 h2 h3]
          have hl := length_containerBytes s.slist (minWidth (maxCount s.slist)) s.bitLength.toNat (payloadOf s)
            (length_payloadOf s)
          exact
            { caps := ⟨i.caps.inLow, i.caps.inHigh, i.caps.outLow⟩
              inWf := i.inWf, inRange := i.inRange
              outWf := by simp only [StageOut.state]; exact Memory.wf_writeAll i.outWf 0 _
              outRange := fun c hc => by
                simp only [StageOut.state] at hc ⊢
                rcases Memory.mem_writeAll hc with h | h
                · rw [hl] at h
                  exact lt_of_lt_of_le h (by simpa [serializedLength] using h3)
                · exact i.outRange c h
              listLength := i.listLength, listShort := i.listShort, storeLength := i.storeLength
              list := i.list, tree := i.tree, codes := i.codes, fits := i.fits, packed := i.packed
              bitsWritten := i.bitsWritten, payloadWritten := i.payloadWritten, bitbufSize := i.bitbufSize
              payloadSize := i.payloadSize
              outFits := by
                show (BitVec.ofNat 64 (serializedLength s)).toNat ≤ s.capOut.toNat
                rw [toNat_ofNat_of_le h3]; exact h3
              width := width_word (maxCount s.slist)
              drawn := i.drawn }

theorem parseStage_law : StageLaw parseStage where
  untouched s := by
    cases h : parsedOf s with
    | fail r => rw [parseStage_fail h]; exact Untouched.refl s
    | ok p => rw [parseStage_ok h]; constructor <;> rfl
  keeps s i := by
    cases h : parsedOf s with
    | fail r => rw [parseStage_fail h]; exact i
    | ok p =>
      rw [parseStage_ok h]
      obtain ⟨a, _⟩ := parseContainer_ok h
      have hB := toNat_ofNat_of_le a.bitsFit
      have hc := ceil8_mono a.bitsFit
      have hp := a.payload
      exact
        { caps := ⟨i.caps.inLow, i.caps.inHigh, i.caps.outLow⟩
          inWf := i.inWf, inRange := i.inRange, outWf := i.outWf, outRange := i.outRange
          listLength := by
            show (BitVec.ofNat 64 p.entries.length).toNat = _
            rw [BitVec.toNat_ofNat, Nat.mod_eq_of_lt (lt_of_le_of_lt a.count (by norm_num))]; rfl
          listShort := a.count
          storeLength := i.storeLength
          list := fun _ => ⟨a.list, freqAgrees_mirrorTable a.list.distinct⟩
          tree := fun h => by cases h
          codes := fun h => by cases h
          fits := fun _ => by simpa [StageOut.state, hB] using a.bitsFit
          packed := fun h => by cases h
          bitsWritten := fun h => by cases h
          payloadWritten := fun _ => by simp only [StageOut.state, length_writePrefix, hB, hp]; omega
          bitbufSize := i.bitbufSize
          payloadSize := by
            have := i.payloadSize
            simp only [StageOut.state, length_writePrefix, hp]; omega
          outFits := i.outFits
          width := by
            simp only [StageOut.state]
            rcases a.width with h | h | h | h <;> rw [h] <;> simp
          drawn := i.drawn }

/-! ### WALK -/

theorem emit_spec {cap : Nat} {sym : Byte} {x : Nat} {w w' : Walker} (h : emit cap sym x w = .ok w') :
    w.count < cap ∧ w' = { node := x, count := w.count + 1, out := w.out.write w.count sym } := by
  unfold emit at h
  split_ifs at h with hc
  exact ⟨by omega, (WalkOut.ok.inj h).symm⟩

/-- One bit of a walk emits at most one symbol. -/
theorem walkBit_spec {nodes : List Node} {root cap j : Nat} {b : Bool} {w w' : Walker}
    (h : walkBit nodes root cap j b w = .ok w') :
    (w'.count = w.count ∧ w'.out = w.out) ∨
      ∃ sym, w.count < cap ∧ w'.count = w.count + 1 ∧ w'.out = w.out.write w.count sym := by
  unfold walkBit at h
  split at h
  · cases h
  · split_ifs at h
    obtain ⟨h1, rfl⟩ := emit_spec h
    exact .inr ⟨_, h1, rfl, rfl⟩
  · simp only at h
    split at h
    · obtain ⟨h1, rfl⟩ := emit_spec h
      exact .inr ⟨_, h1, rfl, rfl⟩
    · obtain rfl := WalkOut.ok.inj h
      exact .inl ⟨rfl, rfl⟩

/-- A walk writes its symbols at the addresses from its count on, below OUT_CAP. -/
theorem walkBits_spec {nodes : List Node} {root cap j : Nat} {bits : List Bool} {w w' : Walker}
    (h : walkBits nodes root cap j bits w = .ok w') (hw : w.count ≤ cap) :
    ∃ syms, w'.count = w.count + syms.length ∧ w'.count ≤ cap ∧ w'.out = w.out.writeAll w.count syms := by
  induction bits generalizing j w with
  | nil => obtain rfl := WalkOut.ok.inj h; exact ⟨[], rfl, hw, rfl⟩
  | cons b bits ih =>
    simp only [walkBits] at h
    cases hb : walkBit nodes root cap j b w with
    | fail r => rw [hb] at h; cases h
    | ok v =>
      rw [hb] at h
      rcases walkBit_spec hb with ⟨h1, h2⟩ | ⟨sym, h1, h2, h3⟩
      · obtain ⟨syms, g1, g2, g3⟩ := ih h (by omega)
        exact ⟨syms, by omega, g2, by rw [g3, h1, h2]⟩
      · obtain ⟨syms, g1, g2, g3⟩ := ih h (by omega)
        exact ⟨sym :: syms, by simp only [List.length_cons]; omega, g2, by rw [g3, h2, h3]; rfl⟩

/-- The cases of WALK (45_decoder.md R231). -/
theorem walkStage_cases (s : State) :
    (∃ r, walkStage s = .fail r s) ∨
    (s.treeV = true ∧ s.bitsV = true ∧ ∃ r, walkStage s = .fail r s.walkFailed) ∨
    (s.treeV = true ∧ s.bitsV = true ∧ s.nodeCount.toNat = 0 ∧ walkStage s = .ok { s with outLen := 0#64 }) ∨
    (s.treeV = true ∧ s.bitsV = true ∧ s.nodeCount.toNat ≠ 0 ∧ ∃ w, walkOf s = .ok w ∧
      walkStage s = .ok { s with
        outMem := w.out, outLen := BitVec.ofNat 64 w.count, walkNode := w.node, walkCount := w.count }) := by
  by_cases h1 : s.treeV = true
  · by_cases h2 : s.bitsV = true
    · right
      by_cases h3 : s.nodeCount.toNat = 0
      · by_cases h4 : s.bitLength.toNat = 0
        · exact .inr (.inl ⟨h1, h2, h3, walkStage_absent_ok h1 h2 h3 h4⟩)
        · exact .inl ⟨h1, h2, _, walkStage_absent_fail h1 h2 h3 h4⟩
      · cases h4 : walkOf s with
        | fail r => exact .inl ⟨h1, h2, _, walkStage_fail h1 h2 h3 h4⟩
        | ok w =>
          by_cases h5 : w.node = s.nodeCount.toNat - 1
          · exact .inr (.inr ⟨h1, h2, h3, w, rfl, walkStage_ok h1 h2 h3 h4 h5⟩)
          · exact .inl ⟨h1, h2, _, walkStage_incomplete h1 h2 h3 h4 h5⟩
    · exact .inl ⟨_, walkStage_noBits h1 (by simpa using h2)⟩
  · exact .inl ⟨_, walkStage_noTree (by simpa using h1)⟩

theorem DataInv.out {s : State} (h : DataInv s) (m : Memory) (len : Word) (hw : m.wf) (hr : ∀ c ∈ m, c.1 < s.capOut.toNat)
    (hl : len.toNat ≤ s.capOut.toNat) (epoch draws : Nat) (hd : s.draws ≤ draws) (he : epoch < draws) :
    DataInv { s with outMem := m, outLen := len, outEpoch := epoch, draws := draws } where
  caps := ⟨h.caps.inLow, h.caps.inHigh, h.caps.outLow⟩
  inWf := h.inWf
  inRange := h.inRange
  outWf := hw
  outRange := hr
  listLength := h.listLength
  listShort := h.listShort
  storeLength := h.storeLength
  list := h.list
  tree := h.tree
  codes := h.codes
  fits := h.fits
  packed := h.packed
  bitsWritten := h.bitsWritten
  payloadWritten := h.payloadWritten
  bitbufSize := h.bitbufSize
  payloadSize := h.payloadSize
  outFits := hl
  width := h.width
  drawn := ⟨lt_of_lt_of_le h.drawn.1 hd, he⟩

theorem walkStage_law : StageLaw walkStage where
  untouched s := by
    rcases walkStage_cases s with ⟨r, e⟩ | ⟨_, _, r, e⟩ | ⟨_, _, _, e⟩ | ⟨_, _, _, w, _, e⟩
    · rw [e]; exact Untouched.refl s
    · rw [e]; constructor <;> first | rfl | exact Nat.le_succ _
    · rw [e]; constructor <;> rfl
    · rw [e]; constructor <;> rfl
  keeps s i := by
    rcases walkStage_cases s with ⟨r, e⟩ | ⟨_, _, r, e⟩ | ⟨_, _, _, e⟩ | ⟨_, _, _, w, hw, e⟩
    · rw [e]; exact i
    · rw [e]
      exact i.out [] 0#64 List.Pairwise.nil (by simp) (by simp) s.draws (s.draws + 1) (Nat.le_succ _) (Nat.lt_succ_self _)
    · rw [e]
      exact i.out s.outMem 0#64 i.outWf i.outRange (by simp) s.outEpoch s.draws le_rfl i.drawn.2
    · rw [e]
      obtain ⟨syms, h1, h2, h3⟩ := walkBits_spec hw (Nat.zero_le _)
      simp only [Nat.zero_add] at h1 h3
      have := i.out w.out (BitVec.ofNat 64 w.count) (by rw [h3]; exact Memory.wf_writeAll i.outWf 0 _)
        (fun c hc => by
          rw [h3] at hc
          rcases Memory.mem_writeAll hc with h | h
          · omega
          · exact i.outRange c h)
        (by rw [toNat_ofNat_of_le h2]; exact h2) s.outEpoch s.draws le_rfl i.drawn.2
      exact this.control s.cmd s.busy s.done s.error s.overrun s.err s.errInfo s.doneIe s.errIe s.inLen s.lsel s.ssel s.nsel
        s.bsel s.psel s.stageIndex w.node w.count s.resetAsserted s.inputs s.replies s.engineDelay s.draws le_rfl s.statOrig
        s.statBits s.statContainer

theorem statcalcStage_law : StageLaw statcalcStage where
  untouched s := by
    by_cases h : statcalcFits s
    · rw [statcalcStage_ok h]; constructor <;> rfl
    · rw [statcalcStage_fail h]; exact Untouched.refl s
  keeps s i := by
    by_cases h : statcalcFits s
    · rw [statcalcStage_ok h]; exact i.control (hd := le_rfl) ..
    · rw [statcalcStage_fail h]; exact i

end Sys2Proof.Machine
end

