-- ==== Sys2Proof/Laws/Commands.lean ====
section
/-! SUPPORT. What running a command can do (46_composite.md R244; 60_exceptions.md R263, R264): the stages of each command,
and the two ways it completes. -/

namespace Sys2Proof.Machine

/-- The stages of each command, in order (30_encoding.md R101; 46_composite.md R240 to R242). -/
def stagesOf : Instr → List (StageName × (State → StageOut))
  | .freq => [(.freq, freqStage)]
  | .build => [(.build, buildStage false)]
  | .buildH => [(.build, buildStage true)]
  | .codebook => [(.codebook, codebookStage)]
  | .code => [(.code, codeStage)]
  | .pack => [(.pack, packStage)]
  | .serialize => [(.serialize, serializeStage)]
  | .parse => [(.parse, parseStage)]
  | .unpack => [(.unpack, unpackStage)]
  | .walk => [(.walk, walkStage)]
  | .encode => encodeStages false
  | .encodeH => encodeStages true
  | .decode => decodeStages false
  | .decodeH => decodeStages true
  | .stats => statsRawStages false
  | .statsH => statsRawStages true
  | .statsC => statsContainerStages false
  | .statsHC => statsContainerStages true

/-- Every command runs its stages and completes. -/
theorem exec_eq (i : Instr) (s : State) : exec i s = .next (finish i.opcode (runStages 0 (stagesOf i) s)) := by
  cases i <;> rfl

theorem stagesOf_law (i : Instr) : ∀ p ∈ stagesOf i, StageLaw p.2 := by
  have f := freqStage_law
  have b := buildStage_law
  have c := codebookStage_law
  have e := codeStage_law
  have k := packStage_law
  have z := serializeStage_law
  have p := parseStage_law
  have u := unpackStage_law
  have w := walkStage_law
  have q := statcalcStage_law
  cases i <;>
    simp [stagesOf, encodeStages, decodeStages, statsRawStages, statsContainerStages, f, b, c, e, k, z, p, u, w, q]

/-! ### Running the stages -/

theorem runStages_ok {st : StageName} {run : State → StageOut} {rest : List (StageName × (State → StageOut))} {k : Nat}
    {s t : State} (h : run { s with stageIndex := k } = .ok t) :
    runStages k ((st, run) :: rest) s = runStages (k + 1) rest t := by simp only [runStages, h]

theorem runStages_fail {st : StageName} {run : State → StageOut} {rest : List (StageName × (State → StageOut))} {k : Nat}
    {s t : State} {r : Raise} (h : run { s with stageIndex := k } = .fail r t) :
    runStages k ((st, run) :: rest) s = .fail st.number r t := by simp only [runStages, h]

/-- The state that the stages of a command leave. -/
def CmdOut.state : CmdOut → State
  | .ok t => t
  | .fail _ _ t => t

theorem untouched_stageIndex (s : State) (k : Nat) : Untouched s { s with stageIndex := k } := by constructor <;> rfl

theorem dataInv_stageIndex {s : State} (h : DataInv s) (k : Nat) : DataInv { s with stageIndex := k } :=
  h.control (hd := le_rfl) ..

theorem runStages_untouched (stages : List (StageName × (State → StageOut))) (hs : ∀ p ∈ stages, StageLaw p.2) (k : Nat)
    (s : State) : Untouched s (runStages k stages s).state := by
  induction stages generalizing k s with
  | nil => exact Untouched.refl s
  | cons p rest ih =>
    obtain ⟨st, run⟩ := p
    have h := (hs _ (List.mem_cons_self ..)).untouched { s with stageIndex := k }
    cases hr : run { s with stageIndex := k } with
    | ok t =>
      rw [runStages_ok hr]
      simp only [hr, StageOut.state] at h
      exact ((untouched_stageIndex s k).trans h).trans (ih (fun p hp => hs p (List.mem_cons_of_mem _ hp)) _ t)
    | fail r t =>
      rw [runStages_fail hr]
      simp only [hr, StageOut.state] at h
      exact (untouched_stageIndex s k).trans h

theorem runStages_keeps (stages : List (StageName × (State → StageOut))) (hs : ∀ p ∈ stages, StageLaw p.2) (k : Nat)
    (s : State) (i : DataInv s) : DataInv (runStages k stages s).state := by
  induction stages generalizing k s with
  | nil => exact i
  | cons p rest ih =>
    obtain ⟨st, run⟩ := p
    have h := (hs _ (List.mem_cons_self ..)).keeps { s with stageIndex := k } (dataInv_stageIndex i k)
    cases hr : run { s with stageIndex := k } with
    | ok t =>
      rw [runStages_ok hr]
      simp only [hr, StageOut.state] at h
      exact ih (fun p hp => hs p (List.mem_cons_of_mem _ hp)) _ t h
    | fail r t =>
      rw [runStages_fail hr]
      simp only [hr, StageOut.state] at h
      exact h

/-! ### Completion -/

theorem completeDone_eq (s : State) : completeDone s = s.succeeded := rfl

theorem errorEntry_eq (opcode stage : Byte) (r : Raise) (s : State) :
    errorEntry opcode stage r s = s.failed (errWord opcode stage r.cause) (BitVec.ofNat 64 r.info) := rfl

/-- The two ways a command completes. -/
theorem exec_cases {i : Instr} {s t : State} (h : exec i s = .next t) :
    ∃ u, Untouched s u ∧ (DataInv s → DataInv u) ∧
      (t = u.succeeded ∨ ∃ (stage : Byte) (r : Raise), t = u.failed (errWord i.opcode stage r.cause) (BitVec.ofNat 64 r.info)) := by
  rw [exec_eq] at h
  obtain rfl := Host.Outcome.next.inj h
  have hu := runStages_untouched (stagesOf i) (stagesOf_law i) 0 s
  have hk := runStages_keeps (stagesOf i) (stagesOf_law i) 0 s
  cases hr : runStages 0 (stagesOf i) s with
  | ok u =>
    rw [hr] at hu hk
    exact ⟨u, hu, hk, .inl rfl⟩
  | fail stage r u =>
    rw [hr] at hu hk
    exact ⟨u, hu, hk, .inr ⟨stage, r, rfl⟩⟩

/-! ### ERR -/

theorem Cause.kind_range (c : Cause) : 1 ≤ c.kind ∧ c.kind ≤ 5 := by cases c <;> decide

theorem Cause.code_range (c : Cause) : 1 ≤ c.code ∧ c.code ≤ 7 := by cases c <;> decide

/-- The four fields of ERR do not overlap (10_state.md R25). -/
theorem toNat_errWord (opcode stage : Byte) (c : Cause) :
    (errWord opcode stage c).toNat = c.kind + c.code * 2 ^ 8 + stage.toNat * 2 ^ 16 + opcode.toNat * 2 ^ 24 := by
  have h1 := c.kind_range
  have h2 := c.code_range
  have h3 := stage.isLt
  have h4 := opcode.isLt
  rw [errWord, BitVec.toNat_ofNat, Nat.mod_eq_of_lt]
  omega

theorem errWord_ne_zero (opcode stage : Byte) (c : Cause) : errWord opcode stage c ≠ 0#64 := by
  intro h
  have e := toNat_errWord opcode stage c
  have := c.kind_range
  rw [h] at e
  simp only [BitVec.toNat_ofNat, Nat.zero_mod] at e
  omega

end Sys2Proof.Machine
end

