-- ==== Sys2Proof/Laws/Step.lean ====
section
/-! SUPPORT. What a step can do (20_memory.md R80; 60_exceptions.md R264), what a HOST access can do, and that both keep the
invariant. -/

namespace Sys2Proof.Machine

/-! ### The ENGINE's side -/

theorem engineStep_command {s : State} {i : Instr} (h : decode s.cmd = .command i) : engineStep s = exec i s := by
  simp only [engineStep, h]

theorem engineStep_reject {s : State} {r : CmdReject} (h : decode s.cmd = .reject r) :
    engineStep s = .next (commandError r s) := by simp only [engineStep, h]

theorem step_engine {s : State} (h : engineMoves s = true) : step s = engineStep s := by
  simp only [step, agentStep, h, if_true]

theorem step_host {s : State} (h : engineMoves s = false) : step s = .next (hostStep s) := by
  simp only [step, agentStep, h, Bool.false_eq_true, if_false]

theorem commandError_eq (r : CmdReject) (s : State) : ∃ c : Cause,
    commandError r s = s.failed (errWord (s.cmd.extractLsb' 0 8) (s.cmd.extractLsb' 0 8) c) s.cmd := by
  cases r
  · refine ⟨.reservedOpcode, ?_⟩
    simp only [commandError, errorEntry_eq, BitVec.ofNat_toNat, BitVec.setWidth_eq]
  · refine ⟨.reservedBits, ?_⟩
    simp only [commandError, errorEntry_eq, BitVec.ofNat_toNat, BitVec.setWidth_eq]

/-- What the ENGINE's move can do: the command completes in one of two ways. -/
theorem engineStep_cases (s : State) : ∃ u, Untouched s u ∧ (DataInv s → DataInv u) ∧
    (engineStep s = .next u.succeeded ∨
      ∃ (op stage : Byte) (c : Cause) (info : Word), engineStep s = .next (u.failed (errWord op stage c) info)) := by
  cases h : decode s.cmd with
  | command i =>
    rw [engineStep_command h]
    obtain ⟨u, hu, hk, e⟩ := exec_cases (i := i) (exec_eq i s)
    refine ⟨u, hu, hk, ?_⟩
    rw [exec_eq]
    rcases e with e | ⟨stage, r, e⟩
    · exact .inl (by rw [e])
    · exact .inr ⟨_, _, _, _, by rw [e]⟩
  | reject r =>
    rw [engineStep_reject h]
    obtain ⟨c, e⟩ := commandError_eq r s
    exact ⟨s, Untouched.refl s, id, .inr ⟨_, _, c, _, by rw [e]⟩⟩

/-- The machine never stops. -/
theorem step_next (s : State) : ∃ t, step s = .next t := by
  cases h : engineMoves s with
  | false => exact ⟨_, step_host h⟩
  | true =>
    rw [step_engine h]
    obtain ⟨u, _, _, e | ⟨_, _, _, _, e⟩⟩ := engineStep_cases s
    · exact ⟨_, e⟩
    · exact ⟨_, e⟩

theorem engineMoves_busy {s : State} (h : engineMoves s = true) : s.busy = true := by
  simp only [engineMoves, Bool.and_eq_true] at h; exact h.1.1

/-! ### The HOST's side -/

/-- What a HOST write can do to the block: what it stores, and the acceptance of a command. -/
inductive WriteEffect (s : State) : State → Prop where
  | nothing : WriteEffect s s
  | overrun (hb : s.busy = true) : WriteEffect s { s with overrun := true }
  | accept (hb : s.busy = false) (v : Word) : WriteEffect s (accept v s)
  | status (v : Word) : WriteEffect s (clearStatus v s)
  | enables (d e : Bool) : WriteEffect s { s with doneIe := d, errIe := e }
  | inLen (hb : s.busy = false) (v : Word) : WriteEffect s { s with inLen := v }
  | selectors (l q : Byte) (n : BitVec 9) (b p : Word) :
      WriteEffect s { s with lsel := l, ssel := q, nsel := n, bsel := b, psel := p }
  | inByte (hb : s.busy = false) (a : Nat) (ha : a < s.capIn.toNat) (v : Byte) :
      WriteEffect s { s with inMem := s.inMem.write a v }

theorem writeReg_cases {r : Reg} {v : Word} {s t : State} (h : writeReg r v s = some t) : WriteEffect s t := by
  cases r <;> simp only [writeReg, Option.some.injEq] at h <;> try (subst h; exact .nothing)
  · subst h
    split
    · exact .overrun ‹_›
    · exact .accept (Bool.eq_false_of_not_eq_true ‹_›) v
  · subst h; exact .status v
  · subst h; exact .enables _ _
  · split at h
    · cases h
    · obtain rfl := Option.some.inj h
      exact .inLen (Bool.eq_false_of_not_eq_true ‹_›) v
  · subst h; exact .selectors _ s.ssel s.nsel s.bsel s.psel
  · subst h; exact .selectors s.lsel _ s.nsel s.bsel s.psel
  · subst h; exact .selectors s.lsel s.ssel _ s.bsel s.psel
  · subst h; exact .selectors s.lsel s.ssel s.nsel _ s.psel
  · subst h; exact .selectors s.lsel s.ssel s.nsel s.bsel _

theorem target_inByte {s : State} {offset : Word} {width a : Nat} (h : target s offset width = .inByte a) :
    a < s.capIn.toNat := by
  simp only [target] at h
  split_ifs at h
  · obtain rfl := Target.inByte.inj h; omega

theorem hostWrite_cases (offset : Word) (width : Nat) (data : Word) (s : State) :
    WriteEffect s (hostWrite offset width data s).2 := by
  unfold hostWrite
  split
  · split
    · exact writeReg_cases ‹_›
    · exact .nothing
  · exact .nothing
  · split
    · exact .nothing
    · exact .inByte (Bool.eq_false_of_not_eq_true ‹_›) _ (target_inByte ‹_›) _
  · exact .nothing
  · exact .nothing

/-- A read changes nothing but the count of free values. -/
theorem readReg_cases (r : Reg) (s : State) : (readReg r s).2 = s ∨ (s.busy = true ∧ (readReg r s).2 = s.draw) := by
  unfold readReg
  split_ifs <;> simp_all

theorem hostRead_cases (offset : Word) (width : Nat) (s : State) :
    (hostRead offset width s).2 = s ∨ (s.busy = true ∧ (hostRead offset width s).2 = s.draw) := by
  unfold hostRead
  split
  · exact readReg_cases _ s
  · exact .inl rfl
  · exact .inl rfl
  · split
    · exact .inr ⟨‹_›, rfl⟩
    · exact .inl rfl
  · exact .inl rfl

/-- What a HOST operation leaves, before its answer is recorded. -/
inductive AccessEffect (s : State) : State → Prop where
  | read : AccessEffect s s
  | draw (hb : s.busy = true) : AccessEffect s s.draw
  | write {t : State} (hr : s.resetAsserted = false) (h : WriteEffect s t) : AccessEffect s t

/-- The cases of HOST's side of a step. -/
theorem perform_cases (op : HostOp) (s : State) :
    (op = .assertReset ∧ perform op s = resetBlock true s) ∨
    (op = .releaseReset ∧ s.resetAsserted = true ∧ perform op s = resetBlock false s) ∨
    (op = .releaseReset ∧ s.resetAsserted = false ∧ perform op s = s) ∨
    ∃ reply t, AccessEffect s t ∧ perform op s = answer s.busy (reply, t) := by
  cases op with
  | assertReset => exact .inl ⟨rfl, rfl⟩
  | releaseReset =>
    cases h : s.resetAsserted with
    | true => exact .inr (.inl ⟨rfl, rfl, by simp [perform, h]⟩)
    | false => exact .inr (.inr (.inl ⟨rfl, rfl, by simp [perform, h]⟩))
  | wait =>
    refine .inr (.inr (.inr ?_))
    cases h : s.resetAsserted with
    | true => exact ⟨.notTaken, s, .read, by simp [perform, h]⟩
    | false =>
      rcases readReg_cases .status s with e | ⟨hb, e⟩
      · exact ⟨.word (readReg .status s).1, s, .read, by
          simp only [perform, h, Bool.false_eq_true, if_false]; exact congrArg _ (Prod.ext rfl e)⟩
      · exact ⟨.word (readReg .status s).1, s.draw, .draw hb, by
          simp only [perform, h, Bool.false_eq_true, if_false]; exact congrArg _ (Prod.ext rfl e)⟩
  | read offset width =>
    refine .inr (.inr (.inr ?_))
    cases h : s.resetAsserted with
    | true => exact ⟨.notTaken, s, .read, by simp [perform, h]⟩
    | false =>
      rcases hostRead_cases offset width s with e | ⟨hb, e⟩
      · exact ⟨(hostRead offset width s).1, s, .read, by
          simp only [perform, h, Bool.false_eq_true, if_false]; exact congrArg _ (Prod.ext rfl e)⟩
      · exact ⟨(hostRead offset width s).1, s.draw, .draw hb, by
          simp only [perform, h, Bool.false_eq_true, if_false]; exact congrArg _ (Prod.ext rfl e)⟩
  | write offset width data =>
    refine .inr (.inr (.inr ?_))
    cases h : s.resetAsserted with
    | true => exact ⟨.notTaken, s, .read, by simp [perform, h]⟩
    | false => exact ⟨(hostWrite offset width data s).1, (hostWrite offset width data s).2,
        .write h (hostWrite_cases offset width data s), by simp [perform, h]⟩

/-! ### The invariant -/

theorem inv_atReset {capIn capOut capBits : Word} (h1 : 17 ≤ capIn.toNat) (h2 : capIn.toNat ≤ 2 ^ 56) (h3 : 17 ≤ capOut.toNat)
    (k : Nat) : Inv (State.atReset capIn capOut capBits k) where
  data :=
    { caps := ⟨h1, h2, h3⟩
      inWf := List.Pairwise.nil, inRange := by simp [State.atReset]
      outWf := List.Pairwise.nil, outRange := by simp [State.atReset]
      listLength := rfl, listShort := by simp [State.atReset], storeLength := rfl
      list := by simp [State.atReset], tree := by simp [State.atReset], codes := by simp [State.atReset]
      fits := by simp [State.atReset], packed := by simp [State.atReset]
      bitsWritten := by simp [State.atReset], payloadWritten := by simp [State.atReset]
      bitbufSize := by simp [State.atReset], payloadSize := by simp [State.atReset], outFits := by simp [State.atReset]
      width := .inl rfl
      drawn := by simp [State.atReset] }
  control :=
    { oneReport := by simp [State.atReset], busyClear := by simp [State.atReset], errLegal := .inl rfl
      errorErr := by simp [State.atReset], doneErr := by simp [State.atReset]
      sequencing := ⟨rfl, rfl, rfl⟩, resetIdle := by simp [State.atReset] }

theorem Inv.resetBlock {s : State} (h : Inv s) (asserted : Bool) : Inv (resetBlock asserted s) := by
  have i := inv_atReset (capBits := s.capBits) h.data.caps.inLow h.data.caps.inHigh h.data.caps.outLow s.draws
  exact
    { data := i.data.control (hd := le_rfl) ..
      control :=
        { oneReport := i.control.oneReport, busyClear := i.control.busyClear, errLegal := i.control.errLegal
          errorErr := i.control.errorErr, doneErr := i.control.doneErr, sequencing := i.control.sequencing
          resetIdle := fun _ => rfl } }

theorem Inv.writeEffect {s t : State} (h : Inv s) (hr : s.resetAsserted = false) (e : WriteEffect s t) : Inv t := by
  obtain ⟨d, c⟩ := h
  cases e with
  | nothing => exact ⟨d, c⟩
  | overrun hb =>
    exact ⟨d.control (hd := le_rfl) .., c.oneReport, c.busyClear, c.errLegal, c.errorErr, c.doneErr, c.sequencing, c.resetIdle⟩
  | accept hb v =>
    refine ⟨d.control (hd := Nat.le_succ _) .., ?_⟩
    exact ⟨by simp, by simp, .inl rfl, by simp, by simp, ⟨rfl, rfl, rfl⟩, by simp [hr]⟩
  | status v =>
    refine ⟨d.control (hd := le_rfl) .., ?_, ?_, c.errLegal, ?_, ?_, c.sequencing, c.resetIdle⟩
    · simp only [clearStatus, Bool.and_eq_true]; exact fun h => c.oneReport ⟨h.1.1, h.2.1⟩
    · intro hb
      obtain ⟨h1, h2, h3, h4⟩ := c.busyClear hb
      exact ⟨by simp [clearStatus, h1], by simp [clearStatus, h2], h3, h4⟩
    · simp only [clearStatus, Bool.and_eq_true]; exact fun h => c.errorErr h.1
    · simp only [clearStatus, Bool.and_eq_true]; exact fun h => c.doneErr h.1
  | enables x y =>
    exact ⟨d.control (hd := le_rfl) .., c.oneReport, c.busyClear, c.errLegal, c.errorErr, c.doneErr, c.sequencing, c.resetIdle⟩
  | inLen hb v =>
    exact ⟨d.control (hd := le_rfl) .., c.oneReport, c.busyClear, c.errLegal, c.errorErr, c.doneErr, c.sequencing, c.resetIdle⟩
  | selectors l q n b p =>
    exact ⟨d.control (hd := le_rfl) .., c.oneReport, c.busyClear, c.errLegal, c.errorErr, c.doneErr, c.sequencing, c.resetIdle⟩
  | inByte hb a ha v =>
    refine ⟨?_, c.oneReport, c.busyClear, c.errLegal, c.errorErr, c.doneErr, c.sequencing, c.resetIdle⟩
    exact
      { caps := ⟨d.caps.inLow, d.caps.inHigh, d.caps.outLow⟩
        inWf := Memory.wf_write d.inWf a v
        inRange := fun x hx => by
          rcases Memory.mem_write hx with rfl | hx
          · exact ha
          · exact d.inRange x hx
        outWf := d.outWf, outRange := d.outRange, listLength := d.listLength, listShort := d.listShort
        storeLength := d.storeLength, list := d.list, tree := d.tree, codes := d.codes, fits := d.fits, packed := d.packed
        bitsWritten := d.bitsWritten, payloadWritten := d.payloadWritten, bitbufSize := d.bitbufSize
        payloadSize := d.payloadSize, outFits := d.outFits, width := d.width, drawn := d.drawn }

theorem Inv.accessEffect {s t : State} (h : Inv s) (e : AccessEffect s t) : Inv t := by
  cases e with
  | read => exact h
  | draw hb =>
    obtain ⟨d, c⟩ := h
    exact ⟨d.control (hd := Nat.le_succ _) .., c.oneReport, c.busyClear, c.errLegal, c.errorErr, c.doneErr, c.sequencing,
      c.resetIdle⟩
  | write hr w => exact h.writeEffect hr w

theorem Inv.answer {s : State} (h : Inv s) (running : Bool) (r : Reply) : Inv (answer running (r, s)) := by
  obtain ⟨d, c⟩ := h
  exact ⟨d.control (hd := le_rfl) .., c.oneReport, c.busyClear, c.errLegal, c.errorErr, c.doneErr, c.sequencing, c.resetIdle⟩

theorem Inv.inputs {s : State} (h : Inv s) (l : List HostOp) : Inv { s with inputs := l } := by
  obtain ⟨d, c⟩ := h
  exact ⟨d.control (hd := le_rfl) .., c.oneReport, c.busyClear, c.errLegal, c.errorErr, c.doneErr, c.sequencing, c.resetIdle⟩

theorem Inv.hostStep {s : State} (h : Inv s) : Inv (hostStep s) := by
  cases hi : s.inputs with
  | nil => simpa [Machine.hostStep, hi] using h
  | cons op rest =>
    have e : Machine.hostStep s = perform op { s with inputs := rest } := by simp [Machine.hostStep, hi]
    rw [e]
    have h' := h.inputs rest
    rcases perform_cases op { s with inputs := rest } with ⟨_, e⟩ | ⟨_, _, e⟩ | ⟨_, _, e⟩ | ⟨r, t, ha, e⟩
    · rw [e]; exact h'.resetBlock true
    · rw [e]; exact h'.resetBlock false
    · rw [e]; exact h'
    · rw [e]; exact (h'.accessEffect ha).answer _ _

end Sys2Proof.Machine
end

