-- ==== Sys2Proof/Laws/Bus.lean ====
section
/-! SUPPORT. Where a HOST access lands (20_memory.md R71, R72), the bits of STATUS (10_state.md R24), and the bits of the stream and
payload windows (R44, R45). -/

namespace Sys2Proof.Machine

/-! ### Targets -/

theorem target_reg {s : State} {o : Word} (h : o.toNat < 0x1000) (h8 : o.toNat % 8 = 0) :
    target s o 8 = .reg (regAt o.toNat) := by
  have h' : o.toNat < Config.regEnd := h
  simp [target, h', h8]

theorem target_eq_reg {s : State} {o : Word} {w : Nat} {r : Option Reg} (h : target s o w = .reg r) :
    w = 8 ∧ o.toNat % 8 = 0 ∧ o.toNat < 0x1000 ∧ r = regAt o.toNat := by
  simp only [target] at h
  split_ifs at h with h1 h2
  exact ⟨h2.1, h2.2, h1, (Target.reg.inj h).symm⟩

theorem target_in {s : State} {o : Word} (h1 : 0x1000000000000000 ≤ o.toNat)
    (h2 : o.toNat < 0x1000000000000000 + s.capIn.toNat) :
    target s o 1 = .inByte (o.toNat - 0x1000000000000000) := by
  have a : ¬ o.toNat < Config.regEnd := by simp only [Config.regEnd]; omega
  have b : Config.inBase ≤ o.toNat ∧ o.toNat < Config.inBase + s.capIn.toNat := ⟨h1, h2⟩
  simp only [target, if_neg a, if_pos b]; rfl

theorem target_out {s : State} (hc : CapsLegal s) {o : Word} (h1 : 0x2000000000000000 ≤ o.toNat)
    (h2 : o.toNat < 0x2000000000000000 + s.capOut.toNat) :
    target s o 1 = .outByte (o.toNat - 0x2000000000000000) := by
  have := hc.inHigh
  have a : ¬ o.toNat < Config.regEnd := by simp only [Config.regEnd]; omega
  have b : ¬ (Config.inBase ≤ o.toNat ∧ o.toNat < Config.inBase + s.capIn.toNat) := by
    simp only [Config.inBase]; omega
  have c : Config.outBase ≤ o.toNat ∧ o.toNat < Config.outBase + s.capOut.toNat := ⟨h1, h2⟩
  simp only [target, if_neg a, if_neg b, if_pos c]; rfl

/-- The register map has each register once (10_state.md R22). -/
theorem nodup_regMap : regMap.Nodup := by decide

theorem regAt_eq {n k : Nat} {r : Reg} (h : regAt n = some r) (hk : regMap[k]? = some r) : n / 8 = k := by
  obtain ⟨h1, e1⟩ := List.getElem?_eq_some_iff.mp h
  obtain ⟨h2, e2⟩ := List.getElem?_eq_some_iff.mp hk
  exact (nodup_regMap.getElem_inj_iff).mp (e1.trans e2.symm)

/-- The one access that reaches a register: 8 bytes at its offset. -/
theorem target_register {s : State} {o : Word} {w k : Nat} {r : Reg} (h : target s o w = .reg (some r))
    (hk : regMap[k]? = some r) : w = 8 ∧ o.toNat = 8 * k := by
  obtain ⟨h1, h2, h3, h4⟩ := target_eq_reg h
  have := regAt_eq h4.symm hk
  exact ⟨h1, by omega⟩

theorem eq_ofNat_of_toNat {o : Word} {n : Nat} (h : o.toNat = n) : o = BitVec.ofNat 64 n := by
  rw [← h, BitVec.ofNat_toNat, BitVec.setWidth_eq]

/-! ### HOST's side of a step -/

theorem hostStep_cons {s : State} {op : HostOp} {rest : List HostOp} (h : s.inputs = op :: rest) :
    hostStep s = perform op { s with inputs := rest } := by simp only [hostStep, h]

theorem hostStep_nil {s : State} (h : s.inputs = []) : hostStep s = s := by simp only [hostStep, h]

theorem perform_read {s : State} (h : s.resetAsserted = false) (o : Word) (w : Nat) :
    perform (.read o w) s = answer s.busy (hostRead o w s) := by simp only [perform, h, Bool.false_eq_true, if_false]

theorem perform_write {s : State} (h : s.resetAsserted = false) (o : Word) (w : Nat) (d : Word) :
    perform (.write o w d) s = answer s.busy (hostWrite o w d s) := by simp only [perform, h, Bool.false_eq_true, if_false]

theorem perform_wait {s : State} (h : s.resetAsserted = false) :
    perform .wait s = answer s.busy (.word (readReg .status s).1, (readReg .status s).2) := by
  simp only [perform, h, Bool.false_eq_true, if_false]

/-- While reset is asserted an access is not taken. -/
theorem perform_notTaken {s : State} (h : s.resetAsserted = true) {op : HostOp} (h1 : op ≠ .assertReset)
    (h2 : op ≠ .releaseReset) : perform op s = answer s.busy (.notTaken, s) := by
  cases op with
  | assertReset => exact absurd rfl h1
  | releaseReset => exact absurd rfl h2
  | wait => simp only [perform, h, if_true]
  | read o w => simp only [perform, h, if_true]
  | write o w d => simp only [perform, h, if_true]

theorem answer_idle {b : Bool} (h : b = false) (r : Reply × State) :
    answer b r = { r.2 with replies := r.1 :: r.2.replies } := by subst h; rfl

/-- A HOST access leaves the queue of accesses and the answers to the step. -/
theorem hostWrite_queues (o : Word) (w : Nat) (d : Word) (s : State) :
    (hostWrite o w d s).2.replies = s.replies ∧ (hostWrite o w d s).2.inputs = s.inputs := by
  have h := hostWrite_cases o w d s
  generalize (hostWrite o w d s).2 = t at h
  cases h <;> exact ⟨rfl, rfl⟩

theorem hostRead_queues (o : Word) (w : Nat) (s : State) :
    (hostRead o w s).2.replies = s.replies ∧ (hostRead o w s).2.engineDelay = s.engineDelay := by
  rcases hostRead_cases o w s with e | ⟨_, e⟩ <;> rw [e] <;> exact ⟨rfl, rfl⟩

/-- The accesses that HOST makes now are not those that reset drops. -/
theorem resetComes_dropWhile (l : List HostOp) : resetComes (l.dropWhile fun op => resetComes [op]) = false := by
  induction l with
  | nil => rfl
  | cons op l ih =>
    rw [List.dropWhile_cons]
    split
    · exact ih
    · cases op <;> first | rfl | simp_all [resetComes]

/-! ### STATUS -/

theorem toNat_bool_lt (b : Bool) : b.toNat < 2 := by cases b <;> decide

/-- The low bits of STATUS. -/
theorem statusWord_low (s : State) (v : Nat) :
    (statusWord s v).getLsbD 0 = s.busy ∧ (statusWord s v).getLsbD 1 = s.done ∧ (statusWord s v).getLsbD 2 = s.error ∧
      (statusWord s v).getLsbD 3 = s.overrun ∧ (statusWord s v).getLsbD 4 = irq s := by
  have key : ∀ (a b c d e : Bool) (j : Nat), j < 5 →
      (BitVec.ofNat 64 (a.toNat + 2 * b.toNat + 4 * c.toNat + 8 * d.toNat + 16 * e.toNat + 256 * v)).getLsbD j =
        (BitVec.ofNat 5 (a.toNat + 2 * b.toNat + 4 * c.toNat + 8 * d.toNat + 16 * e.toNat)).getLsbD j := by
    intro a b c d e j hj
    simp only [BitVec.getLsbD_ofNat, hj, decide_true, Bool.true_and, show j < 64 by omega]
    rw [show a.toNat + 2 * b.toNat + 4 * c.toNat + 8 * d.toNat + 16 * e.toNat + 256 * v =
      (a.toNat + 2 * b.toNat + 4 * c.toNat + 8 * d.toNat + 16 * e.toNat) + 2 ^ 5 * (8 * v) by ring]
    have : a.toNat + 2 * b.toNat + 4 * c.toNat + 8 * d.toNat + 16 * e.toNat < 2 ^ 5 := by
      have := toNat_bool_lt a; have := toNat_bool_lt b; have := toNat_bool_lt c; have := toNat_bool_lt d
      have := toNat_bool_lt e; omega
    rw [Nat.add_comm, Nat.testBit_two_pow_mul_add _ this, if_pos hj]
  simp only [statusWord]
  rw [key _ _ _ _ _ 0 (by omega), key _ _ _ _ _ 1 (by omega), key _ _ _ _ _ 2 (by omega), key _ _ _ _ _ 3 (by omega),
    key _ _ _ _ _ 4 (by omega)]
  cases s.busy <;> cases s.done <;> cases s.error <;> cases s.overrun <;> cases irq s <;> decide

/-- The other bits of STATUS: the valid bits are bits 12:8, and the rest read 0. -/
theorem statusWord_high (s : State) (v : Nat) (hv : v < 32) (j : Nat) :
    (5 ≤ j → j < 8 → (statusWord s v).getLsbD j = false) ∧ (8 ≤ j → (statusWord s v).getLsbD j = v.testBit (j - 8)) := by
  have lt : s.busy.toNat + 2 * s.done.toNat + 4 * s.error.toNat + 8 * s.overrun.toNat + 16 * (irq s).toNat < 2 ^ 5 := by
    have := toNat_bool_lt s.busy; have := toNat_bool_lt s.done; have := toNat_bool_lt s.error
    have := toNat_bool_lt s.overrun; have := toNat_bool_lt (irq s); omega
  have e : (statusWord s v).getLsbD j = (decide (j < 64) && (2 ^ 8 * v +
      (s.busy.toNat + 2 * s.done.toNat + 4 * s.error.toNat + 8 * s.overrun.toNat + 16 * (irq s).toNat)).testBit j) := by
    rw [statusWord, BitVec.getLsbD_ofNat, Nat.add_comm (2 ^ 8 * v)]; norm_num
  rw [e, Nat.testBit_two_pow_mul_add _ (by omega)]
  refine ⟨fun h5 h8 => ?_, fun h8 => ?_⟩
  · rw [if_pos h8, Nat.testBit_lt_two_pow (lt_of_lt_of_le lt (Nat.pow_le_pow_right (by omega) h5)), Bool.and_false]
  · rw [if_neg (by omega)]
    by_cases h : j < 64
    · simp [h]
    · rw [Nat.testBit_lt_two_pow (lt_of_lt_of_le hv (by
        calc 32 = 2 ^ 5 := by norm_num
          _ ≤ 2 ^ (j - 8) := Nat.pow_le_pow_right (by omega) (by omega)))]
      simp

theorem validBits_lt (s : State) : validBits s < 32 := by
  simp only [validBits]
  have := toNat_bool_lt s.slistV; have := toNat_bool_lt s.treeV; have := toNat_bool_lt s.cbV
  have := toNat_bool_lt s.bitsV; have := toNat_bool_lt s.payloadV; omega

theorem testBit_validBits (s : State) :
    (validBits s).testBit 0 = s.slistV ∧ (validBits s).testBit 1 = s.treeV ∧ (validBits s).testBit 2 = s.cbV ∧
      (validBits s).testBit 3 = s.bitsV ∧ (validBits s).testBit 4 = s.payloadV := by
  simp only [validBits]
  cases s.slistV <;> cases s.treeV <;> cases s.cbV <;> cases s.bitsV <;> cases s.payloadV <;> decide

/-- A read of STATUS gives some valid bits, the block's own while BUSY = 0. -/
theorem readReg_status (s : State) : ∃ v, v < 32 ∧ (readReg .status s).1 = statusWord s v ∧ (s.busy = false → v = validBits s) := by
  by_cases h : s.busy = true
  · refine ⟨(Config.freeWord s.draws).toNat % 32, Nat.mod_lt _ (by omega), ?_, by simp [h]⟩
    simp [readReg, h]
  · exact ⟨_, validBits_lt s, by simp [readReg, h, regValue], fun _ => rfl⟩

theorem readReg_idle {s : State} (h : s.busy = false) (r : Reg) : readReg r s = (regValue r s, s) := by simp [readReg, h]

/-- WAIT on an idle block answers STATUS. -/
theorem perform_wait_idle {s : State} (h : s.resetAsserted = false) (hb : s.busy = false) :
    perform .wait s = { s with replies := .word (statusWord s (validBits s)) :: s.replies } := by
  rw [perform_wait h, readReg_idle hb, answer_idle hb]
  rfl

/-- After a word is placed it is the ENGINE's turn. -/
theorem engineMoves_placeWord (v : Word) (s : State) : engineMoves (placeWord v s) = true := by
  have h1 : (placeWord v s).busy = true := rfl
  have h2 : (placeWord v s).engineDelay = 0 := rfl
  have h3 : (placeWord v s).inputs = s.inputs.dropWhile fun op => resetComes [op] := rfl
  rw [engineMoves, h1, h2, h3, resetComes_dropWhile]
  simp

/-! ### The windows over bits and bytes -/

theorem getLsbD_bitsToNat (bs : List Bool) (h : bs.length ≤ 64) (j : Nat) :
    (BitVec.ofNat 64 (bitsToNat bs)).getLsbD j = bs.getD j false := by
  rw [BitVec.getLsbD_ofNat, testBit_bitsToNat]
  by_cases hj : j < 64
  · simp [hj]
  · rw [List.getD_eq_getElem?_getD, List.getElem?_eq_none (by omega)]; simp

theorem littleEndian_lt (bs : List Byte) : littleEndian bs < 256 ^ bs.length := by
  induction bs with
  | nil => simp [littleEndian]
  | cons b bs ih =>
    have := b.isLt
    simp only [littleEndian, List.length_cons, pow_succ]; omega

theorem testBit_littleEndian (bs : List Byte) (k q : Nat) (hq : q < 8) :
    (littleEndian bs).testBit (8 * k + q) = (bs.getD k 0#8).getLsbD q := by
  induction bs generalizing k with
  | nil => simp [littleEndian]
  | cons b bs ih =>
    have e : littleEndian (b :: bs) = 2 ^ 8 * littleEndian bs + b.toNat := by simp only [littleEndian]; omega
    rw [e, Nat.testBit_two_pow_mul_add _ b.isLt]
    cases k with
    | zero => simp only [Nat.mul_zero, Nat.zero_add, if_pos hq, List.getD_cons_zero]; rfl
    | succ k =>
      rw [if_neg (by omega), show 8 * (k + 1) + q - 8 = 8 * k + q by omega, ih, List.getD_cons_succ]

theorem extract_littleEndian (bs : List Byte) (k : Nat) (hk : k < 8) :
    (BitVec.ofNat 64 (littleEndian bs)).extractLsb' (8 * k) 8 = bs.getD k 0#8 := by
  apply BitVec.eq_of_getLsbD_eq
  intro q hq
  rw [BitVec.getLsbD_extractLsb', BitVec.getLsbD_ofNat, testBit_littleEndian _ _ _ hq]
  simp [hq, show 8 * k + q < 64 by omega]

end Sys2Proof.Machine
end

