-- ==== Sys2Proof/Laws/Optimal.lean ====
section
/-! SUPPORT. Merging the two least weights again and again costs no more than any lengths that fit a code space (41_tree.md R159). -/

namespace Sys2Proof.Machine

/-- What merging the two least weights again and again adds up to: the sum of the weights of all merged nodes. -/
inductive MergeCost : List Nat → Nat → Prop where
  | one (w : Nat) : MergeCost [w] 0
  | merge {ws rest : List Nat} {a b c : Nat} (p : ws.Perm (a :: b :: rest)) (ha : ∀ y ∈ b :: rest, a ≤ y)
      (hb : ∀ y ∈ rest, b ≤ y) (h : MergeCost ((a + b) :: rest) c) : MergeCost ws (a + b + c)

theorem MergeCost.perm {ws vs : List Nat} {c : Nat} (h : MergeCost ws c) (p : vs.Perm ws) : MergeCost vs c := by
  cases h with
  | one w => rw [List.perm_singleton.mp p]; exact .one w
  | merge q ha hb h => exact .merge (p.trans q) ha hb h

/-- The cost of some weights with lengths. -/
def lengthCost (ps : List (Nat × Nat)) : Nat := (ps.map fun p => p.1 * p.2).sum

/-- The part of a code space of depth `d` that some lengths take. -/
def kraftSum (d : Nat) (ls : List Nat) : Nat := (ls.map fun l => 2 ^ (d - l)).sum

theorem lengthCost_perm {ps qs : List (Nat × Nat)} (p : ps.Perm qs) : lengthCost ps = lengthCost qs := (p.map _).sum_eq

theorem kraftSum_perm (d : Nat) {ls ks : List Nat} (p : ls.Perm ks) : kraftSum d ls = kraftSum d ks := (p.map _).sum_eq

@[simp] theorem lengthCost_cons (p : Nat × Nat) (ps : List (Nat × Nat)) : lengthCost (p :: ps) = p.1 * p.2 + lengthCost ps := by
  simp [lengthCost]

@[simp] theorem kraftSum_cons (d l : Nat) (ls : List Nat) : kraftSum d (l :: ls) = 2 ^ (d - l) + kraftSum d ls := by
  simp [kraftSum]

/-- Giving the length `l`, no shorter than the others, to the least weight costs no more. -/
theorem exchange {zs : List (Nat × Nat)} {u a l : Nat} {rest : List Nat} (hl : ∀ z ∈ zs, z.2 ≤ l)
    (p : (u :: zs.map Prod.fst).Perm (a :: rest)) (ha : ∀ y ∈ rest, a ≤ y) :
    ∃ ys, (ys.map Prod.snd).Perm (zs.map Prod.snd) ∧ (ys.map Prod.fst).Perm rest ∧
      a * l + lengthCost ys ≤ u * l + lengthCost zs := by
  by_cases hu : u = a
  · subst hu; exact ⟨zs, List.Perm.refl _, p.cons_inv, le_rfl⟩
  · have hm : a ∈ zs.map Prod.fst := by
      have := p.mem_iff.mpr (List.mem_cons_self (a := a))
      rcases List.mem_cons.mp this with h | h
      · exact absurd h.symm hu
      · exact h
    obtain ⟨⟨a', la⟩, hz, rfl⟩ := List.mem_map.mp hm
    obtain ⟨xs, ys, rfl⟩ := List.append_of_mem hz
    have q : (xs ++ (a', la) :: ys).Perm ((a', la) :: (xs ++ ys)) := List.perm_middle
    have hau : a' ≤ u := by
      have := p.mem_iff.mp (List.mem_cons_self (a := u))
      rcases List.mem_cons.mp this with h | h
      · exact h.ge
      · exact ha u h
    refine ⟨(u, la) :: (xs ++ ys), ?_, ?_, ?_⟩
    · exact (q.map Prod.snd).symm
    · have r : (a' :: u :: (xs ++ ys).map Prod.fst).Perm (a' :: rest) :=
        (List.Perm.swap ..).trans (((q.map Prod.fst).symm.cons u).trans p)
      exact r.cons_inv
    · rw [lengthCost_perm q, lengthCost_cons, lengthCost_cons]
      have hla : la ≤ l := hl (a', la) hz
      simp only
      nlinarith

/-- A list of at least two pairs, its two longest first. -/
theorem two_longest (ps : List (Nat × Nat)) (h : 2 ≤ ps.length) :
    ∃ x y zs, ps.Perm (x :: y :: zs) ∧ y.2 ≤ x.2 ∧ ∀ z ∈ zs, z.2 ≤ y.2 := by
  have : ∀ qs : List (Nat × Nat), qs ≠ [] → ∃ x zs, qs.Perm (x :: zs) ∧ ∀ z ∈ zs, z.2 ≤ x.2 := by
    intro qs hq
    induction qs with
    | nil => exact absurd rfl hq
    | cons q qs ih =>
      by_cases h0 : qs = []
      · subst h0; exact ⟨q, [], List.Perm.refl _, by simp⟩
      · obtain ⟨x, zs, p, hx⟩ := ih h0
        by_cases hle : q.2 ≤ x.2
        · refine ⟨x, q :: zs, (p.cons q).trans (List.Perm.swap ..), fun z hz => ?_⟩
          rcases List.mem_cons.mp hz with rfl | hz
          · exact hle
          · exact hx z hz
        · refine ⟨q, x :: zs, p.cons q, fun z hz => ?_⟩
          rcases List.mem_cons.mp hz with rfl | hz
          · omega
          · have := hx z hz; omega
  obtain ⟨x, ys, p, hx⟩ := this ps (by rintro rfl; simp at h)
  obtain ⟨y, zs, q, hy⟩ := this ys (by rintro rfl; have := p.length_eq; simp at this; omega)
  exact ⟨x, y, zs, p.trans (q.cons x), hx y (q.mem_iff.mpr (by simp)), hy⟩

theorem dvd_kraftSum (d l : Nat) (ls : List Nat) (h : ∀ k ∈ ls, k ≤ l) : 2 ^ (d - l) ∣ kraftSum d ls := by
  induction ls with
  | nil => simp [kraftSum]
  | cons k ls ih =>
    rw [kraftSum_cons]
    refine Nat.dvd_add (pow_dvd_pow 2 ?_) (ih fun k hk => h k (by simp [hk]))
    have := h k (by simp)
    omega

/-- 41_tree.md R159: lengths that fit a code space cost at least what the merges cost. -/
theorem MergeCost.le_lengthCost {ws : List Nat} {c : Nat} (h : MergeCost ws c) (d : Nat) :
    ∀ ps : List (Nat × Nat), (ps.map Prod.fst).Perm ws → (∀ p ∈ ps, p.2 ≤ d) → kraftSum d (ps.map Prod.snd) ≤ 2 ^ d →
      c ≤ lengthCost ps := by
  induction h with
  | one w => intro ps _ _ _; exact Nat.zero_le _
  | @merge ws rest a b c p ha hb _ ih =>
    intro ps hp hd hk
    have hl : 2 ≤ ps.length := by
      have := (hp.trans p).length_eq
      simp only [List.length_map, List.length_cons] at this; omega
    obtain ⟨x, y, zs, q, hxy, hz⟩ := two_longest ps hl
    obtain ⟨wx, m⟩ := x
    obtain ⟨wy, l⟩ := y
    simp only at hxy hz
    have hld : l ≤ d := hd _ (q.mem_iff.mpr (List.mem_cons_of_mem _ (List.mem_cons_self ..)))
    rw [kraftSum_perm d (q.map Prod.snd)] at hk
    simp only [List.map_cons, kraftSum_cons] at hk
    have pm : 0 < 2 ^ (d - m) := by positivity
    -- the two longest fit with the shorter of their lengths
    have fits : 2 ^ (d - l) + (2 ^ (d - l) + kraftSum d (zs.map Prod.snd)) ≤ 2 ^ d := by
      have dv : 2 ^ (d - l) ∣ 2 ^ (d - l) + kraftSum d (zs.map Prod.snd) := by
        refine Nat.dvd_add dvd_rfl (dvd_kraftSum d l _ fun k hk => ?_)
        obtain ⟨z, hz', rfl⟩ := List.mem_map.mp hk
        exact hz z hz'
      obtain ⟨i, hi⟩ := dv
      obtain ⟨j, hj⟩ : 2 ^ (d - l) ∣ 2 ^ d := pow_dvd_pow 2 (by omega)
      rw [hi, hj] at hk ⊢
      have pl : 0 < 2 ^ (d - l) := by positivity
      have : i < j := by
        by_contra hn
        have : 2 ^ (d - l) * j ≤ 2 ^ (d - l) * i := Nat.mul_le_mul_left _ (by omega)
        omega
      calc 2 ^ (d - l) + 2 ^ (d - l) * i = 2 ^ (d - l) * (i + 1) := by ring
        _ ≤ 2 ^ (d - l) * j := Nat.mul_le_mul_left _ this
    have l1 : 1 ≤ l := by
      by_contra h0
      obtain rfl : l = 0 := by omega
      simp only [Nat.sub_zero] at fits
      have : 0 < 2 ^ d := by positivity
      omega
    -- the least weight takes the place of the first, the second least that of the second
    have pw : (wx :: ((wy, l) :: zs).map Prod.fst).Perm (a :: b :: rest) := ((q.map Prod.fst).symm.trans hp).trans p
    obtain ⟨ys, s1, s2, s3⟩ := exchange (l := l) (fun z hz' => by
      rcases List.mem_cons.mp hz' with rfl | hz'
      · exact le_rfl
      · exact hz z hz') pw ha
    have hm : l ∈ ys.map Prod.snd := s1.mem_iff.mpr (by simp)
    obtain ⟨⟨u, l'⟩, hu, rfl⟩ := List.mem_map.mp hm
    simp only at *
    obtain ⟨as, bs, rfl⟩ := List.append_of_mem hu
    have r : (as ++ (u, l') :: bs).Perm ((u, l') :: (as ++ bs)) := List.perm_middle
    have s1' : ((as ++ bs).map Prod.snd).Perm (zs.map Prod.snd) := ((r.map Prod.snd).symm.trans s1).cons_inv
    have hz2 : ∀ z ∈ as ++ bs, z.2 ≤ l' := by
      intro z hz'
      have : z.2 ∈ zs.map Prod.snd := s1'.mem_iff.mp (List.mem_map.mpr ⟨z, hz', rfl⟩)
      obtain ⟨v, hv, e⟩ := List.mem_map.mp this
      rw [← e]; exact hz v hv
    obtain ⟨vs, t1, t2, t3⟩ := exchange hz2 ((r.map Prod.fst).symm.trans s2) hb
    have t1' := t1.trans s1'
    have key := ih ((a + b, l' - 1) :: vs) (t2.cons (a + b)) ?_ ?_
    · rw [lengthCost_perm q]
      rw [lengthCost_perm r] at s3
      simp only [lengthCost_cons] at *
      have e : (a + b) * l' = (a + b) * (l' - 1) + (a + b) := by
        obtain ⟨k, rfl⟩ : ∃ k, l' = k + 1 := ⟨l' - 1, by omega⟩
        simp only [Nat.add_sub_cancel]; ring
      have : wx * l' ≤ wx * m := Nat.mul_le_mul_left _ hxy
      nlinarith
    · intro v hv
      rcases List.mem_cons.mp hv with rfl | hv
      · simp only; omega
      · have : v.2 ∈ zs.map Prod.snd := t1'.mem_iff.mp (List.mem_map.mpr ⟨v, hv, rfl⟩)
        obtain ⟨z, hz', e⟩ := List.mem_map.mp this
        have := hz z hz'
        omega
    · rw [List.map_cons, kraftSum_cons, kraftSum_perm d t1']
      show 2 ^ (d - (l' - 1)) + _ ≤ _
      have : 2 ^ (d - (l' - 1)) = 2 ^ (d - l') + 2 ^ (d - l') := by
        rw [show d - (l' - 1) = (d - l') + 1 by omega, pow_succ]; ring
      omega

/-- The lengths of a prefix-free code fit the code space (Kraft). -/
theorem kraftSum_prefixFree (d : Nat) : ∀ cs : List (List Bool), (∀ c ∈ cs, c.length ≤ d) →
    cs.Pairwise (fun x y => ¬ x <+: y ∧ ¬ y <+: x) → kraftSum d (cs.map List.length) ≤ 2 ^ d := by
  induction d with
  | zero =>
    intro cs hd hp
    cases cs with
    | nil => simp [kraftSum]
    | cons c cs =>
      cases cs with
      | nil => simp [kraftSum]
      | cons e cs =>
        have h1 : c = [] := List.length_eq_zero_iff.mp (Nat.le_zero.mp (hd c (by simp)))
        have := ((List.pairwise_cons.mp hp).1 e (by simp)).1
        exact absurd (by rw [h1]; exact List.nil_prefix) this
  | succ d ih =>
    intro cs hd hp
    by_cases hn : [] ∈ cs
    · have : cs = [[]] := by
        obtain ⟨xs, ys, rfl⟩ := List.append_of_mem hn
        have hx : xs = [] := by
          cases xs with
          | nil => rfl
          | cons x xs =>
            have := ((List.pairwise_cons.mp hp).1 [] (by simp)).2
            exact absurd List.nil_prefix this
        subst hx
        cases ys with
        | nil => rfl
        | cons y ys =>
          have := ((List.pairwise_cons.mp hp).1 y (by simp)).1
          exact absurd List.nil_prefix this
      rw [this]; simp [kraftSum]
    · -- the codes that begin with a bit, without it
      have split : ∀ cs : List (List Bool), [] ∉ cs → (∀ c ∈ cs, c.length ≤ d + 1) →
          cs.Pairwise (fun x y => ¬ x <+: y ∧ ¬ y <+: x) →
          ∃ us vs : List (List Bool), (∀ c ∈ us, false :: c ∈ cs) ∧ (∀ c ∈ vs, true :: c ∈ cs) ∧
            us.Pairwise (fun x y => ¬ x <+: y ∧ ¬ y <+: x) ∧ vs.Pairwise (fun x y => ¬ x <+: y ∧ ¬ y <+: x) ∧
            kraftSum (d + 1) (cs.map List.length) = kraftSum d (us.map List.length) + kraftSum d (vs.map List.length) := by
        intro cs
        induction cs with
        | nil => intro _ _ _; exact ⟨[], [], by simp, by simp, List.Pairwise.nil, List.Pairwise.nil, by simp [kraftSum]⟩
        | cons c cs ih2 =>
          intro hn hd hp
          obtain ⟨hc, hp'⟩ := List.pairwise_cons.mp hp
          obtain ⟨us, vs, h1, h2, h3, h4, h5⟩ := ih2 (fun h => hn (List.mem_cons_of_mem _ h))
            (fun c hc => hd c (List.mem_cons_of_mem _ hc)) hp'
          cases c with
          | nil => exact absurd (List.mem_cons_self ..) hn
          | cons b c =>
            cases b with
            | false =>
              refine ⟨c :: us, vs, fun x hx => ?_, fun x hx => List.mem_cons_of_mem _ (h2 x hx),
                List.pairwise_cons.mpr ⟨fun x hx => ?_, h3⟩, h4, ?_⟩
              · rcases List.mem_cons.mp hx with rfl | hx
                · exact List.mem_cons_self ..
                · exact List.mem_cons_of_mem _ (h1 x hx)
              · have := hc _ (h1 x hx)
                simpa [List.cons_prefix_cons] using this
              · simp only [List.map_cons, kraftSum_cons, h5, List.length_cons, Nat.add_sub_add_right]; omega
            | true =>
              refine ⟨us, c :: vs, fun x hx => List.mem_cons_of_mem _ (h1 x hx), fun x hx => ?_, h3,
                List.pairwise_cons.mpr ⟨fun x hx => ?_, h4⟩, ?_⟩
              · rcases List.mem_cons.mp hx with rfl | hx
                · exact List.mem_cons_self ..
                · exact List.mem_cons_of_mem _ (h2 x hx)
              · have := hc _ (h2 x hx)
                simpa [List.cons_prefix_cons] using this
              · simp only [List.map_cons, kraftSum_cons, h5, List.length_cons, Nat.add_sub_add_right]; omega
      obtain ⟨us, vs, h1, h2, h3, h4, h5⟩ := split cs hn hd hp
      have g1 := ih us (fun c hc => by have := hd _ (h1 c hc); simp only [List.length_cons] at this; omega) h3
      have g2 := ih vs (fun c hc => by have := hd _ (h2 c hc); simp only [List.length_cons] at this; omega) h4
      rw [h5, pow_succ]; omega

end Sys2Proof.Machine
end

