-- ==== Sys2Proof/Laws/Huffman.lean ====
section
/-! SUPPORT. The tree that a node store stands for, the codes its paths give (42_codebook.md R171 to R173), and the walk
that reads them back (45_decoder.md R231). -/

namespace Sys2Proof.Machine

/-- A Huffman tree with the counts at its leaves. -/
inductive HTree where
  | leaf (sym : Byte) (cnt : Nat)
  | node (l r : HTree)

/-- The leaves from left to right. -/
def HTree.leaves : HTree → List (Byte × Nat)
  | .leaf s c => [(s, c)]
  | .node l r => l.leaves ++ r.leaves

/-- The sum of the counts under a tree (41_tree.md R157). -/
def HTree.weight : HTree → Nat
  | .leaf _ c => c
  | .node l r => l.weight + r.weight

/-- The sum of the weights of the inner nodes of a tree. -/
def HTree.cost : HTree → Nat
  | .leaf _ _ => 0
  | .node l r => l.weight + r.weight + l.cost + r.cost

/-- The symbols with the paths to their leaves, first child 0 (42_codebook.md R170). -/
def HTree.paths : HTree → List (Byte × List Bool)
  | .leaf s _ => [(s, [])]
  | .node l r => (l.paths.map fun c => (c.1, false :: c.2)) ++ (r.paths.map fun c => (c.1, true :: c.2))

/-- Node `x` of a store is the root of tree `t`; children have smaller numbers (10_state.md R35). -/
inductive Stands (nodes : List Node) : Nat → HTree → Prop where
  | leaf {x : Nat} {s : Byte} {f : Word} (h : nodes[x]? = some (.leaf s f)) : Stands nodes x (.leaf s f.toNat)
  | node {x : Nat} {a b : NodeIx} {f : Word} {l r : HTree} (h : nodes[x]? = some (.branch a b f))
      (hf : f = BitVec.ofNat 64 (l.weight + r.weight))
      (ha : a.toNat < x) (hb : b.toNat < x) (hl : Stands nodes a.toNat l) (hr : Stands nodes b.toNat r) :
      Stands nodes x (.node l r)

theorem Stands.append {nodes more : List Node} {x : Nat} {t : HTree} (h : Stands nodes x t) : Stands (nodes ++ more) x t := by
  have get : ∀ {x : Nat} {n : Node}, nodes[x]? = some n → (nodes ++ more)[x]? = some n := by
    intro x n h
    rw [List.getElem?_append_left (List.getElem?_eq_some_iff.mp h).1, h]
  induction h with
  | leaf h => exact .leaf (get h)
  | node h hf ha hb _ _ ihl ihr => exact .node (get h) hf ha hb ihl ihr

/-- The trees of a forest, one for each available node. -/
structure Forest (nodes : List Node) (ts : List (Item × HTree)) : Prop where
  stands : ∀ p ∈ ts, Stands nodes p.1.ix p.2
  weights : ∀ p ∈ ts, p.1.freq = p.2.weight

theorem exists_perm_of_perm_map {α β : Type} {ts : List (α × β)} {a : α} {l : List α} (p : (ts.map Prod.fst).Perm (a :: l)) :
    ∃ b ts', ts.Perm ((a, b) :: ts') ∧ (ts'.map Prod.fst).Perm l := by
  obtain ⟨⟨a', b⟩, hm, rfl⟩ := List.mem_map.mp (p.mem_iff.mpr (List.mem_cons_self ..))
  obtain ⟨s, u, rfl⟩ := List.append_of_mem hm
  refine ⟨b, s ++ u, List.perm_middle, ?_⟩
  have q : ((s ++ (a', b) :: u).map Prod.fst).Perm (a' :: (s ++ u).map Prod.fst) := by
    simp only [List.map_append, List.map_cons]; exact List.perm_middle
  exact (q.symm.trans p).cons_inv

/-- The merges of a forest of k + 1 trees make one tree over all its leaves; with at least one merge its root is the last
node of the store (10_state.md R35). -/
theorem mergeLoop_forest {Q : Type} {take : Q → Option (Item × Q)} {put : Item → Q → Q} {toL : Q → List Item}
    {G : Nat → Q → Prop} (hm : Merges take put toL G) :
    ∀ k next q (store : List Node) (ts : List (Item × HTree)), G next q → store.length = next → next + k ≤ 512 →
      (toL q).length = k + 1 → Forest store ts → (ts.map Prod.fst).Perm (toL q) →
      ∃ x t, Stands (store ++ mergeLoop take put k next q) x t ∧ t.leaves.Perm (ts.flatMap fun p => p.2.leaves) ∧
        (k = 0 → ∃ f, toL q = [⟨f, x⟩]) ∧ (0 < k → x + 1 = next + k ∧ ∃ l r, t = .node l r) ∧
        ∃ c, MergeCost ((toL q).map (·.freq)) c ∧ t.cost = c + (ts.map fun p => p.2.cost).sum := by
  intro k
  induction k with
  | zero =>
    intro next q store ts _ _ _ hl hf p
    obtain ⟨i, hi⟩ := List.length_eq_one_iff.mp hl
    rw [hi] at p
    obtain ⟨⟨i', t⟩, rfl⟩ : ∃ y, ts = [y] := List.length_eq_one_iff.mp (by simpa using p.length_eq)
    obtain rfl : i' = i := by simpa using p
    refine ⟨i'.ix, t, ?_, by simp, fun _ => ⟨i'.freq, hi⟩, by simp, 0, by rw [hi]; exact .one _, by simp⟩
    simpa [mergeLoop] using hf.stands (i', t) (by simp)
  | succ k ih =>
    intro next q store ts hg hs hb hl hf p
    obtain ⟨a, q1, b, q2, e1, e2, p1, m1, m2, g1, pp⟩ := hm.step next q hg (by omega)
    obtain ⟨ta, ts1, pa, pa'⟩ := exists_perm_of_perm_map (p.trans p1)
    obtain ⟨tb, ts2, pb, pb'⟩ := exists_perm_of_perm_map pa'
    have pab : ts.Perm ((a, ta) :: (b, tb) :: ts2) := pa.trans (pb.cons _)
    have fr := hm.fresh _ _ hg
    have ma : (a, ta) ∈ ts := pab.mem_iff.mpr (by simp)
    have mb : (b, tb) ∈ ts := pab.mem_iff.mpr (by simp)
    have la : a.ix < next := fr.2 a (p1.mem_iff.mpr (by simp))
    have lb : b.ix < next := fr.2 b (p1.mem_iff.mpr (by simp))
    have na : (BitVec.ofNat 9 a.ix).toNat = a.ix := by rw [BitVec.toNat_ofNat, Nat.mod_eq_of_lt (by omega)]
    have nb : (BitVec.ofNat 9 b.ix).toNat = b.ix := by rw [BitVec.toNat_ofNat, Nat.mod_eq_of_lt (by omega)]
    let nd : Node := .branch (BitVec.ofNat 9 a.ix) (BitVec.ofNat 9 b.ix) (BitVec.ofNat 64 (a.freq + b.freq))
    have st : Stands (store ++ [nd]) next (.node ta tb) := by
      refine .node (a := BitVec.ofNat 9 a.ix) (b := BitVec.ofNat 9 b.ix) (f := BitVec.ofNat 64 (a.freq + b.freq)) ?_ ?_
        (by omega) (by omega) ?_ ?_
      · rw [List.getElem?_append_right (by omega), hs, Nat.sub_self]; rfl
      · rw [hf.weights _ ma, hf.weights _ mb]
      · rw [na]; exact (hf.stands _ ma).append
      · rw [nb]; exact (hf.stands _ mb).append
    have hf' : Forest (store ++ [nd]) ((⟨a.freq + b.freq, next⟩, .node ta tb) :: ts2) := by
      refine ⟨fun y hy => ?_, fun y hy => ?_⟩
      · rcases List.mem_cons.mp hy with rfl | hy
        · exact st
        · exact (hf.stands y (pab.mem_iff.mpr (by simp [hy]))).append
      · rcases List.mem_cons.mp hy with rfl | hy
        · simp only [HTree.weight]; rw [hf.weights _ ma, hf.weights _ mb]
        · exact hf.weights y (pab.mem_iff.mpr (by simp [hy]))
    have hl2 : (toL (put ⟨a.freq + b.freq, next⟩ q2)).length = k + 1 := by
      have := p1.length_eq
      have := pp.length_eq
      simp only [List.length_cons] at *; omega
    obtain ⟨x, t, sx, lx, k0, kp, c, mc, tc⟩ := ih (next + 1) (put ⟨a.freq + b.freq, next⟩ q2) (store ++ [nd])
      ((⟨a.freq + b.freq, next⟩, .node ta tb) :: ts2) g1 (by simp [hs]) (by omega) hl2 hf'
      (by simpa using (pb'.cons (⟨a.freq + b.freq, next⟩ : Item)).trans pp.symm)
    have el : mergeLoop take put (k + 1) next q = nd :: mergeLoop take put k (next + 1) (put ⟨a.freq + b.freq, next⟩ q2) := by
      simp only [mergeLoop, e1, e2]; rfl
    have lv : t.leaves.Perm (ts.flatMap fun p => p.2.leaves) := by
      refine lx.trans ?_
      refine List.Perm.trans ?_ (pab.flatMap_right _).symm
      simp [HTree.leaves]
    have cost : ∃ c, MergeCost ((toL q).map (·.freq)) c ∧ t.cost = c + (ts.map fun p => p.2.cost).sum := by
      refine ⟨a.freq + b.freq + c, .merge (p1.map _) (fun y hy => ?_) (fun y hy => ?_) (mc.perm (pp.symm.map fun x : Item => x.freq)), ?_⟩
      · obtain ⟨z, hz, rfl⟩ := List.mem_map.mp (show y ∈ (b :: toL q2).map (·.freq) from hy)
        have := m1 z hz; simp only [Item.lt] at this; omega
      · obtain ⟨z, hz, rfl⟩ := List.mem_map.mp hy
        have := m2 z hz; simp only [Item.lt] at this; omega
      · rw [tc, (pab.map fun p => p.2.cost).sum_eq, hf.weights _ ma, hf.weights _ mb]
        simp only [List.map_cons, List.sum_cons, HTree.cost]; omega
    refine ⟨x, t, by rw [el]; simpa using sx, lv, by omega, fun _ => ?_, cost⟩
    by_cases h0 : k = 0
    · subst h0
      obtain ⟨f, hfx⟩ := k0 rfl
      rw [hfx] at pp
      have := List.perm_singleton.mp pp.symm
      simp only [List.cons.injEq, Item.mk.injEq] at this
      obtain ⟨⟨_, hx⟩, hq2⟩ := this
      rw [hq2] at pb'
      have ts2e : ts2 = [] := by simpa using pb'
      refine ⟨by omega, ?_⟩
      have : Stands (store ++ [nd]) x t := by simpa [mergeLoop] using sx
      rw [← hx] at this
      have e : (store ++ [nd])[next]? = some nd := by rw [List.getElem?_append_right (by omega), hs, Nat.sub_self]; rfl
      cases this with
      | leaf h => rw [e] at h; simp [nd] at h
      | node h => exact ⟨_, _, rfl⟩
    · obtain ⟨h1, h2⟩ := kp (by omega)
      exact ⟨by omega, h2⟩

/-- The trees of the leaves of SLIST. -/
def leafTreesFrom (i : Nat) : List Entry → List (Item × HTree)
  | [] => []
  | e :: es => (⟨e.cnt.toNat, i⟩, .leaf e.sym e.cnt.toNat) :: leafTreesFrom (i + 1) es

theorem leafTreesFrom_items (i : Nat) (es : List Entry) : (leafTreesFrom i es).map Prod.fst = leafItemsFrom i es := by
  induction es generalizing i with
  | nil => rfl
  | cons e es ih => simp [leafTreesFrom, leafItemsFrom, ih]

theorem leafTreesFrom_leaves (i : Nat) (es : List Entry) :
    ((leafTreesFrom i es).flatMap fun p => p.2.leaves) = es.map fun e => (e.sym, e.cnt.toNat) := by
  induction es generalizing i with
  | nil => rfl
  | cons e es ih => simp [leafTreesFrom, HTree.leaves, ih]

theorem leafTreesFrom_cost (i : Nat) (es : List Entry) : ((leafTreesFrom i es).map fun p => p.2.cost).sum = 0 := by
  induction es generalizing i with
  | nil => rfl
  | cons e es ih => simp [leafTreesFrom, HTree.cost, ih]

theorem leafItemsFrom_freqs (i : Nat) (es : List Entry) : (leafItemsFrom i es).map (·.freq) = es.map (·.cnt.toNat) := by
  induction es generalizing i with
  | nil => rfl
  | cons e es ih => simp [leafItemsFrom, ih]

theorem leafTreesFrom_forest (pre es : List Entry) : Forest (leafNodes (pre ++ es)) (leafTreesFrom pre.length es) := by
  induction es generalizing pre with
  | nil => exact ⟨by simp [leafTreesFrom], by simp [leafTreesFrom]⟩
  | cons e es ih =>
    have := ih (pre ++ [e])
    simp only [List.append_assoc, List.singleton_append, List.length_append, List.length_singleton] at this
    refine ⟨fun p hp => ?_, fun p hp => ?_⟩
    · rcases List.mem_cons.mp hp with rfl | hp
      · refine .leaf (f := e.cnt) ?_
        simp [leafNodes]
      · exact this.stands p hp
    · rcases List.mem_cons.mp hp with rfl | hp
      · rfl
      · exact this.weights p hp

/-- What BuildTree gives (41_tree.md R151, R156, R160): for a list of 1 to 256 entries, one tree over its entries whose
root is the last node; a single leaf for one entry, a branch at the root for two or more. -/
theorem buildTree_stands (es : List Entry) (h0 : es ≠ []) (h1 : es.length ≤ 256) :
    ∃ t, Stands (buildTree es) (nodeCountOf es.length - 1) t ∧ t.leaves.Perm (es.map fun e => (e.sym, e.cnt.toNat)) ∧
      (es.length = 1 → ∃ s c, t = .leaf s c) ∧ (2 ≤ es.length → ∃ l r, t = .node l r) ∧
      MergeCost (es.map (·.cnt.toNat)) t.cost := by
  have hp : 0 < es.length := List.length_pos_iff.mpr h0
  have hl : (leafItems es).length = es.length := length_leafItemsFrom 0 es
  obtain ⟨x, t, sx, lx, k0, kp, c, mc, tc⟩ := mergeLoop_forest (merges_least es.length) (es.length - 1) es.length (leafItems es)
    (leafNodes es) (leafTreesFrom 0 es) (fresh_leafItems es) (by simp [leafNodes]) (by omega) (by simp only [hl]; omega)
    (leafTreesFrom_forest [] es) (by rw [leafTreesFrom_items]; exact List.Perm.refl _)
  rw [leafTreesFrom_leaves] at lx
  rw [leafItems, leafItemsFrom_freqs] at mc
  rw [leafTreesFrom_cost, Nat.add_zero] at tc
  rw [← tc] at mc
  by_cases hn : es.length = 1
  · obtain ⟨f, hf⟩ := k0 (by omega)
    obtain ⟨e, rfl⟩ := List.length_eq_one_iff.mp hn
    simp only [leafItems, leafItemsFrom, List.cons.injEq, Item.mk.injEq, and_true] at hf
    obtain ⟨_, rfl⟩ := hf
    refine ⟨t, sx, lx, fun _ => ?_, fun h => by omega, mc⟩
    cases sx with
    | leaf h => exact ⟨_, _, rfl⟩
    | node h => simp [leafNodes, mergeLoop] at h
  · obtain ⟨hx, hn2⟩ := kp (by omega)
    have : nodeCountOf es.length - 1 = x := by simp only [nodeCountOf]; split_ifs <;> omega
    rw [this]
    exact ⟨t, sx, lx, fun h => absurd h hn, fun _ => hn2, mc⟩

/-! ### Codes -/

theorem visit_eq {nodes : List Node} {x : Nat} {t : HTree} (h : Stands nodes x t) (fuel : Nat) (hf : x < fuel) (p : List Bool) :
    visit nodes fuel x p = t.paths.map fun c => (c.1, p ++ c.2) := by
  induction h generalizing fuel p with
  | leaf h =>
    obtain ⟨k, rfl⟩ : ∃ k, fuel = k + 1 := ⟨fuel - 1, by omega⟩
    simp [visit, h, HTree.paths]
  | node h hf' ha hb _ _ ihl ihr =>
    obtain ⟨k, rfl⟩ : ∃ k, fuel = k + 1 := ⟨fuel - 1, by omega⟩
    simp only [visit, h, HTree.paths]
    rw [ihl k (by omega), ihr k (by omega)]
    simp [Function.comp_def]

/-- The codes of a tree: its paths, and the one bit 0 for a sole symbol (42_codebook.md R171). -/
def HTree.codes : HTree → List (Byte × List Bool)
  | .leaf s _ => [(s, [false])]
  | .node l r => (HTree.node l r).paths

theorem HTree.paths_syms (t : HTree) : t.paths.map Prod.fst = t.leaves.map Prod.fst := by
  induction t with
  | leaf s c => rfl
  | node l r ihl ihr => simp [HTree.paths, HTree.leaves, Function.comp_def, ← ihl, ← ihr]

theorem HTree.codes_syms (t : HTree) : t.codes.map Prod.fst = t.leaves.map Prod.fst := by
  cases t with
  | leaf s c => rfl
  | node l r => exact HTree.paths_syms _

theorem HTree.codes_ne_nil {t : HTree} {c : Byte × List Bool} (h : c ∈ t.codes) : c.2 ≠ [] := by
  cases t with
  | leaf s n => obtain rfl := List.mem_singleton.mp h; simp
  | node l r =>
    rcases List.mem_append.mp h with h | h <;> obtain ⟨_, _, rfl⟩ := List.mem_map.mp h <;> simp

theorem HTree.length_leaves_pos (t : HTree) : 0 < t.leaves.length := by
  induction t with
  | leaf s c => simp [HTree.leaves]
  | node l r ihl ihr => simp only [HTree.leaves, List.length_append]; omega

/-- 41_tree.md R160: the depth of a leaf is below the number of leaves. -/
theorem HTree.length_path_lt {t : HTree} {c : Byte × List Bool} (h : c ∈ t.paths) : c.2.length < t.leaves.length := by
  induction t generalizing c with
  | leaf s n => obtain rfl := List.mem_singleton.mp h; simp [HTree.leaves]
  | node l r ihl ihr =>
    have := l.length_leaves_pos
    have := r.length_leaves_pos
    simp only [HTree.leaves, List.length_append]
    rcases List.mem_append.mp h with h | h <;> obtain ⟨d, hd, rfl⟩ := List.mem_map.mp h
    · have := ihl hd; simp only [List.length_cons]; omega
    · have := ihr hd; simp only [List.length_cons]; omega

/-- The counts times the depths of the leaves are the sum of the weights of the inner nodes. -/
theorem HTree.sum_paths (t : HTree) (f : Byte → Nat) (h : ∀ c ∈ t.leaves, f c.1 = c.2) :
    (t.paths.map fun c => f c.1 * c.2.length).sum = t.cost ∧ (t.paths.map fun c => f c.1).sum = t.weight := by
  induction t with
  | leaf s n => simp [HTree.paths, HTree.cost, HTree.weight, h (s, n) (by simp [HTree.leaves])]
  | node l r ihl ihr =>
    obtain ⟨a1, a2⟩ := ihl fun c hc => h c (List.mem_append.mpr (.inl hc))
    obtain ⟨b1, b2⟩ := ihr fun c hc => h c (List.mem_append.mpr (.inr hc))
    have len : ∀ (b : Bool) (ps : List (Byte × List Bool)),
        ((ps.map fun c => (c.1, b :: c.2)).map fun c => f c.1 * c.2.length).sum =
          (ps.map fun c => f c.1 * c.2.length).sum + (ps.map fun c => f c.1).sum := by
      intro b ps
      induction ps with
      | nil => simp
      | cons p ps ih => simp only [List.map_cons, List.sum_cons, List.length_cons, ih, Nat.mul_add]; omega
    have one : ∀ (b : Bool) (ps : List (Byte × List Bool)),
        ((ps.map fun c => (c.1, b :: c.2)).map fun c => f c.1).sum = (ps.map fun c => f c.1).sum := by
      intro b ps; rw [List.map_map]; rfl
    simp only [HTree.paths, List.map_append, List.sum_append, len, one, a1, a2, b1, b2, HTree.cost, HTree.weight]
    exact ⟨by omega, trivial⟩

/-- 42_codebook.md R173: no path is a prefix of another leaf's path. -/
theorem HTree.paths_prefixFree (t : HTree) : t.paths.Pairwise fun c d => ¬ c.2 <+: d.2 ∧ ¬ d.2 <+: c.2 := by
  induction t with
  | leaf s n => exact List.pairwise_singleton ..
  | node l r ihl ihr =>
    refine List.pairwise_append.mpr ⟨?_, ?_, fun c hc d hd => ?_⟩
    · rw [List.pairwise_map]; exact ihl.imp fun h => by simpa [List.cons_prefix_cons] using h
    · rw [List.pairwise_map]; exact ihr.imp fun h => by simpa [List.cons_prefix_cons] using h
    · obtain ⟨_, _, rfl⟩ := List.mem_map.mp hc
      obtain ⟨_, _, rfl⟩ := List.mem_map.mp hd
      simp [List.cons_prefix_cons]

theorem HTree.codes_prefixFree (t : HTree) : t.codes.Pairwise fun c d => ¬ c.2 <+: d.2 ∧ ¬ d.2 <+: c.2 := by
  cases t with
  | leaf s n => exact List.pairwise_singleton ..
  | node l r => exact HTree.paths_prefixFree _

/-- 42_codebook.md R173: the paths of a tree fill the code space. -/
theorem HTree.kraft (t : HTree) : (t.paths.map fun c => (1 / 2 : ℚ) ^ c.2.length).sum = 1 := by
  induction t with
  | leaf s n => simp [HTree.paths]
  | node l r ihl ihr =>
    have half : ∀ (b : Bool) (ps : List (Byte × List Bool)),
        ((ps.map fun c => (c.1, b :: c.2)).map fun c => (1 / 2 : ℚ) ^ c.2.length).sum
          = 1 / 2 * (ps.map fun c => (1 / 2 : ℚ) ^ c.2.length).sum := by
      intro b ps
      induction ps with
      | nil => simp
      | cons p ps ih =>
        simp only [List.map_cons, List.sum_cons, List.length_cons, ih]; ring
    rw [HTree.paths, List.map_append, List.sum_append, half, half, ihl, ihr]; norm_num

theorem symbolCodes_eq {nodes : List Node} {n : Nat} {t : HTree} (hn : 0 < n) (h : Stands nodes (n - 1) t)
    (h1 : n = 1 → ∃ s c, t = .leaf s c) (h2 : n ≠ 1 → ∃ l r, t = .node l r) : symbolCodes nodes n = t.codes := by
  unfold symbolCodes
  rw [if_neg (by omega)]
  by_cases hn1 : n = 1
  · subst hn1
    obtain ⟨s, c, rfl⟩ := h1 rfl
    cases h with
    | leaf h => simp only [Nat.sub_self] at h; simp [h, HTree.codes]
  · obtain ⟨l, r, rfl⟩ := h2 hn1
    rw [if_neg hn1, visit_eq h n (by omega)]
    simp [HTree.codes]

theorem length_foldl_setCode (cs : List (Byte × List Bool)) (table : List (List Bool)) :
    (cs.foldl setCode table).length = table.length := by
  induction cs generalizing table with
  | nil => rfl
  | cons c cs ih => rw [List.foldl_cons, ih]; simp [setCode]

theorem getElem?_foldl_setCode (cs : List (Byte × List Bool)) (table : List (List Bool)) (hn : (cs.map Prod.fst).Nodup)
    (ht : table.length = 256) (b : Byte) :
    (∀ c ∈ cs, c.1 = b → (cs.foldl setCode table)[b.toNat]? = some c.2) ∧
      ((∀ c ∈ cs, c.1 ≠ b) → (cs.foldl setCode table)[b.toNat]? = table[b.toNat]?) := by
  induction cs generalizing table with
  | nil => simp
  | cons c cs ih =>
    obtain ⟨hc, hn⟩ := List.nodup_cons.mp hn
    have ht' : (setCode table c).length = 256 := by simpa [setCode] using ht
    obtain ⟨ih1, ih2⟩ := ih (setCode table c) hn ht'
    rw [List.foldl_cons]
    refine ⟨fun d hd hb => ?_, fun h => ?_⟩
    · rcases List.mem_cons.mp hd with rfl | hd
      · rw [ih2 fun e he heq => hc (List.mem_map.mpr ⟨e, he, heq.trans hb.symm⟩), setCode, hb]
        have : b.toNat < table.length := by rw [ht]; exact b.isLt
        simp [this]
      · exact ih1 d hd hb
    · rw [ih2 fun e he => h e (List.mem_cons_of_mem _ he), setCode, List.getElem?_set_ne]
      intro e
      exact h c (List.mem_cons_self ..) (BitVec.eq_of_toNat_eq e)

/-- What CODEBOOK leaves for a store that stands for a tree with distinct symbols (42_codebook.md R171, R172). -/
theorem codebookOf_spec {nodes : List Node} {n : Nat} {cs : List (Byte × List Bool)} (h : symbolCodes nodes n = cs)
    (hn : (cs.map Prod.fst).Nodup) :
    (codebookOf nodes n).length = 256 ∧
      (∀ c ∈ cs, (codebookOf nodes n)[c.1.toNat]? = some c.2) ∧
      (∀ b : Byte, (∀ c ∈ cs, c.1 ≠ b) → (codebookOf nodes n)[b.toNat]? = some []) := by
  have hr : (List.replicate 256 ([] : List Bool)).length = 256 := List.length_replicate
  unfold codebookOf
  rw [h]
  refine ⟨by rw [length_foldl_setCode, hr], fun c hc => ?_, fun b hb => ?_⟩
  · exact (getElem?_foldl_setCode cs _ hn hr c.1).1 c hc rfl
  · rw [(getElem?_foldl_setCode cs _ hn hr b).2 hb, List.getElem?_replicate, if_pos b.isLt]

/-! ### The walk -/

theorem walkBits_append (nodes : List Node) (root cap j : Nat) (p q : List Bool) (w : Walker) :
    walkBits nodes root cap j (p ++ q) w =
      match walkBits nodes root cap j p w with
      | .fail r => .fail r
      | .ok w' => walkBits nodes root cap (j + p.length) q w' := by
  induction p generalizing j w with
  | nil => rfl
  | cons b p ih =>
    simp only [List.cons_append, walkBits]
    cases walkBit nodes root cap j b w with
    | fail r => rfl
    | ok w' => simp only [ih, List.length_cons]; rw [show j + 1 + p.length = j + (p.length + 1) by omega]

/-- Following the path to a leaf emits its symbol and goes back to the root. -/
theorem walkBits_path {nodes : List Node} {x : Nat} {t : HTree} (h : Stands nodes x t) (root cap j : Nat) {c : Byte × List Bool}
    (hc : c ∈ t.paths) (hne : c.2 ≠ []) (k : Nat) (hk : k < cap) (m : Memory) :
    walkBits nodes root cap j c.2 ⟨x, k, m⟩ = .ok ⟨root, k + 1, m.write k c.1⟩ := by
  induction h generalizing j c with
  | leaf h => obtain rfl := List.mem_singleton.mp hc; exact absurd rfl hne
  | @node x a b f l r h _ _ _ hl hr ihl ihr =>
    have go : ∀ (bit : Bool) (child : Nat) (u : HTree), Stands nodes child u → (if bit then b.toNat else a.toNat) = child →
        (∀ (j : Nat) {c : Byte × List Bool}, c ∈ u.paths → c.2 ≠ [] →
          walkBits nodes root cap j c.2 ⟨child, k, m⟩ = .ok ⟨root, k + 1, m.write k c.1⟩) →
        ∀ d ∈ u.paths, walkBits nodes root cap j (bit :: d.2) ⟨x, k, m⟩ = .ok ⟨root, k + 1, m.write k d.1⟩ := by
      intro bit child u hu he ih d hd
      cases hu with
      | leaf hu =>
        obtain rfl := List.mem_singleton.mp hd
        have : ¬ cap ≤ k := by omega
        simp [walkBits, walkBit, h, he, hu, emit, this]
      | node hu =>
        have hne : d.2 ≠ [] := by
          rcases List.mem_append.mp hd with hd | hd <;> obtain ⟨_, _, rfl⟩ := List.mem_map.mp hd <;> simp
        simp only [walkBits, walkBit, h, he, hu]
        exact ih (j + 1) hd hne
    rcases List.mem_append.mp hc with hc | hc <;> obtain ⟨d, hd, rfl⟩ := List.mem_map.mp hc
    · exact go false a.toNat l hl rfl (fun j c => ihl j) d hd
    · exact go true b.toNat r hr rfl (fun j c => ihr j) d hd

/-- The same for codes, from the root. -/
theorem walkBits_code {nodes : List Node} {root : Nat} {t : HTree} (h : Stands nodes root t) (cap j : Nat) {c : Byte × List Bool}
    (hc : c ∈ t.codes) (k : Nat) (hk : k < cap) (m : Memory) :
    walkBits nodes root cap j c.2 ⟨root, k, m⟩ = .ok ⟨root, k + 1, m.write k c.1⟩ := by
  cases t with
  | leaf s n =>
    obtain rfl := List.mem_singleton.mp hc
    cases h with
    | leaf h =>
      have : ¬ cap ≤ k := by omega
      simp [walkBits, walkBit, h, emit, this]
  | node l r => exact walkBits_path h root cap j hc (HTree.codes_ne_nil hc) k hk m

/-- 45_decoder.md R234's heart: walking the stream of some bytes emits them. -/
theorem walkBits_stream {nodes : List Node} {root : Nat} {t : HTree} (h : Stands nodes root t) (code : Byte → List Bool)
    (cap : Nat) (bytes : List Byte) (hc : ∀ b ∈ bytes, (b, code b) ∈ t.codes) (j k : Nat) (hk : k + bytes.length ≤ cap)
    (m : Memory) :
    walkBits nodes root cap j (codeStream code bytes) ⟨root, k, m⟩ = .ok ⟨root, k + bytes.length, m.writeAll k bytes⟩ := by
  induction bytes generalizing j k m with
  | nil => rfl
  | cons b bs ih =>
    simp only [List.length_cons] at hk
    rw [show codeStream code (b :: bs) = code b ++ codeStream code bs from rfl, walkBits_append,
      walkBits_code h cap j (hc b (by simp)) k (by omega) m]
    simp only
    rw [ih (fun b hb => hc b (by simp [hb])) _ _ (by omega)]
    simp only [List.length_cons, Memory.writeAll]
    congr 2; omega

end Sys2Proof.Machine
end

