-- ==== Sys2Proof/Laws/CodeTree.lean ====
section
/-! SUPPORT. The code tree of a frequency list, and what the codebook it gives holds (41_tree.md R156, R160; 42_codebook.md R171
to R173). -/

namespace Sys2Proof.Machine

/-! ### Paths in the store -/

/-- The path to a leaf leads to it (42_codebook.md R170). -/
theorem Stands.follow {nodes : List Node} {x : Nat} {t : HTree} (h : Stands nodes x t) {c : Byte × List Bool} (hc : c ∈ t.paths) :
    ∃ y f, Machine.follow nodes x c.2 = some y ∧ nodes[y]? = some (.leaf c.1 f) ∧ (c.1, f.toNat) ∈ t.leaves := by
  induction h generalizing c with
  | @leaf x s f h => obtain rfl := List.mem_singleton.mp hc; exact ⟨x, f, rfl, h, by simp [HTree.leaves]⟩
  | @node x a b f l r h _ _ _ _ _ ihl ihr =>
    rcases List.mem_append.mp hc with hc | hc <;> obtain ⟨d, hd, rfl⟩ := List.mem_map.mp hc
    · obtain ⟨y, g, e1, e2, e3⟩ := ihl hd
      refine ⟨y, g, ?_, e2, List.mem_append.mpr (.inl e3)⟩
      simp only [Machine.follow, h, Bool.false_eq_true, if_false]; exact e1
    · obtain ⟨y, g, e1, e2, e3⟩ := ihr hd
      refine ⟨y, g, ?_, e2, List.mem_append.mpr (.inr e3)⟩
      simp only [Machine.follow, h, if_true]; exact e1

/-- 42_codebook.md R173 in whole numbers: the paths of a tree fill the code space. -/
theorem HTree.kraft_nat (t : HTree) (d : Nat) (hd : ∀ c ∈ t.paths, c.2.length ≤ d) :
    (t.paths.map fun c => 2 ^ (d - c.2.length)).sum = 2 ^ d := by
  induction t generalizing d with
  | leaf s n => simp [HTree.paths]
  | node l r ihl ihr =>
    have below : ∀ (b : Bool) (ps : List (Byte × List Bool)), (∀ c ∈ ps.map fun c => (c.1, b :: c.2), c.2.length ≤ d) →
        (∀ c ∈ ps, c.2.length ≤ d - 1) ∧
          ((ps.map fun c => (c.1, b :: c.2)).map fun c => 2 ^ (d - c.2.length)).sum = (ps.map fun c => 2 ^ (d - 1 - c.2.length)).sum := by
      intro b ps h
      refine ⟨fun c hc => ?_, ?_⟩
      · have := h _ (List.mem_map.mpr ⟨c, hc, rfl⟩); simp only [List.length_cons] at this; omega
      · rw [List.map_map]; congr 1; apply List.map_congr_left; intro c _
        simp only [Function.comp, List.length_cons]; congr 1; omega
    obtain ⟨h1, e1⟩ := below false l.paths fun c hc => hd c (List.mem_append.mpr (.inl hc))
    obtain ⟨h2, e2⟩ := below true r.paths fun c hc => hd c (List.mem_append.mpr (.inr hc))
    have hd1 : 1 ≤ d := by
      obtain ⟨c, hc⟩ : ∃ c, c ∈ l.paths := by
        have : l.paths ≠ [] := by
          intro e
          have hp := l.paths_syms
          have := l.length_leaves_pos
          rw [e] at hp
          have := congrArg List.length hp
          simp at this; omega
        exact List.exists_mem_of_ne_nil _ this
      have := hd (c.1, false :: c.2) (List.mem_append.mpr (.inl (List.mem_map.mpr ⟨c, hc, rfl⟩)))
      simp only [List.length_cons] at this; omega
    rw [HTree.paths, List.map_append, List.sum_append, e1, e2, ihl _ h1, ihr _ h2]
    obtain ⟨k, rfl⟩ : ∃ k, d = k + 1 := ⟨d - 1, by omega⟩
    simp only [Nat.add_sub_cancel, pow_succ]; omega

/-! ### The code tree of a list -/

/-- The tree that BUILD makes of a list, with the codebook of its store. -/
structure CodeTree (es : List Entry) (cb : List (List Bool)) (t : HTree) : Prop where
  stands : Stands (buildTree es) (nodeCountOf es.length - 1) t
  leaves : t.leaves.Perm (es.map fun e => (e.sym, e.cnt.toNat))
  sole : es.length = 1 → ∃ s c, t = .leaf s c
  many : 2 ≤ es.length → ∃ l r, t = .node l r
  cost : MergeCost (es.map (·.cnt.toNat)) t.cost
  full : cb.length = 256
  listed : ∀ c ∈ t.codes, cb[c.1.toNat]? = some c.2
  others : ∀ b : Byte, (∀ e ∈ es, e.sym ≠ b) → cb[b.toNat]? = some []

theorem mem_leaves_sym {es : List Entry} {cb : List (List Bool)} {t : HTree} (h : CodeTree es cb t) {b : Byte} :
    b ∈ t.codes.map Prod.fst ↔ ∃ e ∈ es, e.sym = b := by
  rw [HTree.codes_syms, (h.leaves.map Prod.fst).mem_iff, List.map_map, List.mem_map]; rfl

theorem exists_codeTree {es : List Entry} (h0 : es ≠ []) (h1 : es.length ≤ 256) (hd : (es.map (·.sym)).Nodup) :
    ∃ t, CodeTree es (codebookOf (buildTree es) (nodeCountOf es.length)) t := by
  obtain ⟨t, st, lv, k1, k2, mc⟩ := buildTree_stands es h0 h1
  have hp : 0 < es.length := List.length_pos_iff.mpr h0
  have hn : 0 < nodeCountOf es.length := by simp only [nodeCountOf]; split_ifs <;> omega
  have hn1 : nodeCountOf es.length = 1 ↔ es.length = 1 := by simp only [nodeCountOf]; split_ifs <;> omega
  have sc := symbolCodes_eq hn st (fun h => k1 (hn1.mp h)) (fun h => k2 (by have := mt hn1.mpr h; omega))
  have syms : (t.codes.map Prod.fst).Perm (es.map (·.sym)) := by
    rw [HTree.codes_syms]; simpa [Function.comp_def] using lv.map Prod.fst
  obtain ⟨a, b, c⟩ := codebookOf_spec sc (syms.nodup_iff.mpr hd)
  refine ⟨t, st, lv, k1, k2, mc, a, b, fun x hx => c x fun d hd' e => ?_⟩
  obtain ⟨y, hy, hs⟩ := List.mem_map.mp (syms.mem_iff.mp (List.mem_map.mpr ⟨d, hd', e⟩))
  exact hx y hy hs

theorem codebookOf_nil : codebookOf (buildTree []) (nodeCountOf 0) = List.replicate 256 [] := rfl

theorem codeIn_replicate (b : Byte) : codeIn (List.replicate 256 []) b = [] := by
  rw [codeIn, List.getD_eq_getElem?_getD, List.getElem?_replicate]; split_ifs <;> rfl

theorem CodeTree.codeIn_listed {es : List Entry} {cb : List (List Bool)} {t : HTree} (h : CodeTree es cb t)
    {c : Byte × List Bool} (hc : c ∈ t.codes) : codeIn cb c.1 = c.2 := by
  simp [codeIn, List.getD_eq_getElem?_getD, h.listed c hc]

theorem CodeTree.codeIn_other {es : List Entry} {cb : List (List Bool)} {t : HTree} (h : CodeTree es cb t) {b : Byte}
    (hb : ∀ e ∈ es, e.sym ≠ b) : codeIn cb b = [] := by
  simp [codeIn, List.getD_eq_getElem?_getD, h.others b hb]

/-- Each symbol of the list has its code in the tree. -/
theorem CodeTree.mem_codes {es : List Entry} {cb : List (List Bool)} {t : HTree} (h : CodeTree es cb t) {b : Byte}
    (hb : ∃ e ∈ es, e.sym = b) : (b, codeIn cb b) ∈ t.codes := by
  obtain ⟨c, hc, rfl⟩ := List.mem_map.mp ((mem_leaves_sym h).mpr hb)
  rw [h.codeIn_listed hc]; exact hc

theorem CodeTree.codeIn_ne_nil {es : List Entry} {cb : List (List Bool)} {t : HTree} (h : CodeTree es cb t) {b : Byte} :
    codeIn cb b ≠ [] ↔ ∃ e ∈ es, e.sym = b := by
  constructor
  · intro hn
    by_contra hb
    exact hn (h.codeIn_other fun e he hs => hb ⟨e, he, hs⟩)
  · intro hb; exact HTree.codes_ne_nil (h.mem_codes hb)

/-- 42_codebook.md R172: a code is shorter than the number of symbols, but for a sole symbol. -/
theorem CodeTree.length_codeIn {es : List Entry} {cb : List (List Bool)} {t : HTree} (h : CodeTree es cb t) (b : Byte) :
    (2 ≤ es.length → (codeIn cb b).length ≤ es.length - 1) ∧ (es.length = 1 → (codeIn cb b).length ≤ 1) := by
  by_cases hb : ∃ e ∈ es, e.sym = b
  · have hc := h.mem_codes hb
    refine ⟨fun h2 => ?_, fun h1 => ?_⟩
    · obtain ⟨l, r, rfl⟩ := h.many h2
      have := HTree.length_path_lt (t := .node l r) hc
      have := h.leaves.length_eq
      simp only [List.length_map] at *; omega
    · obtain ⟨s, c, rfl⟩ := h.sole h1
      have e := List.mem_singleton.mp hc
      have := congrArg (fun p => p.2.length) e
      simp only [List.length_singleton] at this; omega
  · rw [h.codeIn_other fun e he hs => hb ⟨e, he, hs⟩]; simp

/-- The sum over the symbols of the list, by their codes, is the sum over the codes of the tree. -/
theorem CodeTree.perm_codes {es : List Entry} {cb : List (List Bool)} {t : HTree} (h : CodeTree es cb t) :
    (es.map fun e => (e.sym, codeIn cb e.sym)).Perm t.codes := by
  have syms : (t.codes.map Prod.fst).Perm (es.map (·.sym)) := by
    rw [HTree.codes_syms]; simpa [Function.comp_def] using h.leaves.map Prod.fst
  have e : t.codes = (t.codes.map Prod.fst).map fun b => (b, codeIn cb b) := by
    rw [List.map_map]
    conv_lhs => rw [← List.map_id t.codes]
    apply List.map_congr_left
    intro c hc
    simp only [Function.comp, id, h.codeIn_listed hc]
  rw [e]
  simpa [Function.comp_def] using (syms.map fun b => (b, codeIn cb b)).symm

/-- The stream's length under the codebook is the cost of the merges (41_tree.md R159). -/
theorem CodeTree.sum_codes {es : List Entry} {cb : List (List Bool)} {t : HTree} (h : CodeTree es cb t)
    (hd : (es.map (·.sym)).Nodup) (h2 : 2 ≤ es.length) :
    (es.map fun e => e.cnt.toNat * (codeIn cb e.sym).length).sum = t.cost := by
  obtain ⟨l, r, rfl⟩ := h.many h2
  let f : Byte → Nat := fun b => ((es.find? fun x => x.sym == b).map (·.cnt.toNat)).getD 0
  have hf : ∀ e ∈ es, f e.sym = e.cnt.toNat := fun e he => by simp only [f, find?_sym hd he]; rfl
  rw [← ((HTree.node l r).sum_paths f fun c hc => ?_).1]
  · have p := h.perm_codes.map fun c => f c.1 * c.2.length
    rw [show (HTree.node l r).paths = (HTree.node l r).codes from rfl, ← p.sum_eq, List.map_map]
    congr 1; apply List.map_congr_left; intro e he
    simp only [Function.comp, hf e he]
  · obtain ⟨e, he, rfl⟩ := List.mem_map.mp (h.leaves.mem_iff.mp hc)
    exact hf e he

/-! ### CODE_MISS -/

theorem firstMiss_eq_none (code : Byte → List Bool) (a : Nat) (bs : List Byte) :
    firstMiss code a bs = none ↔ ∀ b ∈ bs, code b ≠ [] := by
  induction bs generalizing a with
  | nil => simp [firstMiss]
  | cons b bs ih => simp only [firstMiss]; split_ifs with h <;> simp_all

theorem firstMiss_eq_some (code : Byte → List Bool) (a : Nat) (bs : List Byte) (k : Nat) (hk : k < bs.length)
    (h1 : code bs[k] = []) (h2 : ∀ x (h : x < k), code (bs[x]'(by omega)) ≠ []) : firstMiss code a bs = some (a + k) := by
  induction bs generalizing a k with
  | nil => simp at hk
  | cons b bs ih =>
    simp only [firstMiss]
    cases k with
    | zero =>
      rw [List.getElem_cons_zero] at h1
      rw [if_pos (by rw [h1]; rfl), Nat.add_zero]
    | succ k =>
      have := h2 0 (by omega)
      rw [List.getElem_cons_zero] at this
      rw [if_neg (by simpa using this), ih (a + 1) k (by simpa using hk) (by simpa using h1)
        (fun x hx => by simpa using h2 (x + 1) (by omega))]
      congr 1; omega

end Sys2Proof.Machine
end

