-- ==== Sys2Proof/Laws/Control.lean ====
section
/-! SUPPORT. No stage reads the stage number, the selectors, the enables or OVERRUN (10_state.md R46, R48), so a command does the
same whatever they hold. -/

namespace Sys2Proof.Machine

/-- The fields that no stage reads or writes. -/
structure Control where
  stageIndex : Nat
  lsel : Byte
  ssel : Byte
  nsel : BitVec 9
  bsel : Word
  psel : Word
  doneIe : Bool
  errIe : Bool
  overrun : Bool

/-- `s` with other values in them. -/
def State.withControl (s : State) (c : Control) : State :=
  { s with
    stageIndex := c.stageIndex, lsel := c.lsel, ssel := c.ssel, nsel := c.nsel, bsel := c.bsel, psel := c.psel
    doneIe := c.doneIe, errIe := c.errIe, overrun := c.overrun }

/-- A stage's answer with another state. -/
def StageOut.map (f : State → State) : StageOut → StageOut
  | .ok t => .ok (f t)
  | .fail r t => .fail r (f t)

/-- A stage takes no notice of the control fields. -/
def Blind (run : State → StageOut) : Prop := ∀ s c, run (s.withControl c) = (run s).map (·.withControl c)

theorem firstMissing_withControl (s : State) (c : Control) (fs : List Flag) :
    firstMissing (s.withControl c) fs = firstMissing s fs := by
  induction fs with
  | nil => rfl
  | cons f fs ih =>
    have : (s.withControl c).flag f = s.flag f := by cases f <;> rfl
    simp only [firstMissing, this, ih]

theorem withFlags_withControl (s : State) (c : Control) (st : StageName) :
    (s.withControl c).withFlags st = (s.withFlags st).withControl c := rfl

theorem blind_guarded (st : StageName) {body : State → StageOut} (h : Blind body) : Blind (guarded st body) := by
  intro s c
  simp only [guarded, firstMissing_withControl, h s c]
  cases firstMissing s st.requires with
  | some f => rfl
  | none => cases body s <;> rfl

theorem blind_freq : Blind freqStage := by
  refine blind_guarded _ fun s c => ?_
  unfold freqBody
  split
  · rw [if_pos ‹_›]; rfl
  · rw [if_neg ‹_›]; rfl

theorem blind_build (heap : Bool) : Blind (buildStage heap) := blind_guarded _ fun _ _ => rfl

theorem blind_codebook : Blind codebookStage := blind_guarded _ fun _ _ => rfl

theorem blind_pack : Blind packStage := blind_guarded _ fun _ _ => rfl

theorem blind_unpack : Blind unpackStage := blind_guarded _ fun _ _ => rfl

theorem blind_code : Blind codeStage := by
  refine blind_guarded _ fun s c => ?_
  have e1 : codeOf (s.withControl c) = codeOf s := rfl
  have e2 : inBytes (s.withControl c) = inBytes s := rfl
  have e3 : (s.withControl c).inLen = s.inLen := rfl
  have e4 : (s.withControl c).capIn = s.capIn := rfl
  have e5 : (s.withControl c).capBits = s.capBits := rfl
  simp only [codeBody, e1, e2, e3, e4, e5]
  generalize firstMiss (codeOf s) 0 (inBytes s) = m
  cases m <;> split_ifs <;> rfl

theorem blind_serialize : Blind serializeStage := by
  refine blind_guarded _ fun s c => ?_
  have e1 : (s.withControl c).slist = s.slist := rfl
  have e2 : (s.withControl c).bitLength = s.bitLength := rfl
  have e3 : (s.withControl c).capOut = s.capOut := rfl
  have e4 : (s.withControl c).outMem = s.outMem := rfl
  have e5 : payloadOf (s.withControl c) = payloadOf s := rfl
  simp only [serializeBody, e1, e2, e3, e4, e5]
  generalize containerBytes s.slist (minWidth (maxCount s.slist)) s.bitLength.toNat (payloadOf s) = bytes
  generalize containerLength s.slist.length (minWidth (maxCount s.slist)) s.bitLength.toNat = len
  generalize minWidth (maxCount s.slist) = w
  split_ifs <;> rfl

theorem blind_parse : Blind parseStage := by
  refine blind_guarded _ fun s c => ?_
  have e1 : readIn (s.withControl c) = readIn s := rfl
  have e2 : (s.withControl c).inLen = s.inLen := rfl
  have e3 : (s.withControl c).capIn = s.capIn := rfl
  have e4 : (s.withControl c).capBits = s.capBits := rfl
  simp only [parseBody, e1, e2, e3, e4]
  cases parseContainer (readIn s) s.inLen.toNat s.capIn.toNat s.capBits.toNat <;> rfl

theorem blind_walk : Blind walkStage := by
  refine blind_guarded _ fun s c => ?_
  have e1 : (s.withControl c).nodeCount = s.nodeCount := rfl
  have e2 : (s.withControl c).bitLength = s.bitLength := rfl
  have e3 : (s.withControl c).nodes = s.nodes := rfl
  have e4 : (s.withControl c).capOut = s.capOut := rfl
  have e5 : streamOf (s.withControl c) = streamOf s := rfl
  have e6 : (s.withControl c).outMem = s.outMem := rfl
  simp only [walkBody, e1, e2, e3, e4, e5, e6]
  split_ifs
  · rfl
  · rfl
  · cases walkBits s.nodes (s.nodeCount.toNat - 1) s.capOut.toNat 0 (streamOf s)
      { node := s.nodeCount.toNat - 1, count := 0, out := s.outMem } with
    | fail r => rfl
    | ok w => simp only; split_ifs <;> rfl

theorem blind_statcalc : Blind statcalcStage := by
  refine blind_guarded _ fun s c => ?_
  have e1 : (s.withControl c).slist = s.slist := rfl
  have e2 : statBitsOf (s.withControl c) = statBitsOf s := rfl
  simp only [statcalcBody, e1, e2]
  split_ifs <;> rfl

theorem stagesOf_blind (i : Instr) : ∀ p ∈ stagesOf i, Blind p.2 := by
  have f := blind_freq
  have b := blind_build
  have c := blind_codebook
  have e := blind_code
  have k := blind_pack
  have z := blind_serialize
  have p := blind_parse
  have u := blind_unpack
  have w := blind_walk
  have q := blind_statcalc
  cases i <;>
    simp [stagesOf, encodeStages, decodeStages, statsRawStages, statsContainerStages, f, b, c, e, k, z, p, u, w, q]

/-- A command with other control fields. -/
theorem finish_withControl (opcode : Byte) (stages : List (StageName × (State → StageOut))) (h : ∀ p ∈ stages, Blind p.2)
    (k : Nat) (s : State) (c : Control) :
    finish opcode (runStages k stages (s.withControl c)) =
      (finish opcode (runStages k stages s)).withControl { c with stageIndex := 0 } := by
  induction stages generalizing k s c with
  | nil => rfl
  | cons p rest ih =>
    obtain ⟨st, run⟩ := p
    have hb := h _ (List.mem_cons_self ..)
    have e1 : run { s.withControl c with stageIndex := k } =
        (run { s with stageIndex := k }).map (·.withControl { c with stageIndex := k }) := 
      hb { s with stageIndex := k } { c with stageIndex := k }
    cases hr : run { s with stageIndex := k } with
    | ok t =>
      simp only [hr] at e1
      rw [runStages_ok hr, runStages_ok e1, ih (fun p hp => h p (List.mem_cons_of_mem _ hp))]
    | fail r t =>
      rw [hr] at e1
      rw [runStages_fail hr, runStages_fail e1]; rfl

theorem exec_withControl (i : Instr) (s : State) (c : Control) :
    exec i (s.withControl c) = .next ((finish i.opcode (runStages 0 (stagesOf i) s)).withControl { c with stageIndex := 0 }) := by
  rw [exec_eq, finish_withControl _ _ (stagesOf_blind i)]

/-! ### Commands of one stage -/

/-- The control fields of a state. -/
def State.controlOf (s : State) : Control :=
  ⟨s.stageIndex, s.lsel, s.ssel, s.nsel, s.bsel, s.psel, s.doneIe, s.errIe, s.overrun⟩

theorem stageLaw_controlOf {run : State → StageOut} (h : StageLaw run) (s : State) (k : Nat) :
    (run s).state.withControl { s.controlOf with stageIndex := k } = { (run s).state with stageIndex := k } := by
  have u := h.untouched s
  generalize (run s).state = t at u
  cases t
  obtain ⟨_, _, _, _, _, _, _, rfl, _, _, rfl, rfl, _, rfl, rfl, rfl, rfl, rfl, _⟩ := u
  rfl

/-- One stage of a command, without its number: the rest goes on from what it answered. -/
theorem finish_ok {st : StageName} {run : State → StageOut} {rest : List (StageName × (State → StageOut))}
    (hb : ∀ p ∈ (st, run) :: rest, Blind p.2) (hl : StageLaw run) (opcode : Byte) (k : Nat) {s t : State} (h : run s = .ok t) :
    finish opcode (runStages k ((st, run) :: rest) s) = finish opcode (runStages (k + 1) rest t) := by
  have hr : Blind run := hb _ (List.mem_cons_self ..)
  have e := hr s { s.controlOf with stageIndex := k }
  have c := stageLaw_controlOf hl s k
  rw [h] at e c
  have e' : run { s with stageIndex := k } = .ok { t with stageIndex := k } := e.trans (congrArg StageOut.ok c)
  have f := finish_withControl opcode rest (fun p hp => hb p (List.mem_cons_of_mem _ hp)) (k + 1) t { t.controlOf with stageIndex := k }
  have g := finish_withControl opcode rest (fun p hp => hb p (List.mem_cons_of_mem _ hp)) (k + 1) t t.controlOf
  rw [runStages_ok e']
  exact f.trans g.symm

theorem finish_fail {st : StageName} {run : State → StageOut} {rest : List (StageName × (State → StageOut))}
    (hr : Blind run) (hl : StageLaw run) (opcode : Byte) (k : Nat) {s t : State} {r : Raise} (h : run s = .fail r t) :
    finish opcode (runStages k ((st, run) :: rest) s) =
      t.failed (errWord opcode st.number r.cause) (BitVec.ofNat 64 r.info) := by
  have e := hr s { s.controlOf with stageIndex := k }
  have c := stageLaw_controlOf hl s k
  rw [h] at e c
  have e' : run { s with stageIndex := k } = .fail r { t with stageIndex := k } := e.trans (congrArg (StageOut.fail r) c)
  rw [runStages_fail e']; rfl

theorem exec_single_ok {i : Instr} {st : StageName} {run : State → StageOut} {s t : State} (hs : stagesOf i = [(st, run)])
    (h : run s = .ok t) : exec i s = .next t.succeeded := by
  have hb := stagesOf_blind i
  have hl := stagesOf_law i
  rw [hs] at hb hl
  rw [exec_eq, hs, finish_ok hb (hl (st, run) (List.mem_cons_self ..)) _ _ h]; rfl

theorem exec_single_fail {i : Instr} {st : StageName} {run : State → StageOut} {s t : State} {r : Raise}
    (hs : stagesOf i = [(st, run)]) (h : run s = .fail r t) :
    exec i s = .next (t.failed (errWord i.opcode st.number r.cause) (BitVec.ofNat 64 r.info)) := by
  have hb := stagesOf_blind i
  have hl := stagesOf_law i
  rw [hs] at hb hl
  rw [exec_eq, hs, finish_fail (hb (st, run) (List.mem_cons_self ..)) (hl (st, run) (List.mem_cons_self ..)) _ _ h]

end Sys2Proof.Machine
end

