-- ==== Sys2Proof/Laws/Runs.lean ====
section
/-! SUPPORT. What the invariant says of the tree and the codebook (10_state.md R39), and the ENGINE's step
keeping it. -/

namespace Sys2Proof.Machine

/-! ### The tree and the codebook of a state -/

/-- What TREE_V says (10_state.md R39 (b)). -/
theorem Inv.tree_eq {s : State} (hi : Inv s) (h : s.treeV = true) :
    s.nodeCount.toNat = nodeCountOf s.slist.length ∧ s.nodes = buildTree s.slist ∧ ListOk s.slist ∧ s.slistV = true := by
  obtain ⟨h1, h2⟩ := hi.data.tree h
  exact ⟨by rw [hi.data.storeLength, h2, length_buildTree], h2, (hi.data.list h1).1, h1⟩

/-- A list in good order has no codes if it is empty, and else the codes of its code tree. -/
theorem codes_of_list {es : List Entry} (hs : es.length ≤ 256) (hl : ListOk es) :
    (es = [] ∧ codebookOf (buildTree es) (nodeCountOf es.length) = List.replicate 256 []) ∨
      (es ≠ [] ∧ ∃ t, CodeTree es (codebookOf (buildTree es) (nodeCountOf es.length)) t) := by
  by_cases h0 : es = []
  · left; rw [h0]; exact ⟨rfl, rfl⟩
  · right; exact ⟨h0, exists_codeTree h0 hs hl.distinct⟩

/-- What TREE_V says of the codes that CODEBOOK gives. -/
theorem Inv.tree_codes {s : State} (hi : Inv s) (h : s.treeV = true) :
    (s.slist = [] ∧ codebookOf s.nodes s.nodeCount.toNat = List.replicate 256 []) ∨
      (s.slist ≠ [] ∧ ∃ t, CodeTree s.slist (codebookOf s.nodes s.nodeCount.toNat) t) := by
  obtain ⟨hn, ht, hl, -⟩ := hi.tree_eq h
  rw [hn, ht]
  exact codes_of_list hi.data.listShort hl

/-- What CB_V says (10_state.md R39 (c)). -/
theorem Inv.codes {s : State} (hi : Inv s) (h : s.cbV = true) :
    ListOk s.slist ∧ ((s.slist = [] ∧ s.cb = List.replicate 256 []) ∨ (s.slist ≠ [] ∧ ∃ t, CodeTree s.slist s.cb t)) := by
  obtain ⟨h1, h2⟩ := hi.data.codes h
  rw [h2]
  exact ⟨(hi.tree_eq h1).2.2.1, hi.tree_codes h1⟩

/-! ### The ENGINE's step -/

theorem Inv.succeeded {s u : State} (h : Inv s) (hb : s.busy = true) (hu : Untouched s u) (hd : DataInv u) : Inv u.succeeded := by
  obtain ⟨b1, b2, b3, b4⟩ := h.control.busyClear hb
  refine ⟨hd.control (hd := le_rfl) .., ?_, by simp, ?_, ?_, ?_, ⟨rfl, rfl, rfl⟩, by simp⟩
  · simp [hu.error, b2]
  · show ErrLegal u.err
    rw [hu.err]; exact h.control.errLegal
  · intro e; rw [show u.succeeded.error = s.error from hu.error, b2] at e; cases e
  · intro _
    show u.err = 0#64 ∧ u.errInfo = 0#64
    rw [hu.err, hu.errInfo]; exact ⟨b3, b4⟩

theorem Inv.failed {s u : State} (h : Inv s) (hb : s.busy = true) (hu : Untouched s u) (hd : DataInv u) (opcode stage : Byte)
    (c : Cause) (info : Word) : Inv (u.failed (errWord opcode stage c) info) := by
  obtain ⟨b1, -, -, -⟩ := h.control.busyClear hb
  have e : (u.failed (errWord opcode stage c) info).done = false := hu.done.trans b1
  refine ⟨hd.control (hd := le_rfl) .., fun e' => by rw [e] at e'; exact Bool.noConfusion e'.1, by simp,
    .inr ⟨opcode, stage, c, rfl⟩, fun _ => errWord_ne_zero opcode stage c, ?_,
    ⟨rfl, rfl, rfl⟩, by simp⟩
  intro e'; rw [e] at e'; cases e'

/-- A completion keeps the invariant. -/
theorem Inv.engineStep {s t : State} (h : Inv s) (hb : s.busy = true) (e : engineStep s = .next t) : Inv t := by
  obtain ⟨u, hu, hk, e' | ⟨op, st, c, info, e'⟩⟩ := engineStep_cases s <;> rw [e'] at e <;> obtain rfl := Host.Outcome.next.inj e
  · exact h.succeeded hb hu (hk h.data)
  · exact h.failed hb hu (hk h.data) op st c info

end Sys2Proof.Machine
end

