-- ==== Sys2Proof/Laws/Walk.lean ====
section
/-! SUPPORT. How a walk ends early (45_decoder.md R231 to R233): inside a code, at a leaf root, and with no room for a symbol. -/

namespace Sys2Proof.Machine

/-- The nodes of a tree are numbered from its root down. -/
theorem walkBits_partial {nodes : List Node} {x : Nat} {t : HTree} (h : Stands nodes x t) (root cap j : Nat)
    {c : Byte × List Bool} (hc : c ∈ t.paths) {part : List Bool} (hp : part <+: c.2) (hne : part ≠ c.2) (k : Nat) (m : Memory) :
    ∃ y, walkBits nodes root cap j part ⟨x, k, m⟩ = .ok ⟨y, k, m⟩ ∧ y ≤ x ∧ (part ≠ [] → y < x) := by
  induction h generalizing j c part with
  | leaf h =>
    obtain rfl := List.mem_singleton.mp hc
    exact absurd (List.prefix_nil.mp hp) hne
  | @node x a b f l r h _ ha hb hl hr ihl ihr =>
    cases part with
    | nil => exact ⟨x, rfl, le_rfl, fun e => absurd rfl e⟩
    | cons bit part =>
      have go : ∀ (bit : Bool) (child : Nat) (u : HTree), Stands nodes child u → child < x →
          (if bit then b.toNat else a.toNat) = child →
          (∀ (j : Nat) {c : Byte × List Bool}, c ∈ u.paths → ∀ {part : List Bool}, part <+: c.2 → part ≠ c.2 →
            ∃ y, walkBits nodes root cap j part ⟨child, k, m⟩ = .ok ⟨y, k, m⟩ ∧ y ≤ child ∧ (part ≠ [] → y < child)) →
          ∀ d ∈ u.paths, ∀ part, part <+: d.2 → part ≠ d.2 →
            ∃ y, walkBits nodes root cap j (bit :: part) ⟨x, k, m⟩ = .ok ⟨y, k, m⟩ ∧ y < x := by
        intro bit child u hu hx he ih d hd part hp hne
        cases hu with
        | leaf hu =>
          obtain rfl := List.mem_singleton.mp hd
          exact absurd (List.prefix_nil.mp hp) hne
        | node hu =>
          obtain ⟨y, e, hy, _⟩ := ih (j + 1) hd hp hne
          exact ⟨y, by simp only [walkBits, walkBit, h, he, hu]; exact e, by omega⟩
      have fin : (∃ y, walkBits nodes root cap j (bit :: part) ⟨x, k, m⟩ = .ok ⟨y, k, m⟩ ∧ y < x) →
          ∃ y, walkBits nodes root cap j (bit :: part) ⟨x, k, m⟩ = .ok ⟨y, k, m⟩ ∧ y ≤ x ∧ (bit :: part ≠ [] → y < x) :=
        fun ⟨y, e, hy⟩ => ⟨y, e, hy.le, fun _ => hy⟩
      rcases List.mem_append.mp hc with hc | hc <;> obtain ⟨d, hd, rfl⟩ := List.mem_map.mp hc <;>
        obtain ⟨rfl, hp'⟩ := List.cons_prefix_cons.mp hp <;>
        have hne' : part ≠ d.2 := fun e => hne (by rw [e])
      · exact fin (go false a.toNat l hl ha rfl (fun j c hc p hp hn => ihl j hc hp hn) d hd part hp' hne')
      · exact fin (go true b.toNat r hr hb rfl (fun j c hc p hp hn => ihr j hc hp hn) d hd part hp' hne')

/-- The last bit of a code finds no room for its symbol. -/
theorem walkBits_full {nodes : List Node} {x : Nat} {t : HTree} (h : Stands nodes x t) (root cap j : Nat)
    {c : Byte × List Bool} (hc : c ∈ t.paths) (hne : c.2 ≠ []) (k : Nat) (hk : cap ≤ k) (m : Memory) :
    walkBits nodes root cap j c.2 ⟨x, k, m⟩ = .fail ⟨.out, k⟩ := by
  induction h generalizing j c with
  | leaf h => obtain rfl := List.mem_singleton.mp hc; exact absurd rfl hne
  | @node x a b f l r h _ _ _ hl hr ihl ihr =>
    have go : ∀ (bit : Bool) (child : Nat) (u : HTree), Stands nodes child u → (if bit then b.toNat else a.toNat) = child →
        (∀ (j : Nat) {c : Byte × List Bool}, c ∈ u.paths → c.2 ≠ [] →
          walkBits nodes root cap j c.2 ⟨child, k, m⟩ = .fail ⟨.out, k⟩) →
        ∀ d ∈ u.paths, walkBits nodes root cap j (bit :: d.2) ⟨x, k, m⟩ = .fail ⟨.out, k⟩ := by
      intro bit child u hu he ih d hd
      cases hu with
      | leaf hu =>
        obtain rfl := List.mem_singleton.mp hd
        simp [walkBits, walkBit, h, he, hu, emit, hk]
      | node hu =>
        have hne : d.2 ≠ [] := by
          rcases List.mem_append.mp hd with hd | hd <;> obtain ⟨_, _, rfl⟩ := List.mem_map.mp hd <;> simp
        simp only [walkBits, walkBit, h, he, hu]
        exact ih (j + 1) hd hne
    rcases List.mem_append.mp hc with hc | hc <;> obtain ⟨d, hd, rfl⟩ := List.mem_map.mp hc
    · exact go false a.toNat l hl rfl (fun j c => ihl j) d hd
    · exact go true b.toNat r hr rfl (fun j c => ihr j) d hd

theorem walkBits_code_full {nodes : List Node} {root : Nat} {t : HTree} (h : Stands nodes root t) (cap j : Nat)
    {c : Byte × List Bool} (hc : c ∈ t.codes) (k : Nat) (hk : cap ≤ k) (m : Memory) :
    walkBits nodes root cap j c.2 ⟨root, k, m⟩ = .fail ⟨.out, k⟩ := by
  cases t with
  | leaf s n =>
    obtain rfl := List.mem_singleton.mp hc
    cases h with
    | leaf h => simp [walkBits, walkBit, h, emit, hk]
  | node l r => exact walkBits_full h root cap j hc (HTree.codes_ne_nil hc) k hk m

/-- A 1 bit at a leaf root (45_decoder.md R232). -/
theorem walkBits_noChild {nodes : List Node} {root : Nat} {s : Byte} {n : Nat} (h : Stands nodes root (.leaf s n)) (cap j : Nat)
    (bits : List Bool) (k : Nat) (m : Memory) :
    walkBits nodes root cap j (true :: bits) ⟨root, k, m⟩ = .fail ⟨.noChild, j⟩ := by
  cases h with
  | leaf h => simp [walkBits, walkBit, h]

end Sys2Proof.Machine
end

