-- ==== Sys2Proof/Laws/Composite.lean ====
section
/-! SUPPORT. The stages that the composite commands share: FREQ, BUILD and CODEBOOK of the input, PARSE and BUILD of a container
(46_composite.md R240 to R242). -/

namespace Sys2Proof.Machine

theorem nodesFor_toNat {n : Nat} (h : n ≤ 256) : (BitVec.ofNat 64 (nodesFor n)).toNat = nodesFor n := by
  rw [BitVec.toNat_ofNat, Nat.mod_eq_of_lt]; unfold nodesFor; split_ifs <;> omega

theorem nodesFor_eq (n : Nat) : nodesFor n = nodeCountOf n := rfl

theorem length_codebookOf (nodes : List Node) (n : Nat) : (codebookOf nodes n).length = 256 := by
  rw [codebookOf, length_foldl_setCode, List.length_replicate]

/-- A full codebook is read without a free value. -/
theorem codeOf_eq {s : State} (h : s.cb.length = 256) : codeOf s = codeIn s.cb := by
  funext b
  have := b.isLt
  rw [codeOf, codeIn, List.getD_eq_getElem?_getD, List.getD_eq_getElem?_getD, List.getElem?_eq_getElem (by omega)]; rfl

/-- Both variants of BUILD write the one tree. -/
theorem buildBody_nodes (heap : Bool) {es : List Entry} (h : ListOk es) :
    (if heap = true then buildHeap es else buildTwoQueue es) = buildTree es := by
  cases heap <;> simp [buildHeap_eq, buildTwoQueue_eq _ h.ascending]

theorem blind_cons {p : StageName × (State → StageOut)} {rest : List (StageName × (State → StageOut))} (hp : Blind p.2)
    (h : ∀ q ∈ rest, Blind q.2) : ∀ q ∈ p :: rest, Blind q.2 := by
  intro q hq
  rcases List.mem_cons.mp hq with rfl | hq
  · exact hp
  · exact h q hq

/-- FREQ, BUILD and CODEBOOK of an input that fits. -/
theorem finish_analyzed (opcode : Byte) (heap : Bool) (rest : List (StageName × (State → StageOut)))
    (hb : ∀ p ∈ rest, Blind p.2) (s : State) (h : s.inLen.toNat ≤ s.capIn.toNat) :
    finish opcode (runStages 0 ((.freq, freqStage) :: (.build, buildStage heap) :: (.codebook, codebookStage) :: rest) s) =
      finish opcode (runStages 3 rest (analyzed s (inBytes s))) := by
  have hlen : (inBytes s).length < 2 ^ 64 := by rw [length_inBytes]; exact s.inLen.isLt
  have hl := listOk_freqList hlen
  have hc := blind_cons (p := (StageName.codebook, codebookStage)) blind_codebook hb
  have hd := blind_cons (p := (StageName.build, buildStage heap)) (blind_build heap) hc
  have he := blind_cons (p := (StageName.freq, freqStage)) blind_freq hd
  rw [finish_ok he freqStage_law opcode 0 (freqStage_ok h), finish_ok hd (buildStage_law heap) opcode _ (buildStage_ok heap rfl),
    finish_ok hc codebookStage_law opcode _ (codebookStage_ok rfl)]
  simp only [buildBody_nodes heap hl]
  have : (BitVec.ofNat 64 (nodeCountOf (freqList (inBytes s)).length)).toNat = nodeCountOf (freqList (inBytes s)).length :=
    nodesFor_toNat (length_freqList_le _)
  simp only [this]
  rfl

/-- FREQ of an input that does not fit. -/
theorem finish_freq_fail (opcode : Byte) (rest : List (StageName × (State → StageOut))) (s : State)
    (h : s.capIn.toNat < s.inLen.toNat) :
    finish opcode (runStages 0 ((.freq, freqStage) :: rest) s) = s.failed (errWord opcode 0x01#8 .inLen) s.inLen := by
  rw [finish_fail blind_freq freqStage_law opcode 0 (freqStage_fail h)]
  simp only [BitVec.ofNat_toNat, BitVec.setWidth_eq]; rfl

/-- PARSE and BUILD of a container. -/
theorem finish_rebuilt (opcode : Byte) (heap : Bool) (rest : List (StageName × (State → StageOut)))
    (hb : ∀ p ∈ rest, Blind p.2) {s : State} {p : Parsed} (h : parsedOf s = .ok p) :
    finish opcode (runStages 0 ((.parse, parseStage) :: (.build, buildStage heap) :: rest) s) =
      finish opcode (runStages 2 rest (rebuilt s p)) := by
  have hl := (parseContainer_ok h).1.list
  have hd := blind_cons (p := (StageName.build, buildStage heap)) (blind_build heap) hb
  have he := blind_cons (p := (StageName.parse, parseStage)) blind_parse hd
  rw [finish_ok he parseStage_law opcode 0 (parseStage_ok h), finish_ok hd (buildStage_law heap) opcode _ (buildStage_ok heap rfl)]
  simp only [buildBody_nodes heap hl]
  rfl

/-- PARSE of something else. -/
theorem finish_parse_fail (opcode : Byte) (rest : List (StageName × (State → StageOut))) {s : State} {r : Raise}
    (h : parsedOf s = .fail r) :
    finish opcode (runStages 0 ((.parse, parseStage) :: rest) s) = s.failed (errWord opcode 0x11#8 r.cause) (BitVec.ofNat 64 r.info) :=
  finish_fail blind_parse parseStage_law opcode 0 (parseStage_fail h)

end Sys2Proof.Machine
end

