-- ==== Sys2Proof/Laws/Merge.lean ====
section
/-! SUPPORT. Each merge of the node store that BUILD writes takes the two least available nodes (41_tree.md R151), and the root has the
sum of all counts (R157). -/

namespace Sys2Proof.Machine

/-- The merge that made branch `n + k` of a store: its children are the two least of the nodes available then, in order. -/
def TakesTwoLeast (nodes : List Node) (n k : Nat) : Prop :=
  ∃ a b f, nodes[n + k]? = some (.branch a b f) ∧ Available nodes n k a.toNat ∧ Available nodes n k b.toNat ∧ a ≠ b ∧
    (∀ x, Available nodes n k x → x ≠ a.toNat → Precedes nodes a.toNat x) ∧
    (∀ x, Available nodes n k x → x ≠ a.toNat → x ≠ b.toNat → Precedes nodes b.toNat x) ∧
    f.toNat = nodeFreq nodes a.toNat + nodeFreq nodes b.toNat

/-- The items of a merge loop after `k` merges, against the store the whole loop makes. -/
structure Holds (nodes : List Node) (n k sum : Nat) (q : List Item) : Prop where
  fresh : Fresh (n + k) q
  available : ∀ x, x ∈ q.map (·.ix) ↔ Available nodes n k x
  freqs : ∀ y ∈ q, y.freq = nodeFreq nodes y.ix
  total : (q.map (·.freq)).sum = sum
  children : ∀ j < k, ∀ a b f, nodes[n + j]? = some (.branch a b f) → a.toNat < n + j ∧ b.toNat < n + j

theorem Available.lt {nodes : List Node} {n k x : Nat} (h : Available nodes n k x) : x < n + k := h.1

theorem nodeFreq_branch {nodes : List Node} {x : Nat} {a b : NodeIx} {f : Word} (h : nodes[x]? = some (.branch a b f)) :
    nodeFreq nodes x = f.toNat := by simp only [nodeFreq, h]

theorem nodeFreq_leaf {nodes : List Node} {x : Nat} {s : Byte} {f : Word} (h : nodes[x]? = some (.leaf s f)) :
    nodeFreq nodes x = f.toNat := by simp only [nodeFreq, h]

theorem toNat_nodeIx {x : Nat} (h : x < 512) : (BitVec.ofNat 9 x).toNat = x := by
  rw [BitVec.toNat_ofNat, Nat.mod_eq_of_lt h]

/-- One merge: the least two leave, the new branch enters. -/
theorem Holds.merge {nodes : List Node} {n k sum : Nat} {q q2 : List Item} {a b : Item} (h : Holds nodes n k sum q)
    (p : q.Perm (a :: b :: q2)) (ha : ∀ y ∈ b :: q2, a.lt y) (hb : ∀ y ∈ q2, b.lt y) (hs : sum < 2 ^ 64) (hk : n + k < 512)
    (hn : nodes[n + k]? = some (.branch (BitVec.ofNat 9 a.ix) (BitVec.ofNat 9 b.ix) (BitVec.ofNat 64 (a.freq + b.freq)))) :
    TakesTwoLeast nodes n k ∧ Holds nodes n (k + 1) sum (⟨a.freq + b.freq, n + k⟩ :: q2) := by
  have f := h.fresh.perm p
  have pa : a.ix < n + k := f.2 a (by simp)
  have pb : b.ix < n + k := f.2 b (by simp)
  have nodup := f.1
  simp only [List.map_cons, List.nodup_cons, List.mem_cons, not_or] at nodup
  obtain ⟨⟨hab, ha2⟩, hb2, hq2⟩ := nodup
  have mem : ∀ x, Available nodes n k x ↔ x = a.ix ∨ x = b.ix ∨ x ∈ q2.map (·.ix) := by
    intro x
    rw [← h.available, (p.map _).mem_iff]; simp
  have freq : ∀ y ∈ a :: b :: q2, y.freq = nodeFreq nodes y.ix := fun y hy => h.freqs y (p.mem_iff.mpr hy)
  have tot : a.freq + (b.freq + (q2.map (·.freq)).sum) = sum := by
    rw [← h.total, (p.map _).sum_eq]; simp
  have prec : ∀ {x y : Item}, x ∈ a :: b :: q2 → y ∈ a :: b :: q2 → x.lt y → Precedes nodes x.ix y.ix := by
    intro x y hx hy hl
    unfold Precedes
    rw [← freq x hx, ← freq y hy]; exact hl
  have ea := toNat_nodeIx (show a.ix < 512 by omega)
  have eb := toNat_nodeIx (show b.ix < 512 by omega)
  have ef : (BitVec.ofNat 64 (a.freq + b.freq)).toNat = a.freq + b.freq := by
    rw [BitVec.toNat_ofNat, Nat.mod_eq_of_lt (by omega)]
  have next : ∀ x, Available nodes n (k + 1) x ↔ (x = n + k ∨ Available nodes n k x) ∧ x ≠ a.ix ∧ x ≠ b.ix := by
    intro x
    constructor
    · rintro ⟨h1, h2⟩
      obtain ⟨c1, c2⟩ := h2 k (Nat.lt_succ_self k) _ _ _ hn
      rw [ea] at c1; rw [eb] at c2
      refine ⟨?_, c1, c2⟩
      by_cases hx : x = n + k
      · exact .inl hx
      · exact .inr ⟨by omega, fun j hj => h2 j (by omega)⟩
    · rintro ⟨h1, c1, c2⟩
      refine ⟨by rcases h1 with h1 | h1 <;> [omega; exact Nat.lt_succ_of_lt h1.1], fun j hj a' b' f' hj' => ?_⟩
      rcases Nat.lt_succ_iff_lt_or_eq.mp hj with hj2 | rfl
      · rcases h1 with rfl | h1
        · have := h.children j hj2 _ _ _ hj'; omega
        · exact h1.2 j hj2 _ _ _ hj'
      · rw [hn] at hj'
        obtain ⟨rfl, rfl, -⟩ := Node.branch.inj (Option.some.inj hj')
        rw [ea, eb]; exact ⟨c1, c2⟩
  refine ⟨⟨_, _, _, hn, ?_, ?_, ?_, ?_, ?_, ?_⟩, ?_, ?_, ?_, ?_, ?_⟩
  · rw [ea]; exact (mem _).mpr (.inl rfl)
  · rw [eb]; exact (mem _).mpr (.inr (.inl rfl))
  · intro e; exact hab (by rw [← ea, ← eb, e])
  · intro x hx hne
    rw [ea] at hne ⊢
    rcases (mem x).mp hx with rfl | rfl | hx
    · exact absurd rfl hne
    · exact prec (by simp) (by simp) (ha b (by simp))
    · obtain ⟨y, hy, rfl⟩ := List.mem_map.mp hx
      exact prec (by simp) (by simp [hy]) (ha y (by simp [hy]))
  · intro x hx hne hne2
    rw [ea] at hne
    rw [eb] at hne2 ⊢
    rcases (mem x).mp hx with rfl | rfl | hx
    · exact absurd rfl hne
    · exact absurd rfl hne2
    · obtain ⟨y, hy, rfl⟩ := List.mem_map.mp hx
      exact prec (by simp) (by simp [hy]) (hb y hy)
  · rw [ea, eb, ef, ← freq a (by simp), ← freq b (by simp)]
  · exact f.tail.tail.put _
  · intro x
    rw [next, mem, List.map_cons, List.mem_cons]
    constructor
    · rintro (rfl | hx)
      · exact ⟨.inl rfl, by simp only; omega, by simp only; omega⟩
      · exact ⟨.inr (.inr (.inr hx)), fun e => ha2 (e ▸ hx), fun e => hb2 (e ▸ hx)⟩
    · rintro ⟨rfl | rfl | rfl | hx, c1, c2⟩
      · exact .inl rfl
      · exact absurd rfl c1
      · exact absurd rfl c2
      · exact .inr hx
  · intro y hy
    rcases List.mem_cons.mp hy with rfl | hy
    · show a.freq + b.freq = nodeFreq nodes (n + k)
      rw [nodeFreq_branch hn, ef]
    · exact freq y (by simp [hy])
  · rw [List.map_cons, List.sum_cons]
    show a.freq + b.freq + _ = sum
    omega
  · intro j hj a' b' f' hj'
    rcases Nat.lt_succ_iff_lt_or_eq.mp hj with hj2 | rfl
    · exact h.children j hj2 _ _ _ hj'
    · rw [hn] at hj'
      obtain ⟨rfl, rfl, -⟩ := Node.branch.inj (Option.some.inj hj')
      rw [ea, eb]; exact ⟨pa, pb⟩

/-- Every merge of a loop takes the two least, and the items of the end state hold the sum. -/
theorem mergeLoop_takesTwoLeast {n sum : Nat} (hs : sum < 2 ^ 64) :
    ∀ (j k : Nat) (q : List Item) (pre : List Node), pre.length = n + k → n + k + j ≤ 512 → q.length = j + 1 →
      Holds (pre ++ mergeLoop (takeLeast n) List.cons j (n + k) q) n k sum q →
      (∀ i < j, TakesTwoLeast (pre ++ mergeLoop (takeLeast n) List.cons j (n + k) q) n (k + i)) ∧
        ∃ q', q'.length = 1 ∧ Holds (pre ++ mergeLoop (takeLeast n) List.cons j (n + k) q) n (k + j) sum q' := by
  intro j
  induction j with
  | zero => intro k q pre _ _ hq h; exact ⟨by simp, q, hq, h⟩
  | succ j ih =>
    intro k q pre hp hb hq h
    obtain ⟨a, q1, b, q2, e1, e2, p, ha, hb', _, _⟩ := (merges_least n).step (n + k) q h.fresh (by omega)
    have hl : q2.length = j := by have := p.length_eq; simp only [List.length_cons] at this; omega
    have e : pre ++ mergeLoop (takeLeast n) List.cons (j + 1) (n + k) q =
        (pre ++ [.branch (BitVec.ofNat 9 a.ix) (BitVec.ofNat 9 b.ix) (BitVec.ofNat 64 (a.freq + b.freq))]) ++
          mergeLoop (takeLeast n) List.cons j (n + (k + 1)) (⟨a.freq + b.freq, n + k⟩ :: q2) := by
      simp only [mergeLoop, e1, e2, List.append_assoc, List.singleton_append, Nat.add_assoc]
    have hn : (pre ++ mergeLoop (takeLeast n) List.cons (j + 1) (n + k) q)[n + k]? =
        some (.branch (BitVec.ofNat 9 a.ix) (BitVec.ofNat 9 b.ix) (BitVec.ofNat 64 (a.freq + b.freq))) := by
      rw [List.getElem?_append_right (by omega), hp, Nat.sub_self]
      simp only [mergeLoop, e1, e2, List.getElem?_cons_zero]
    obtain ⟨m1, m2⟩ := h.merge p ha hb' hs (by omega) hn
    rw [e] at m1 m2 ⊢
    obtain ⟨g1, q', g2, g3⟩ := ih (k + 1) _ _ (by simp [hp]; omega) (by omega) (by simp [hl]) m2
    refine ⟨fun i hi => ?_, q', g2, by rw [show k + (j + 1) = k + 1 + j by omega]; exact g3⟩
    cases i with
    | zero => exact m1
    | succ i => rw [show k + (i + 1) = k + 1 + i by omega]; exact g1 i (by omega)

theorem getElem?_leafNodes (es : List Entry) (i : Nat) (h : i < es.length) :
    (leafNodes es)[i]? = some (.leaf es[i].sym es[i].cnt) := by simp [leafNodes, h]

theorem getElem?_buildTree_leaf (es : List Entry) (i : Nat) (h : i < es.length) :
    (buildTree es)[i]? = some (.leaf es[i].sym es[i].cnt) := by
  rw [buildTree, List.getElem?_append_left (by simpa [leafNodes] using h), getElem?_leafNodes es i h]

theorem sum_leafItemsFrom (i : Nat) (es : List Entry) : ((leafItemsFrom i es).map (·.freq)).sum = sumCounts es := by
  induction es generalizing i with
  | nil => rfl
  | cons e es ih => simp only [leafItemsFrom, List.map_cons, List.sum_cons, ih, sumCounts]

theorem ix_leafItemsFrom (i : Nat) (es : List Entry) (x : Nat) :
    x ∈ (leafItemsFrom i es).map (·.ix) ↔ i ≤ x ∧ x < i + es.length := by
  induction es generalizing i with
  | nil => simp [leafItemsFrom]
  | cons e es ih => simp only [leafItemsFrom, List.map_cons, List.mem_cons, ih, List.length_cons]; omega

/-- Before the first merge the leaves are available. -/
theorem holds_leaves (es : List Entry) : Holds (buildTree es) es.length 0 (sumCounts es) (leafItems es) where
  fresh := fresh_leafItems es
  available x := by
    rw [leafItems, ix_leafItemsFrom]
    exact ⟨fun h => ⟨by omega, by simp⟩, fun h => ⟨Nat.zero_le _, by have := h.1; omega⟩⟩
  freqs y hy := by
    obtain ⟨h1, h2, e, h3, h4⟩ := mem_leafItemsFrom hy
    rw [Nat.sub_zero] at h3
    obtain ⟨h5, rfl⟩ := List.getElem?_eq_some_iff.mp h3
    rw [nodeFreq_leaf (getElem?_buildTree_leaf es _ h5), h4]
  total := sum_leafItemsFrom 0 es
  children := by simp

/-- 41_tree.md R151: every merge takes the two least; R157: the root has the sum of all counts. -/
theorem buildTree_merges {es : List Entry} (h0 : es ≠ []) (h1 : es.length ≤ 256) (hs : sumCounts es < 2 ^ 64) :
    (∀ k, k + 1 < es.length → TakesTwoLeast (buildTree es) es.length k) ∧
      nodeFreq (buildTree es) (2 * es.length - 2) = sumCounts es := by
  have hp : 0 < es.length := List.length_pos_iff.mpr h0
  have hl : (leafItems es).length = es.length := length_leafItemsFrom 0 es
  obtain ⟨g1, q, g2, g3⟩ := mergeLoop_takesTwoLeast (n := es.length) hs (es.length - 1) 0 (leafItems es) (leafNodes es)
    (by simp [leafNodes]) (by omega) (by omega) (holds_leaves es)
  rw [Nat.zero_add] at g3
  refine ⟨fun k hk => by have := g1 k (by omega); rwa [Nat.zero_add] at this, ?_⟩
  obtain ⟨y, rfl⟩ := List.length_eq_one_iff.mp g2
  have root : Available (buildTree es) es.length (es.length - 1) (2 * es.length - 2) :=
    ⟨by omega, fun j hj a b f hn => by have := g3.children j hj a b f hn; omega⟩
  have e := (g3.available _).mpr root
  simp only [List.map_cons, List.map_nil, List.mem_singleton] at e
  have t := g3.total
  have := g3.freqs y (by simp)
  simp only [List.map_cons, List.map_nil, List.sum_cons, List.sum_nil, Nat.add_zero] at t
  rw [e]; exact this.symm.trans t

end Sys2Proof.Machine
end

