-- ==== Sys2Proof/Laws/Parse.lean ====
section
/-! SUPPORT. Where check 7 of PARSE stops (44_container.md R206): the entries before the first bad one are good. -/

namespace Sys2Proof.Machine

/-- Check 7 of the entries `suf`, after the entries `pre` passed. -/
def checkFrom (pre suf : List Entry) : Option Raise := checkEntries pre.length (pre.reverse.map (·.sym)) pre.getLast? suf

theorem contains_syms_false {pre : List Entry} {e : Entry} (hd : ∀ x ∈ pre, x.sym ≠ e.sym) :
    (pre.reverse.map (·.sym)).contains e.sym = false := by
  simp only [List.contains_eq_mem, decide_eq_false_iff_not, List.mem_map, List.mem_reverse, not_exists, not_and]
  exact hd

theorem checkFrom_good (pre suf : List Entry) (e : Entry) (hd : ∀ x ∈ pre, x.sym ≠ e.sym)
    (ho : ∀ p ∈ pre.getLast?, entryLt p e) : checkFrom pre (e :: suf) = checkFrom (pre ++ [e]) suf := by
  simp only [checkFrom, checkEntries, contains_syms_false hd, Bool.false_eq_true, if_false]
  cases h : pre.getLast? with
  | none => simp
  | some p =>
    rw [h] at ho
    simp only
    rw [if_pos (ho p rfl)]
    simp

theorem checkFrom_duplicate (pre suf : List Entry) (e : Entry) (hd : ∃ x ∈ pre, x.sym = e.sym) :
    checkFrom pre (e :: suf) = some ⟨.duplicateSymbol, pre.length⟩ := by
  have hc : (pre.reverse.map (·.sym)).contains e.sym = true := by
    simp only [List.contains_eq_mem, decide_eq_true_eq, List.mem_map, List.mem_reverse]; exact hd
  simp only [checkFrom, checkEntries, hc, if_true]

theorem checkFrom_badOrder (pre suf : List Entry) (e p : Entry) (hd : ∀ x ∈ pre, x.sym ≠ e.sym) (hp : pre.getLast? = some p)
    (ho : ¬ entryLt p e) : checkFrom pre (e :: suf) = some ⟨.badOrder, pre.length⟩ := by
  simp only [checkFrom, checkEntries, contains_syms_false hd, Bool.false_eq_true, if_false, hp]
  rw [if_neg ho]

/-- Entry `i` passes both tests. -/
def GoodEntry (es : List Entry) (i : Nat) : Prop :=
  (∀ x ∈ es.take i, ∀ e ∈ es[i]?, x.sym ≠ e.sym) ∧ (∀ p ∈ (es.take i).getLast?, ∀ e ∈ es[i]?, entryLt p e)

/-- Where the first `i` entries are good, the check goes on from entry `i`. -/
theorem checkEntries_from (es : List Entry) (i : Nat) (hi : i ≤ es.length) (h : ∀ j < i, GoodEntry es j) :
    checkEntries 0 [] none es = checkFrom (es.take i) (es.drop i) := by
  induction i with
  | zero => rfl
  | succ i ih =>
    rw [ih (by omega) fun j hj => h j (by omega)]
    have hi' : i < es.length := by omega
    obtain ⟨g1, g2⟩ := h i (by omega)
    rw [List.drop_eq_getElem_cons hi',
      checkFrom_good _ _ _ (fun x hx => g1 x hx _ (by simp [hi'])) (fun p hp => g2 p hp _ (by simp [hi'])),
      List.take_append_getElem]

/-- The counts of a container fit 64 bits. -/
theorem toNat_count (d : Nat → Byte) (a : Nat) {w : Nat} (hw : w ≤ 8) :
    (BitVec.ofNat 64 (unBigEndian (bytesAt d a w))).toNat = unBigEndian (bytesAt d a w) := by
  have h := unBigEndian_lt (bytesAt d a w)
  rw [show (bytesAt d a w).length = w by simp [bytesAt]] at h
  rw [BitVec.toNat_ofNat, Nat.mod_eq_of_lt]
  calc _ < 256 ^ w := h
    _ ≤ 256 ^ 8 := Nat.pow_le_pow_right (by omega) hw
    _ = 2 ^ 64 := by norm_num

end Sys2Proof.Machine
end

