-- ==== Sys2Proof/Laws/PerInstr.lean ====
section
/-! SUPPORT. What holds of each instruction as syntax: how it is spelled (30_encoding.md R100, R101, R121). -/

namespace Sys2Proof.Laws.Encoding

/-- The fields that spell `i` make a command, they are the fields of its word, and OPCODE, ALG and SRC name `i` alone. -/
def Statement (i : Instr) : Prop :=
  i.wellFormed = true ∧ splitWord (encode i) = i.fields ∧ dispatchFields i.opcode i.alg i.src = some i

theorem freq : Statement .freq := ⟨by decide, by decide, by decide⟩
theorem build : Statement .build := ⟨by decide, by decide, by decide⟩
theorem buildH : Statement .buildH := ⟨by decide, by decide, by decide⟩
theorem codebook : Statement .codebook := ⟨by decide, by decide, by decide⟩
theorem code : Statement .code := ⟨by decide, by decide, by decide⟩
theorem pack : Statement .pack := ⟨by decide, by decide, by decide⟩
theorem serialize : Statement .serialize := ⟨by decide, by decide, by decide⟩
theorem parse : Statement .parse := ⟨by decide, by decide, by decide⟩
theorem unpack : Statement .unpack := ⟨by decide, by decide, by decide⟩
theorem walk : Statement .walk := ⟨by decide, by decide, by decide⟩
theorem encode : Statement .encode := ⟨by decide, by decide, by decide⟩
theorem encodeH : Statement .encodeH := ⟨by decide, by decide, by decide⟩
theorem decode : Statement .decode := ⟨by decide, by decide, by decide⟩
theorem decodeH : Statement .decodeH := ⟨by decide, by decide, by decide⟩
theorem stats : Statement .stats := ⟨by decide, by decide, by decide⟩
theorem statsH : Statement .statsH := ⟨by decide, by decide, by decide⟩
theorem statsC : Statement .statsC := ⟨by decide, by decide, by decide⟩
theorem statsHC : Statement .statsHC := ⟨by decide, by decide, by decide⟩

end Sys2Proof.Laws.Encoding
end

