-- ==== Sys2Proof/Tests/Slice0.lean ====
section
/-! SUPPORT. Tests: ill-formed command words, decoded words written out from 30_encoding.md R100, single commands whose expected
results are the vectors of 95_test_vectors.md, and for each obligation a state and operands that meet its hypotheses. -/

namespace Sys2Proof.Tests

open Sys2Proof Sys2Proof.Machine

set_option Elab.async false

/-! ### Helpers -/

/-- The next state; `State.reset` where there is none. -/
def after : Host.Outcome State Fault Refusal → State
  | .next t => t
  | .fault _ => State.reset
  | .refused _ => State.reset

/-- Bytes from numbers. -/
def bytes (l : List Nat) : List Byte := l.map (BitVec.ofNat 8)

/-- The block after reset with other capacities and an input in IN_MEM. -/
def loadedIn (capIn capOut capBits : Nat) (input : List Byte) : State :=
  { State.atReset (BitVec.ofNat 64 capIn) (BitVec.ofNat 64 capOut) (BitVec.ofNat 64 capBits) 0 with
    inMem := Memory.writeAll [] 0 input, inLen := BitVec.ofNat 64 input.length }

/-- The default start state of 95_test_vectors.md. -/
def loaded (input : List Byte) : State := loadedIn 4096 8192 65536 input

/-- Command word `v` accepted and completed. -/
def run (v : Word) (s : State) : State := after (engineStep (accept v s))

/-- STATUS as HOST reads it. -/
def statusOf (s : State) : Nat := (readReg .status s).1.toNat

/-- What a register reads. -/
def reg (o : Nat) (s : State) : Nat :=
  match (hostRead (BitVec.ofNat 64 o) 8 s).1 with
  | .word v => v.toNat
  | _ => 2 ^ 64

/-- OUT_MEM[0, OUT_LEN). -/
def outBytes (s : State) : List Byte := (List.range s.outLen.toNat).map (readOut s)

/-- A list from (symbol, count) pairs. -/
def entries (l : List (Nat × Nat)) : List Entry := l.map fun p => { sym := BitVec.ofNat 8 p.1, cnt := BitVec.ofNat 64 p.2 }

/-- A container header (30_encoding.md R111 to R113) with fields below 65536. -/
def header (n b w : Nat) : List Nat :=
  [0, 0, 0, 0, 0, 0, n / 256, n % 256, 0, 0, 0, 0, 0, 0, b / 256, b % 256, w]

def ab : List Byte := bytes [0x61, 0x62]
def aab : List Byte := bytes [0x61, 0x61, 0x62]
def aaaa : List Byte := bytes [0x61, 0x61, 0x61, 0x61]
def geeks : List Byte := bytes [0x67, 0x65, 0x65, 0x6B, 0x73, 0x66, 0x6F, 0x72, 0x67, 0x65, 0x65, 0x6B, 0x73]

/-- L1.3's list. -/
def geeksList : List Entry :=
  entries [(0x66, 1), (0x6F, 1), (0x72, 1), (0x67, 2), (0x6B, 2), (0x73, 2), (0x65, 4)]

/-- L1.3's node store. -/
def geeksNodes : List Node :=
  [.leaf 0x66#8 1#64, .leaf 0x6F#8 1#64, .leaf 0x72#8 1#64, .leaf 0x67#8 2#64, .leaf 0x6B#8 2#64, .leaf 0x73#8 2#64,
    .leaf 0x65#8 4#64, .branch 0#9 1#9 2#64, .branch 2#9 3#9 3#64, .branch 4#9 5#9 4#64, .branch 7#9 8#9 5#64,
    .branch 6#9 9#9 8#64, .branch 10#9 11#9 13#64]

/-- L1.3's container. -/
def geeksContainer : List Byte :=
  bytes (header 7 0x23 1 ++ [0x66, 0x6F, 0x72, 0x67, 0x6B, 0x73, 0x65] ++ [1, 1, 1, 2, 2, 2, 4] ++
    [0xAE, 0x1D, 0x94, 0x6B, 0x07])

/-- L2.7's container of `"ab"`. -/
def abContainer : List Byte := bytes (header 2 2 1 ++ [0x61, 0x62, 1, 1, 2])

/-! ### Ill-formed command words (30_encoding.md R101 to R104) -/

theorem smoke_reserved_opcode :
    CmdFields.wellFormed { opcode := 0x07#8, alg := false, src := false, rest := 0#54 } = false := by decide
theorem smoke_rest_not_zero :
    CmdFields.wellFormed { opcode := 0x20#8, alg := false, src := false, rest := 1#54 } = false := by decide
theorem smoke_alg_not_legal :
    CmdFields.wellFormed { opcode := 0x03#8, alg := true, src := false, rest := 0#54 } = false := by decide
theorem smoke_src_not_legal :
    CmdFields.wellFormed { opcode := 0x20#8, alg := false, src := true, rest := 0#54 } = false := by decide
theorem smoke_well_formed :
    CmdFields.wellFormed { opcode := 0x22#8, alg := true, src := true, rest := 0#54 } = true := by decide

/-! ### Words written out bit by bit: SRC at bit 9, ALG at bit 8, OPCODE in bits 7:0 (30_encoding.md R100, R101) -/

theorem test_decode_bits_freq : decode 0b0000000001#64 = .command .freq := by decide
theorem test_decode_bits_build : decode 0b0100000010#64 = .command .buildH := by decide
theorem test_decode_bits_codebook : decode 0b0000000011#64 = .command .codebook := by decide
theorem test_decode_bits_code : decode 0b0000000100#64 = .command .code := by decide
theorem test_decode_bits_pack : decode 0b0000000101#64 = .command .pack := by decide
theorem test_decode_bits_serialize : decode 0b0000000110#64 = .command .serialize := by decide
theorem test_decode_bits_parse : decode 0b0000010001#64 = .command .parse := by decide
theorem test_decode_bits_unpack : decode 0b0000010010#64 = .command .unpack := by decide
theorem test_decode_bits_walk : decode 0b0000010011#64 = .command .walk := by decide
theorem test_decode_bits_encode : decode 0b0100100000#64 = .command .encodeH := by decide
theorem test_decode_bits_decode : decode 0b0000100001#64 = .command .decode := by decide
theorem test_decode_bits_stats : decode 0b1000100010#64 = .command .statsC := by decide

/-- L2.1: the two rejections. -/
theorem test_decode_rejects :
    [0x00#64, 0x07#64, 0x10#64, 0x14#64, 0x1F#64, 0x23#64, 0xFF#64, 0x1FF#64].all
      (fun v => decode v = .reject .reservedOpcode) = true ∧
    [0x101#64, 0x103#64, 0x202#64, 0x220#64, 0x420#64, 0x8000000000000022#64].all
      (fun v => decode v = .reject .reservedBits) = true := by decide

/-! ### Commands, with the vectors of 95_test_vectors.md -/

/-- L2.1. -/
theorem test_command_error :
    (run 0x1FF#64 State.reset).err = 0xFFFF0101#64 ∧ (run 0x1FF#64 State.reset).errInfo = 0x1FF#64 ∧
    statusOf (run 0x1FF#64 State.reset) = 0x0004 := by decide +kernel

/-- L2.2. -/
theorem test_freq_list :
    (run 0x001#64 (loaded aab)).slist = entries [(0x62, 1), (0x61, 2)] ∧
    statusOf (run 0x001#64 (loaded aab)) = 0x0102 := by decide +kernel

/-- L2.2: IN_CAP = 17 and IN_LEN = 18. -/
theorem test_freq_in_len :
    (run 0x001#64 { loadedIn 17 17 16 [] with inLen := 18#64 }).err = 0x01010103#64 ∧
    (run 0x001#64 { loadedIn 17 17 16 [] with inLen := 18#64 }).errInfo = 18#64 := by decide +kernel

/-- A state with a list and nothing else. -/
def listed (es : List Entry) : State :=
  { State.reset with slist := es, symbolCount := BitVec.ofNat 64 es.length, slistV := true }

/-- L1.3. -/
theorem test_build_geeks :
    (run 0x002#64 (listed geeksList)).nodes = geeksNodes ∧ (run 0x002#64 (listed geeksList)).nodeCount = 13#64 := by
  decide +kernel

/-- L2.3: no list. -/
theorem test_build_no_list :
    (run 0x002#64 State.reset).err = 0x02020102#64 ∧ statusOf (run 0x002#64 State.reset) = 0x0004 := by decide +kernel

/-- L1.3, by the heap. -/
theorem test_buildH_geeks : (run 0x102#64 (listed geeksList)).nodes = geeksNodes := by decide +kernel

/-- L2.3, `"abcc"`: a tie, and the leaf wins. -/
theorem test_buildH_tie :
    (run 0x102#64 (listed (entries [(0x61, 1), (0x62, 1), (0x63, 2)]))).nodes.drop 3 =
      [.branch 0#9 1#9 2#64, .branch 2#9 3#9 4#64] := by decide +kernel

/-- A state with a list, a tree and nothing else. -/
def treed (es : List Entry) (ns : List Node) : State :=
  { listed es with nodes := ns, nodeCount := BitVec.ofNat 64 ns.length, treeV := true }

/-- L2.4: f 000, o 001, r 010, g 011, e 10, k 110, s 111. -/
theorem test_codebook_geeks :
    geeksList.map (fun e => codeOf (run 0x003#64 (treed geeksList geeksNodes)) e.sym) =
      [[false, false, false], [false, false, true], [false, true, false], [false, true, true], [true, true, false],
        [true, true, true], [true, false]] := by decide +kernel

/-- L2.4, `"aaaa"`: the sole symbol has the code 0. -/
theorem test_codebook_single :
    codeOf (run 0x003#64 (treed (entries [(0x61, 4)]) [.leaf 0x61#8 4#64])) 0x61#8 = [false] := by decide +kernel

/-- The codebook of `"ab"` over another input. -/
def coded (input : List Byte) : State :=
  { loaded input with cb := ((List.replicate 256 []).set 0x61 [false]).set 0x62 [true], cbV := true }

/-- L2.5: a stale codebook. -/
theorem test_code_stale :
    streamOf (run 0x004#64 (coded (bytes [0x62, 0x61]))) = [true, false] ∧
    (run 0x004#64 (coded (bytes [0x62, 0x61]))).bitLength = 2#64 := by decide +kernel

/-- L2.5: a symbol without a code. -/
theorem test_code_miss :
    (run 0x004#64 (coded (bytes [0x61, 0x62, 0x63]))).err = 0x04040602#64 ∧
    (run 0x004#64 (coded (bytes [0x61, 0x62, 0x63]))).errInfo = 2#64 := by decide +kernel

/-- A state with a stream and nothing else. -/
def streaming (bits : List Bool) : State :=
  { State.reset with bitbuf := bits, bitLength := BitVec.ofNat 64 bits.length, bitsV := true }

/-- L2.6, `"aabbbcccc"`: two bytes and padding. -/
theorem test_pack_two_bytes :
    payloadOf (run 0x005#64 (streaming
      [true, false, true, false, true, true, true, true, true, true, false, false, false, false])) =
      bytes [0xF5, 0x03] := by decide +kernel

/-- L2.6: no stream. -/
theorem test_pack_no_bits : (run 0x005#64 State.reset).err = 0x05050402#64 := by decide +kernel

/-- L2.6: the padding is not read. -/
theorem test_unpack_padding :
    streamOf (run 0x012#64 { State.reset with payload := bytes [0xFE], bitLength := 2#64, payloadV := true }) =
      [false, true] := by decide +kernel

/-- L2.6: no payload. -/
theorem test_unpack_no_payload : (run 0x012#64 State.reset).err = 0x12120502#64 := by decide +kernel

/-- A state with the list and the payload of `"ab"`. -/
def packed : State :=
  { listed (entries [(0x61, 1), (0x62, 1)]) with bitLength := 2#64, payload := bytes [2], payloadV := true }

/-- L2.7. -/
theorem test_serialize_ab :
    outBytes (run 0x006#64 packed) = abContainer ∧ (run 0x006#64 packed).hcWidth = 1#64 := by decide +kernel

/-- L2.8: a count of 65536 is written with width 4. -/
theorem test_serialize_width :
    (outBytes (run 0x006#64 { listed (entries [(0x61, 65536)]) with payloadV := true })).drop 16 =
      bytes [4, 0x61, 0, 1, 0, 0] := by decide +kernel

/-- L2.8: what PARSE writes for L1.3's container. -/
theorem test_parse_geeks :
    (run 0x011#64 (loaded geeksContainer)).slist = geeksList ∧
    payloadOf (run 0x011#64 (loaded geeksContainer)) = bytes [0xAE, 0x1D, 0x94, 0x6B, 0x07] ∧
    statusOf (run 0x011#64 (loaded geeksContainer)) = 0x1102 := by decide +kernel

/-- L2.8: an equal count and a lower symbol. -/
theorem test_parse_bad_order :
    (run 0x011#64 (loaded (bytes (header 2 2 1 ++ [0x62, 0x61, 1, 1, 2])))).err = 0x11110704#64 ∧
    (run 0x011#64 (loaded (bytes (header 2 2 1 ++ [0x62, 0x61, 1, 1, 2])))).errInfo = 1#64 := by decide +kernel

/-- The tree of `"ab"` and a stream. -/
def walking (bits : List Bool) : State :=
  { treed (entries [(0x61, 1), (0x62, 1)]) [.leaf 0x61#8 1#64, .leaf 0x62#8 1#64, .branch 0#9 1#9 2#64] with
    bitbuf := bits, bitLength := BitVec.ofNat 64 bits.length, bitsV := true }

/-- L2.5's stream of `"ba"`. -/
theorem test_walk_ba : outBytes (run 0x013#64 (walking [true, false])) = bytes [0x62, 0x61] := by decide +kernel

/-- L2.9: a 1 on a one-leaf tree. -/
theorem test_walk_no_child :
    (run 0x013#64 { treed (entries [(0x61, 1)]) [.leaf 0x61#8 1#64] with
      bitbuf := [false, true], bitLength := 2#64, bitsV := true }).err = 0x13130205#64 := by decide +kernel

/-- L1.3. -/
theorem test_encode_geeks :
    outBytes (run 0x020#64 (loaded geeks)) = geeksContainer ∧ statusOf (run 0x020#64 (loaded geeks)) = 0x1F02 := by
  decide +kernel

/-- L2.10: OUT_CAP = 35. -/
theorem test_encode_out :
    (run 0x020#64 (loadedIn 4096 35 65536 geeks)).err = 0x20060303#64 ∧
    (run 0x020#64 (loadedIn 4096 35 65536 geeks)).errInfo = 36#64 ∧
    statusOf (run 0x020#64 (loadedIn 4096 35 65536 geeks)) = 0x1F04 := by decide +kernel

/-- L1.4: the empty input. -/
theorem test_encodeH_empty : outBytes (run 0x120#64 (loaded [])) = bytes (header 0 0 1) := by decide +kernel

/-- L2.10: BITBUF_CAP = 10. -/
theorem test_encodeH_bitbuf :
    (run 0x120#64 (loadedIn 4096 8192 10 geeks)).err = 0x20040203#64 ∧
    statusOf (run 0x120#64 (loadedIn 4096 8192 10 geeks)) = 0x0704 := by decide +kernel

/-- L1.3. -/
theorem test_decode_geeks :
    outBytes (run 0x021#64 (loaded geeksContainer)) = geeks ∧ statusOf (run 0x021#64 (loaded geeksContainer)) = 0x1B02 := by
  decide +kernel

/-- L2.9: the stream ends inside a code. -/
theorem test_decode_incomplete :
    (run 0x021#64 (loaded (bytes (header 3 1 1 ++ [0x61, 0x62, 0x63, 1, 1, 1, 1, 0])))).err = 0x21130305#64 ∧
    statusOf (run 0x021#64 (loaded (bytes (header 3 1 1 ++ [0x61, 0x62, 0x63, 1, 1, 1, 1, 0])))) = 0x1B04 := by
  decide +kernel

/-- P2. -/
theorem test_decodeH_ab :
    outBytes (run 0x121#64 (loaded abContainer)) = ab ∧ (run 0x121#64 (loaded abContainer)).nodeCount = 3#64 := by
  decide +kernel

/-- L2.9: an absent tree and a stream. -/
theorem test_decodeH_no_tree :
    (run 0x121#64 (loaded (bytes (header 0 8 1 ++ [0xFF])))).err = 0x21130105#64 ∧
    (run 0x121#64 (loaded (bytes (header 0 8 1 ++ [0xFF])))).outLen = 0#64 := by decide +kernel

/-- The three integers of STATS. -/
def statsOf (s : State) : List Nat := [s.statOrig.toNat, s.statBits.toNat, s.statContainer.toNat]

/-- L2.12. -/
theorem test_stats_geeks :
    statsOf (run 0x022#64 (loaded geeks)) = [13, 35, 36] ∧ statusOf (run 0x022#64 (loaded geeks)) = 0x0702 := by
  decide +kernel

/-- L2.12. -/
theorem test_statsH_aaaa : statsOf (run 0x122#64 (loaded aaaa)) = [4, 4, 20] := by decide +kernel

/-- L2.12. -/
theorem test_statsC_geeks :
    statsOf (run 0x222#64 (loaded geeksContainer)) = [13, 35, 36] ∧
    statusOf (run 0x222#64 (loaded geeksContainer)) = 0x1702 := by decide +kernel

/-- L2.12's container whose stream would be longer than 64 bits can count. -/
def hugeContainer : List Byte :=
  bytes (header 3 0 8 ++ [0x61, 0x62, 0x63] ++ [0x40, 0, 0, 0, 0, 0, 0, 0] ++ [0x40, 0, 0, 0, 0, 0, 0, 0] ++
    [0x7F, 0xFF, 0xFF, 0xFF, 0xFF, 0xFF, 0xFF, 0xFF])

theorem test_statsHC_overflow :
    (run 0x322#64 (loaded hugeContainer)).err = 0x22220403#64 ∧
    statusOf (run 0x322#64 (loaded hugeContainer)) = 0x1704 ∧
    statsOf (run 0x322#64 (loaded hugeContainer)) = [0, 0, 0] := by decide +kernel

/-- L2.12, L2.8: `"ab"` at width 2. -/
theorem test_statsHC_ab :
    statsOf (run 0x322#64 (loaded (bytes (header 2 2 2 ++ [0x61, 0x62, 0, 1, 0, 1, 2])))) = [2, 2, 22] := by decide +kernel

/-! ### HOST accesses -/

/-- P6: the two windows on L1.3's stream. -/
theorem test_windows_geeks :
    reg 0x100 (run 0x021#64 (loaded geeksContainer)) = 0x000000076B941DAE ∧
    reg 0x110 (run 0x021#64 (loaded geeksContainer)) = 0x000000076B941DAE := by decide +kernel

/-- L2.3: NODE_INFO of the root. -/
theorem test_node_window :
    reg 0x0E8 { run 0x021#64 (loaded geeksContainer) with nsel := 12#9 } = 0x0000000B000A0001 ∧
    reg 0x0F0 { run 0x021#64 (loaded geeksContainer) with nsel := 12#9 } = 13 := by decide +kernel

/-- L2.4: the code 110 of k reads as 0x3. -/
theorem test_symbol_window :
    reg 0x0C0 { run 0x022#64 (loaded geeks) with ssel := 0x6B#8 } = 3 ∧
    reg 0x0B8 { run 0x022#64 (loaded geeks) with ssel := 0x6B#8 } = 3 := by decide +kernel

/-- L2.13. -/
theorem test_bus_errors :
    (hostRead 0x004#64 8 State.reset).1 = .busError ∧ (hostRead 0x028#64 4 State.reset).1 = .busError ∧
    (hostRead 0x1000#64 8 State.reset).1 = .busError ∧ (hostRead 0x1000000000001000#64 1 State.reset).1 = .busError ∧
    (hostWrite 0x2000000000000000#64 1 5#64 State.reset).1 = .busError ∧
    (hostRead 0xFF8#64 8 State.reset).1 = .word 0#64 := by decide +kernel

/-- L2.13. -/
theorem test_selector_widths :
    reg 0x090 (hostWrite 0x090#64 8 0x1234#64 State.reset).2 = 0x34 ∧
    reg 0x0E0 (hostWrite 0x0E0#64 8 0xFFFF#64 State.reset).2 = 0x1FF ∧
    reg 0x040 (hostWrite 0x040#64 8 0xFF#64 State.reset).2 = 0x3 := by decide +kernel

/-- L2.14: FREQ on `"ab"` with DONE_IE, then the acknowledgement. -/
theorem test_interrupt :
    statusOf (run 0x001#64 { loaded ab with doneIe := true }) = 0x0112 ∧
    statusOf (acknowledge (run 0x001#64 { loaded ab with doneIe := true })) = 0x0100 := by decide +kernel

/-! ### States that meet the hypotheses of the obligations

`inv_loadedIn` and `inv_run` give the invariant of a state that a loaded input and one command leave. -/

theorem exec_after (i : Instr) (s : State) : exec i s = .next (after (exec i s)) := by rw [exec_eq]; rfl

theorem step_after (s : State) : step s = .next (after (step s)) := by
  obtain ⟨t, h⟩ := step_next s; rw [h]; rfl

theorem engineStep_after (s : State) : engineStep s = .next (after (engineStep s)) := by
  obtain ⟨u, -, -, h | ⟨_, _, _, _, h⟩⟩ := engineStep_cases s <;> rw [h] <;> rfl

theorem inv_loadedIn {capIn capOut capBits : Nat} {input : List Byte}
    (h : 17 ≤ (BitVec.ofNat 64 capIn).toNat ∧ (BitVec.ofNat 64 capIn).toNat ≤ 2 ^ 56 ∧ 17 ≤ (BitVec.ofNat 64 capOut).toNat)
    (hl : input.length ≤ (BitVec.ofNat 64 capIn).toNat) : Inv (loadedIn capIn capOut capBits input) := by
  obtain ⟨d, c⟩ := inv_atReset (capBits := BitVec.ofNat 64 capBits) h.1 h.2.1 h.2.2 0
  refine ⟨?_, c.oneReport, c.busyClear, c.errLegal, c.errorErr, c.doneErr, c.sequencing, c.resetIdle⟩
  exact
    { caps := ⟨d.caps.inLow, d.caps.inHigh, d.caps.outLow⟩
      inWf := Memory.wf_writeAll List.Pairwise.nil 0 input
      inRange := fun x hx => by
        rcases Memory.mem_writeAll hx with hx | hx
        · exact lt_of_lt_of_le (by omega) hl
        · cases hx
      outWf := d.outWf, outRange := d.outRange, listLength := d.listLength, listShort := d.listShort
      storeLength := d.storeLength, list := d.list, tree := d.tree, codes := d.codes, fits := d.fits, packed := d.packed
      bitsWritten := d.bitsWritten, payloadWritten := d.payloadWritten, bitbufSize := d.bitbufSize
      payloadSize := d.payloadSize, outFits := d.outFits, width := d.width, drawn := d.drawn }

theorem inv_accept {s : State} (h : Inv s) (hb : s.busy = false) (hr : s.resetAsserted = false) (v : Word) :
    Inv (accept v s) := h.writeEffect hr (.accept hb v)

theorem inv_run {s : State} (h : Inv s) (hb : s.busy = false) (hr : s.resetAsserted = false) (v : Word) : Inv (run v s) :=
  (inv_accept h hb hr v).engineStep rfl (engineStep_after _)

theorem inv_select {s : State} (h : Inv s) (hr : s.resetAsserted = false) (l q : Byte) (n : BitVec 9) (b p : Word) :
    Inv { s with lsel := l, ssel := q, nsel := n, bsel := b, psel := p } := h.writeEffect hr (.selectors l q n b p)

/-- Idle, with an input. -/
def fresh : State := loaded ab
/-- Running ENCODE. -/
def running : State := accept 0x020#64 fresh
/-- After ENCODE of `"ab"`: every valid flag is 1. -/
def encoded : State := run 0x020#64 fresh
/-- After ENCODE of `"aaaa"`: one symbol. -/
def encodedOne : State := run 0x020#64 (loaded aaaa)
/-- After ENCODE of `"geeksforgeeks"`. -/
def encodedGeeks : State := run 0x020#64 (loaded geeks)
/-- After DECODE of `"ab"`'s container. -/
def decoded : State := run 0x021#64 (loaded abContainer)
/-- Reset is asserted, and a read is to come. -/
def held : State := hostStep { fresh with inputs := [.assertReset, .read 0x028#64 8] }

theorem inv_fresh : Inv fresh := inv_loadedIn (by decide) (by decide)
theorem inv_running : Inv running := inv_accept inv_fresh rfl rfl _
theorem inv_encoded : Inv encoded := inv_run inv_fresh rfl rfl _
theorem inv_encodedOne : Inv encodedOne := inv_run (inv_loadedIn (by decide) (by decide)) rfl rfl _
theorem inv_encodedGeeks : Inv encodedGeeks := inv_run (inv_loadedIn (by decide) (by decide)) rfl rfl _
theorem inv_decoded : Inv decoded := inv_run (inv_loadedIn (by decide) (by decide)) rfl rfl _
theorem inv_held : Inv held := (inv_fresh.inputs _).hostStep

theorem listOk_geeks : ListOk geeksList := ⟨by decide, by decide, by decide⟩
theorem listOk_nil : ListOk [] := ⟨by decide, by decide, by decide⟩

theorem witness_CommandWords : Instr.statsHC.alg = true ∧ Instr.statsHC.src = true := by decide

theorem witness_DecodeEncodeAgree : decode 0x322#64 = .command .statsHC := by decide

/-- The OPCODE values of 30_encoding.md R101. -/
def assigned : List Byte :=
  [0x01#8, 0x02#8, 0x03#8, 0x04#8, 0x05#8, 0x06#8, 0x11#8, 0x12#8, 0x13#8, 0x20#8, 0x21#8, 0x22#8]

/-- A reserved bit, or an ALG or SRC that is not legal (30_encoding.md R104). -/
abbrev badBits (v : Word) : Prop :=
  v.toNat / 2 ^ 10 ≠ 0 ∨ (v.getLsbD 8 = true ∧ v.extractLsb' 0 8 ∉ [0x02#8, 0x20#8, 0x21#8, 0x22#8]) ∨
    (v.getLsbD 9 = true ∧ v.extractLsb' 0 8 ≠ 0x22#8)

/-- Each class of words at the ends of its ranges. -/
theorem witness_CommandDecoding :
    [0x00#64, 0x07#64, 0x10#64, 0x14#64, 0x1F#64, 0x23#64, 0xFF#64].all (fun v =>
      engineMoves (accept v fresh) = true ∧ (accept v fresh).cmd.extractLsb' 0 8 ∉ assigned) = true ∧
    [0x101#64, 0x202#64, 0x422#64, 0x8000000000000022#64].all (fun v =>
      engineMoves (accept v fresh) = true ∧ (accept v fresh).cmd.extractLsb' 0 8 ∈ assigned ∧
        badBits (accept v fresh).cmd) = true ∧
    [0x001#64, 0x006#64, 0x011#64, 0x013#64, 0x020#64, 0x322#64].all (fun v =>
      engineMoves (accept v fresh) = true ∧ (accept v fresh).cmd.extractLsb' 0 8 ∈ assigned ∧
        ¬ badBits (accept v fresh).cmd) = true := by
  decide +kernel

theorem witness_StepRunsDecodedCommand :
    decode running.cmd = .command .encode ∧ running.busy = true ∧ running.inputs = [] ∧
    { running with inputs := [.wait] }.inputs = [.wait] ∧
    { running with inputs := [.read 0x028#64 8], engineDelay := 0 }.engineDelay = 0 := by decide +kernel

theorem witness_StepMakesHostAccess :
    engineMoves fresh = false ∧ fresh.resetAsserted = false ∧ fresh.inputs = [] ∧
    engineMoves { fresh with inputs := [.read 0x028#64 8] } = false ∧
    engineMoves { running with inputs := [.read 0x028#64 8], engineDelay := 1 } = false ∧
    engineMoves { running with inputs := [.write 0x028#64 8 8#64], engineDelay := 1 } = false ∧
    engineMoves { fresh with inputs := [.wait] } = false := by decide +kernel

theorem witness_PlacedWordRuns : decode (BitVec.ofNat 64 0x121) = .command .decodeH := by decide

theorem witness_AcceptedCommandsComplete :
    { running with inputs := [.read 0x028#64 8, .wait] }.busy = true ∧
    HostOp.assertReset ∉ { running with inputs := [.read 0x028#64 8, .wait] }.inputs := by decide +kernel

theorem witness_CmdRegister : fresh.busy = false ∧ running.busy = true := by decide

/-- OVERRUN set by a second CMD write, and cleared by a 1 and by reset. -/
theorem witness_OverrunIsSticky :
    (let s := { running with inputs := [.write 0x020#64 8 2#64], engineDelay := 1 };
      s.overrun = false ∧ (after (step s)).overrun = true) ∧
    (let s := { running with overrun := true, inputs := [.write 0x028#64 8 8#64], engineDelay := 1 };
      s.overrun = true ∧ (after (step s)).overrun = false) ∧
    (let s := { running with overrun := true, inputs := [.assertReset], engineDelay := 1 };
      s.overrun = true ∧ (after (step s)).overrun = false) := by decide +kernel

theorem witness_StatusFields : (Inv encoded ∧ encoded.busy = false) ∧ Inv running ∧ running.busy = true :=
  ⟨⟨inv_encoded, by decide +kernel⟩, inv_running, rfl⟩

theorem witness_InterruptLevel :
    fresh.busy = false ∧ irq { fresh with done := true, doneIe := true } = true ∧
    irq { fresh with error := true, errIe := true } = true := by decide

theorem witness_RegisterMap :
    0x118 ≤ (0x118#64).toNat ∧ (0x118#64).toNat ≤ 0xFF8 ∧ (0x118#64).toNat % 8 = 0 ∧ (0xFF8#64).toNat ≤ 0xFF8 ∧
    (0xFF8#64).toNat % 8 = 0 ∧ (0x110, Reg.payloadWord, true) ∈ registerTable ∧ fresh.busy = false ∧
    encoded.busy = false ∧ encoded.outLen = 22#64 := by decide +kernel

/-- Each clause at the ends of the windows: IN_CAP is 4096 and OUT_CAP is 8192. -/
theorem witness_BusErrors :
    CapsLegal fresh ∧ CapsLegal running ∧ badAccess fresh 0x1000#64 8 ∧ ¬ badAccess fresh 0xFF8#64 8 ∧
    badAccess fresh 0xFFC#64 8 ∧ badAccess fresh 0xFF8#64 1 ∧ badAccess fresh 0x1000000000000000#64 8 ∧
    ¬ badAccess fresh 0x1000000000000FFF#64 1 ∧ badAccess fresh 0x1000000000001000#64 1 ∧
    outWindow fresh 0x2000000000001FFF#64 ∧ badAccess fresh 0x2000000000002000#64 1 ∧
    running.busy = true ∧ inWindow running 0x1000000000000000#64 := by
  unfold badAccess outWindow inWindow
  refine ⟨inv_fresh.data.caps, inv_running.data.caps, ?_, ?_, ?_, ?_, ?_, ?_, ?_, ?_, ?_, ?_, ?_⟩ <;> decide +kernel

theorem witness_ReadsHaveNoEffect : fresh.busy = false := rfl

theorem witness_InMemAccess :
    CapsLegal fresh ∧ 0 < fresh.capIn.toNat ∧ 4095 < fresh.capIn.toNat ∧ fresh.busy = false ∧ Memory.wf fresh.inMem ∧
    CapsLegal running ∧ 4095 < running.capIn.toNat ∧ running.busy = true :=
  ⟨inv_fresh.data.caps, by decide, by decide, rfl, inv_fresh.data.inWf, inv_running.data.caps, by decide, rfl⟩

theorem witness_OutMemAccess :
    CapsLegal encoded ∧ encoded.busy = false ∧ 21 < encoded.capOut.toNat ∧ encoded.outMem.read 21 = some 2#8 ∧
    8191 < encoded.capOut.toNat ∧ 0x2000000000000000 + 8191 < 2 ^ 64 :=
  ⟨inv_encoded.data.caps, by decide +kernel⟩

theorem witness_BusyReads : Inv running ∧ running.busy = true ∧ 4095 < running.capIn.toNat :=
  ⟨inv_running, rfl, by decide⟩

theorem witness_BusyWritesRaceNothing :
    running.busy = true ∧ inWindow running 0x1000000000000FFF#64 ∧ (0x048#64).toNat = 0x048 := by
  unfold inWindow; decide +kernel

/-- LSEL at the last entry, and one past it. -/
theorem witness_ListWindow :
    (let s := { encoded with lsel := 1#8 };
      Inv s ∧ s.busy = false ∧ s.slistV = true ∧ s.lsel.toNat < s.symbolCount.toNat) ∧
    (let s := { encoded with lsel := 2#8 };
      Inv s ∧ s.busy = false ∧ ¬(s.slistV = true ∧ s.lsel.toNat < s.symbolCount.toNat)) :=
  ⟨⟨inv_select inv_encoded (by decide +kernel) .., by decide +kernel⟩,
    inv_select inv_encoded (by decide +kernel) .., by decide +kernel⟩

theorem witness_SymbolWindow :
    (Inv encoded ∧ encoded.busy = false ∧ encoded.slistV = true ∧ encoded.cbV = true) ∧
    Inv fresh ∧ fresh.busy = false ∧ fresh.slistV = false ∧ fresh.cbV = false :=
  ⟨⟨inv_encoded, by decide +kernel⟩, inv_fresh, by decide⟩

/-- NSEL at a leaf, at the root, and one past it. -/
theorem witness_NodeWindow :
    (let s := { encodedGeeks with nsel := 6#9 };
      Inv s ∧ s.busy = false ∧ s.treeV = true ∧ s.nsel.toNat < s.nodeCount.toNat) ∧
    (let s := { encodedGeeks with nsel := 12#9 };
      Inv s ∧ s.busy = false ∧ s.treeV = true ∧ s.nsel.toNat < s.nodeCount.toNat) ∧
    (let s := { encodedGeeks with nsel := 13#9 };
      Inv s ∧ s.busy = false ∧ ¬(s.treeV = true ∧ s.nsel.toNat < s.nodeCount.toNat)) :=
  ⟨⟨inv_select inv_encodedGeeks (by decide +kernel) .., by decide +kernel⟩,
    ⟨inv_select inv_encodedGeeks (by decide +kernel) .., by decide +kernel⟩,
    inv_select inv_encodedGeeks (by decide +kernel) .., by decide +kernel⟩

/-- Stream bit 63 of word 0 is in range of neither window position but bit 34 is: B = 35. -/
theorem witness_StreamWindows :
    encodedGeeks.busy = false ∧ encodedGeeks.bitsV = true ∧ 64 * encodedGeeks.bsel.toNat + 34 < encodedGeeks.bitLength.toNat ∧
    ¬ 64 * encodedGeeks.bsel.toNat + 35 < encodedGeeks.bitLength.toNat ∧ encodedGeeks.payloadV = true ∧
    8 * encodedGeeks.psel.toNat + 4 < ceil8 encodedGeeks.bitLength.toNat ∧
    ¬ 8 * encodedGeeks.psel.toNat + 5 < ceil8 encodedGeeks.bitLength.toNat := by decide +kernel

theorem witness_ResetValues :
    (let s := { held with inputs := [.releaseReset] };
      s.busy = false ∧ s.resetAsserted = true ∧ s.inputs = [.releaseReset]) := by decide

theorem witness_ResetAbandons : { running with inputs := [.assertReset] }.inputs = .assertReset :: [] := rfl

theorem witness_ResetTakesNoAccess :
    Inv held ∧ held.resetAsserted = true ∧ held.inputs = [.read 0x028#64 8] ∧
    HostOp.read 0x028#64 8 ≠ .assertReset ∧ HostOp.read 0x028#64 8 ≠ .releaseReset :=
  ⟨inv_held, by decide⟩

/-- IN_LEN = IN_CAP, and one more. -/
theorem witness_FreqCountsTheInput :
    (let s := { loadedIn 17 17 16 [] with inLen := 18#64 }; s.capIn.toNat < s.inLen.toNat) ∧
    (let s := loadedIn 17 17 16 (bytes (List.range 17)); s.inLen.toNat ≤ s.capIn.toNat) := by decide

theorem witness_FreqProperties :
    (loaded aab).inLen.toNat ≤ (loaded aab).capIn.toNat ∧
    exec .freq (loaded aab) = .next (after (exec .freq (loaded aab))) ∧
    (let s' := loaded (bytes [0x62, 0x61, 0x61]);
      s'.inLen.toNat ≤ s'.capIn.toNat ∧ (inBytes s').Perm (inBytes (loaded aab)) ∧
        exec .freq s' = .next (after (exec .freq s'))) :=
  ⟨by decide, exec_after .., by decide, by decide +kernel, exec_after ..⟩

theorem witness_BuildWritesTheTree :
    fresh.slistV = false ∧ (listed geeksList).slistV = true ∧ ListOk (listed geeksList).slist ∧
    (listed []).slistV = true ∧ ListOk (listed []).slist :=
  ⟨rfl, rfl, listOk_geeks, rfl, listOk_nil⟩

theorem witness_MergeTakesTheTwoLeast :
    ListOk geeksList ∧ geeksList.length ≤ 256 ∧ geeksList ≠ [] ∧ 5 + 1 < geeksList.length ∧ ListOk [] :=
  ⟨listOk_geeks, by decide, by decide, by decide, listOk_nil⟩

theorem witness_VariantsAgree : ListOk geeksList ∧ Inv encodedGeeks ∧ encodedGeeks.slistV = true :=
  ⟨listOk_geeks, inv_encodedGeeks, by decide +kernel⟩

theorem witness_CodebookFollowsTheTree :
    fresh.treeV = false ∧ (Inv encodedOne ∧ encodedOne.treeV = true ∧ encodedOne.slist.length = 1) ∧
    Inv encoded ∧ encoded.treeV = true ∧ 2 ≤ encoded.slist.length :=
  ⟨rfl, ⟨inv_encodedOne, by decide +kernel⟩, inv_encoded, by decide +kernel⟩

theorem witness_CodeLengths :
    (Inv encoded ∧ encoded.cbV = true ∧ 2 ≤ encoded.symbolCount.toNat ∧ ∀ e ∈ encoded.slist, e.sym ≠ 0x63#8) ∧
    Inv encodedOne ∧ encodedOne.cbV = true ∧ encodedOne.symbolCount.toNat = 1 :=
  ⟨⟨inv_encoded, by decide +kernel⟩, inv_encodedOne, by decide +kernel⟩

theorem witness_PrefixFree :
    Inv encoded ∧ encoded.cbV = true ∧ 2 ≤ encoded.symbolCount.toNat ∧ 0x61#8 ≠ 0x62#8 ∧
    0 < (codeIn encoded.cb 0x61#8).length ∧ 0 < (codeIn encoded.cb 0x62#8).length :=
  ⟨inv_encoded, by decide +kernel⟩

/-- Another prefix-free code for a and b. -/
theorem witness_CodebookIsOptimal :
    Inv encoded ∧ encoded.cbV = true ∧ 2 ≤ encoded.symbolCount.toNat ∧
    (let code := fun b : Byte => if b = 0x61#8 then [true] else [false, false];
      ∀ e ∈ encoded.slist, ∀ f ∈ encoded.slist, e.sym ≠ f.sym → ¬ code e.sym <+: code f.sym) :=
  ⟨inv_encoded, by decide +kernel⟩

/-- BITBUF_CAP equal to the stream's length, and one less. -/
theorem witness_CodeWritesTheStream :
    fresh.cbV = false ∧
    (let s := { coded ab with inLen := 4097#64 }; s.cbV = true ∧ s.capIn.toNat < s.inLen.toNat) ∧
    (let s := coded (bytes [0x61, 0x62, 0x63]);
      s.cbV = true ∧ s.inLen.toNat ≤ s.capIn.toNat ∧ 2 < s.inLen.toNat ∧ codeOf s (readIn s 2) = [] ∧
        ∀ x < 2, codeOf s (readIn s x) ≠ []) ∧
    (let s := { coded ab with capBits := 1#64 };
      s.cbV = true ∧ s.inLen.toNat ≤ s.capIn.toNat ∧ (∀ a < s.inLen.toNat, codeOf s (readIn s a) ≠ []) ∧
        s.capBits.toNat < ((inBytes s).flatMap (codeOf s)).length) ∧
    (let s := { coded ab with capBits := 2#64 };
      s.cbV = true ∧ s.inLen.toNat ≤ s.capIn.toNat ∧ (∀ a < s.inLen.toNat, codeOf s (readIn s a) ≠ []) ∧
        ((inBytes s).flatMap (codeOf s)).length ≤ s.capBits.toNat) := by decide +kernel

theorem witness_StreamLength :
    (Inv encoded ∧ encoded.cbV = true ∧ encoded.slist = freqList (inBytes encoded)) ∧
    Inv encodedOne ∧ encodedOne.cbV = true ∧ encodedOne.slist = freqList (inBytes encodedOne) ∧
    encodedOne.symbolCount.toNat = 1 :=
  ⟨⟨inv_encoded, by decide +kernel⟩, inv_encodedOne, by decide +kernel⟩

theorem witness_PackWritesThePayload :
    fresh.bitsV = false ∧ encoded.bitsV = true ∧ 0 < ceil8 encoded.bitLength.toNat ∧
    8 * 0 + 1 < encoded.bitLength.toNat ∧ ¬ 8 * 0 + 2 < encoded.bitLength.toNat := by decide +kernel

theorem witness_UnpackWritesTheStream :
    fresh.payloadV = false ∧ decoded.payloadV = true ∧ 1 < decoded.bitLength.toNat := by decide +kernel

theorem witness_PackUnpackLaws :
    ([0x02#8] : List Byte).length = ceil8 2 ∧
    ∀ k < ([0x02#8] : List Byte).length, ∀ q < 8, 2 ≤ 8 * k + q → (([0x02#8] : List Byte).getD k 0#8).getLsbD q = false := by
  decide

/-- OUT_CAP equal to the container's length 22, and one less. -/
theorem witness_SerializeWritesTheContainer :
    fresh.slistV = false ∧ ((listed geeksList).slistV = true ∧ (listed geeksList).payloadV = false) ∧
    (let s := { packed with capOut := 21#64 };
      s.slistV = true ∧ s.payloadV = true ∧
        s.capOut.toNat < 17 + s.slist.length + s.slist.length * minWidth (maxCount s.slist) + ceil8 s.bitLength.toNat) ∧
    (let s := { packed with capOut := 22#64 };
      s.slistV = true ∧ s.payloadV = true ∧
        17 + s.slist.length + s.slist.length * minWidth (maxCount s.slist) + ceil8 s.bitLength.toNat ≤ s.capOut.toNat) := by
  decide +kernel

/-- The ends of each width's range, a list's largest count, and the first and last byte of an integer. -/
theorem witness_WidthBoundaries :
    (255 ≤ 255 ∧ 256 ≤ 256 ∧ 256 ≤ 65535 ∧ 65535 ≤ 65535 ∧ 65536 ≤ 65536 ∧ 65536 ≤ 4294967295 ∧ 4294967296 ≤ 4294967296) ∧
    { sym := 0x61#8, cnt := 65535#64 } ∈ entries [(0x61, 65535)] ∧
    (bigEndian 8 0x0102030405060708)[0]? = some 0x01#8 ∧ (bigEndian 8 0x0102030405060708)[7]? = some 0x08#8 := by decide

/-- The fields of a container in IN_MEM, as PARSE's statement names them. -/
def fieldN (s : State) : Nat := unBigEndian (bytesAt (readIn s) 0 8)
def fieldB (s : State) : Nat := unBigEndian (bytesAt (readIn s) 8 8)
def fieldW (s : State) : Nat := (readIn s 16).toNat
def symAt (s : State) (i : Nat) : Byte := readIn s (17 + i)
def cntAt (s : State) (i : Nat) : Nat := unBigEndian (bytesAt (readIn s) (17 + fieldN s + i * fieldW s) (fieldW s))
def sectionEnd (s : State) : Nat := 17 + fieldN s + fieldN s * fieldW s
def payloadEnd (s : State) : Nat := sectionEnd s + ceil8 (fieldB s)
def duplicate (s : State) (i : Nat) : Prop := ∃ j < i, symAt s j = symAt s i
def ordered (s : State) (i : Nat) : Prop :=
  cntAt s (i - 1) < cntAt s i ∨ (cntAt s (i - 1) = cntAt s i ∧ (symAt s (i - 1)).toNat < (symAt s i).toNat)
def goodEntry (s : State) (i : Nat) : Prop := ¬duplicate s i ∧ (i = 0 ∨ ordered s i)
def sumOf (s : State) : Nat := ((List.range (fieldN s)).map (cntAt s)).sum

/-- IN_LEN at its bounds, and the first three checks of the header. -/
theorem witness_ParseHeader :
    (let s := { loaded [] with inLen := 4097#64 }; s.capIn.toNat < s.inLen.toNat) ∧
    (let s := loaded (bytes (List.replicate 16 0)); s.inLen.toNat ≤ s.capIn.toNat ∧ s.inLen.toNat < 17) ∧
    (let s := loaded (bytes (header 0 0 3)); s.inLen.toNat ≤ s.capIn.toNat ∧ 17 ≤ s.inLen.toNat ∧ fieldW s ∉ [1, 2, 4, 8]) ∧
    (let s := loaded (bytes (header 257 0 1));
      s.inLen.toNat ≤ s.capIn.toNat ∧ 17 ≤ s.inLen.toNat ∧ fieldW s ∈ [1, 2, 4, 8] ∧ 256 < fieldN s) := by decide +kernel

/-- The sections one byte short: n = 256 is allowed. -/
theorem witness_ParseSections :
    (let s := loaded (bytes (header 256 0 1));
      17 ≤ s.inLen.toNat ∧ fieldW s ∈ [1, 2, 4, 8] ∧ fieldN s ≤ 256 ∧ s.inLen.toNat < sectionEnd s) ∧
    (let s := loaded (bytes (header 2 2 1 ++ [0x61, 0x62, 1]));
      fieldN s ≤ 256 ∧ s.inLen.toNat + 1 = sectionEnd s) ∧
    (let s := loaded (bytes (header 2 2 1 ++ [0x61, 0x62, 1, 1]));
      fieldN s ≤ 256 ∧ sectionEnd s ≤ s.inLen.toNat ∧ s.inLen.toNat + 1 = payloadEnd s) := by decide +kernel

/-- The two tests of an entry: a duplicate that is also out of order, and an entry that is only out of order. -/
theorem witness_ParseEntries :
    (let s := loaded (bytes (header 2 2 1 ++ [0x61, 0x61, 1, 1, 2]));
      payloadEnd s ≤ s.inLen.toNat ∧ 1 < fieldN s ∧ (∀ j < 1, goodEntry s j) ∧ duplicate s 1) ∧
    (let s := loaded (bytes (header 2 2 1 ++ [0x62, 0x61, 1, 1, 2]));
      payloadEnd s ≤ s.inLen.toNat ∧ 1 < fieldN s ∧ (∀ j < 1, goodEntry s j) ∧ ¬duplicate s 1 ∧ 1 ≠ 0 ∧ ¬ordered s 1) := by
  unfold goodEntry ordered duplicate; decide +kernel

/-- The last two checks, the second at BITBUF_CAP, and a container that passes. -/
theorem witness_ParseChecksAndWrites :
    (let s := loaded (bytes (header 2 2 8 ++ [0x61, 0x62, 0x80, 0, 0, 0, 0, 0, 0, 0, 0x80, 0, 0, 0, 0, 0, 0, 0, 2]));
      payloadEnd s ≤ s.inLen.toNat ∧ (∀ i < fieldN s, goodEntry s i) ∧ 2 ^ 64 ≤ sumOf s) ∧
    (let s := loadedIn 4096 8192 1 abContainer;
      payloadEnd s ≤ s.inLen.toNat ∧ (∀ i < fieldN s, goodEntry s i) ∧ sumOf s < 2 ^ 64 ∧ s.capBits.toNat < fieldB s) ∧
    (let s := loadedIn 4096 8192 2 abContainer;
      s.inLen.toNat ≤ s.capIn.toNat ∧ 17 ≤ s.inLen.toNat ∧ fieldW s ∈ [1, 2, 4, 8] ∧ fieldN s ≤ 256 ∧
        sectionEnd s ≤ s.inLen.toNat ∧ payloadEnd s ≤ s.inLen.toNat ∧ (∀ i < fieldN s, goodEntry s i) ∧
        sumOf s < 2 ^ 64 ∧ fieldB s ≤ s.capBits.toNat) := by
  unfold goodEntry ordered duplicate; decide +kernel

/-- The stage ran to its end. -/
def ranOk : StageOut → Bool
  | .ok _ => true
  | .fail _ _ => false

theorem ok_of_ranOk {o : StageOut} (h : ranOk o = true) : o = .ok o.state := by
  cases o with
  | ok t => rfl
  | fail r t => cases h

/-- The container of "ab" with counts of two bytes and a trailing byte: what SERIALIZE writes is shorter. -/
def wideContainer : List Byte := bytes (header 2 2 2 ++ [0x61, 0x62, 0, 1, 0, 1, 2, 0xFF])

/-- The second clause at OUT_CAP equal to the length of the container at the minimal width. -/
theorem witness_ParseInvertsSerialize :
    (Inv encoded ∧ encoded.slistV = true ∧ encoded.payloadV = true ∧
      serializeStage encoded = .ok (serializeStage encoded).state ∧
      (let t := (serializeStage encoded).state;
       let u := loaded abContainer;
       u.inLen = t.outLen ∧ u.inLen.toNat ≤ u.capIn.toNat ∧ encoded.bitLength.toNat ≤ u.capBits.toNat ∧
        t.outLen.toNat ≤ u.capOut.toNat ∧ ∀ a < t.outLen.toNat, readIn u a = readOut t a)) ∧
    (let u := loadedIn 4096 22 65536 wideContainer;
     let v := after (exec .parse u);
     u.done = false ∧ exec .parse u = .next v ∧ v.done = true ∧
      17 + fieldN u + fieldN u * 1 + ceil8 (fieldB u) = 22 ∧ 22 ≤ u.capOut.toNat) :=
  ⟨⟨inv_encoded, by decide +kernel, by decide +kernel, ok_of_ranOk (by decide +kernel), by decide +kernel⟩,
    rfl, exec_after .., by decide +kernel, by decide +kernel, by decide +kernel⟩

/-- The codes of a state's tree. -/
def treeCode (s : State) (b : Byte) : List Bool := codeIn (codebookOf s.nodes s.nodeCount.toNat) b

/-- After PARSE, BUILD and UNPACK of a container, whose walk fails: the tree and the stream stand. -/
def unwalked (capOut : Nat) (container : List Byte) : State := run 0x021#64 (loadedIn 4096 capOut 65536 container)

/-- L2.9's container whose stream ends inside a code. -/
def cutContainer : List Byte := bytes (header 3 1 1 ++ [0x61, 0x62, 0x63, 1, 1, 1, 1, 0])

/-- L2.9's container whose stream has a 1 on a one-leaf tree. -/
def oneLeafContainer : List Byte := bytes (header 1 2 1 ++ [0x61, 1, 2])

/-- 18 symbols of one code bit each. -/
def longContainer : List Byte := bytes (header 1 18 1 ++ [0x61, 18, 0, 0, 0])

theorem witness_WalkDecodesTheStream :
    fresh.treeV = false ∧ ((treed geeksList geeksNodes).treeV = true ∧ (treed geeksList geeksNodes).bitsV = false) ∧
    (let s := run 0x021#64 (loaded (bytes (header 0 0 1)));
      s.treeV = true ∧ s.bitsV = true ∧ s.nodeCount = 0#64 ∧ s.bitLength = 0#64) ∧
    (let s := run 0x021#64 (loaded (bytes (header 0 8 1 ++ [0xFF])));
      s.treeV = true ∧ s.bitsV = true ∧ s.nodeCount = 0#64 ∧ s.bitLength ≠ 0#64) ∧
    (Inv decoded ∧ decoded.treeV = true ∧ decoded.bitsV = true ∧ decoded.nodeCount ≠ 0#64 ∧
      (∀ c ∈ ab, treeCode decoded c ≠ []) ∧ streamOf decoded = ab.flatMap (treeCode decoded) ∧
      ab.length ≤ decoded.capOut.toNat) :=
  ⟨by decide +kernel, by decide +kernel, by decide +kernel, by decide +kernel, inv_decoded, by decide +kernel⟩

theorem witness_WalkErrors :
    (let s := unwalked 8192 cutContainer;
      Inv s ∧ s.treeV = true ∧ s.bitsV = true ∧ s.nodeCount ≠ 0#64 ∧ ([true] : List Bool) ≠ [] ∧
        [true] <+: treeCode s 0x61#8 ∧ [true] ≠ treeCode s 0x61#8 ∧ streamOf s = [] ++ [true]) ∧
    (let s := unwalked 8192 oneLeafContainer;
      Inv s ∧ s.treeV = true ∧ s.bitsV = true ∧ s.nodeCount ≠ 0#64 ∧ treeCode s 0x61#8 ≠ [] ∧ s.symbolCount.toNat = 1 ∧
        1 ≤ s.capOut.toNat ∧ streamOf s = [0x61#8].flatMap (treeCode s) ++ true :: []) ∧
    (let s := unwalked 17 longContainer;
     let syms := List.replicate 18 0x61#8;
      Inv s ∧ s.treeV = true ∧ s.bitsV = true ∧ s.nodeCount ≠ 0#64 ∧ (∀ x ∈ syms, treeCode s x ≠ []) ∧
        syms.length = s.capOut.toNat + 1 ∧ streamOf s = syms.flatMap (treeCode s) ++ []) :=
  ⟨⟨inv_run (inv_loadedIn (by decide) (by decide)) rfl rfl _, by decide +kernel⟩,
    ⟨inv_run (inv_loadedIn (by decide) (by decide)) rfl rfl _, by decide +kernel⟩,
    inv_run (inv_loadedIn (by decide) (by decide)) rfl rfl _, by decide +kernel⟩

/-- The lengths that ENCODE's statement compares. -/
def streamLen (s : State) : Nat := ((inBytes s).flatMap (codeIn (codebookFor (freqList (inBytes s))))).length
def containerLen (s : State) : Nat :=
  17 + (freqList (inBytes s)).length + (freqList (inBytes s)).length * minWidth (maxCount (freqList (inBytes s))) +
    ceil8 (streamLen s)

/-- IN_LEN, BITBUF_CAP and OUT_CAP at their limits: L1.3's stream has 35 bits and its container 36 bytes. -/
theorem witness_EncodeRunsItsStages :
    (let s := { loaded geeks with inLen := 4097#64 }; s.capIn.toNat < s.inLen.toNat) ∧
    (let s := loadedIn 4096 36 34 geeks; s.inLen.toNat ≤ s.capIn.toNat ∧ s.capBits.toNat < streamLen s) ∧
    (let s := loadedIn 4096 35 35 geeks;
      s.inLen.toNat ≤ s.capIn.toNat ∧ streamLen s ≤ s.capBits.toNat ∧ s.capOut.toNat < containerLen s) ∧
    (let s := loadedIn 4096 36 35 geeks;
      s.inLen.toNat ≤ s.capIn.toNat ∧ streamLen s ≤ s.capBits.toNat ∧ containerLen s ≤ s.capOut.toNat) := by
  decide +kernel

/-- PARSE's result on a state. -/
def parsed (s : State) : ParseOut := parseContainer (readIn s) s.inLen.toNat s.capIn.toNat s.capBits.toNat

/-- The walk of DECODE over a container's contents. -/
def walked (p : Parsed) (cap : Nat) : WalkOut :=
  walkBits (buildTree p.entries) (nodesFor p.entries.length - 1) cap 0 (unpack p.payload p.bits)
    ⟨nodesFor p.entries.length - 1, 0, []⟩

/-- What `"ab"`'s container holds. -/
def abParsed : Parsed := { width := 1, bits := 2, entries := entries [(0x61, 1), (0x62, 1)], payload := [2#8] }

/-- What L2.9's two containers hold. -/
def cutParsed : Parsed := { width := 1, bits := 1, entries := entries [(0x61, 1), (0x62, 1), (0x63, 1)], payload := [1#8] }
def oneLeafParsed : Parsed := { width := 1, bits := 2, entries := entries [(0x61, 1)], payload := [2#8] }

theorem witness_DecodeRunsItsStages :
    parsed (loaded (bytes (header 0 0 3))) = .fail { cause := .badWidth, info := 3 } ∧
    parsed (loaded (bytes (header 0 0 1))) = .ok { width := 1, bits := 0, entries := [], payload := [] } ∧
    parsed (loaded (bytes (header 0 8 1 ++ [0xFF]))) = .ok { width := 1, bits := 8, entries := [], payload := [0xFF#8] } ∧
    (parsed (loaded oneLeafContainer) = .ok oneLeafParsed ∧ oneLeafParsed.entries ≠ [] ∧
      walked oneLeafParsed 8192 = .fail { cause := .noChild, info := 1 }) ∧
    (parsed (loaded cutContainer) = .ok cutParsed ∧ walked cutParsed 8192 = .ok ⟨3, 0, []⟩ ∧ 3 ≠ nodesFor 3 - 1) ∧
    (parsed (loaded abContainer) = .ok abParsed ∧ walked abParsed 8192 = .ok ⟨2, 2, [(0, 0x61#8), (1, 0x62#8)]⟩ ∧
      2 = nodesFor 2 - 1) := by decide +kernel

theorem witness_StatsOfBytes :
    (let s := { loaded geeks with inLen := 4097#64 }; CapsLegal s ∧ s.capIn.toNat < s.inLen.toNat) ∧
    CapsLegal (loaded geeks) ∧ (loaded geeks).inLen.toNat ≤ (loaded geeks).capIn.toNat :=
  ⟨⟨⟨by decide, by decide, by decide⟩, by decide⟩, ⟨by decide, by decide, by decide⟩, by decide⟩

/-- What L2.12's overflowing container holds. -/
def hugeParsed : Parsed :=
  { width := 8, bits := 0, payload := []
    entries := entries [(0x61, 2 ^ 62), (0x62, 2 ^ 62), (0x63, 2 ^ 63 - 1)] }

/-- STAT_BITS, exact, of a container's contents. -/
def statBitsFor (p : Parsed) : Nat :=
  (p.entries.map fun e => e.cnt.toNat * (codeIn (codebookFor p.entries) e.sym).length).sum

theorem witness_StatsOfContainer :
    parsed (loaded []) = .fail { cause := .headerTruncated, info := 0 } ∧
    (parsed (loaded hugeContainer) = .ok hugeParsed ∧ 2 ^ 64 ≤ statBitsFor hugeParsed) ∧
    parsed (loaded abContainer) = .ok abParsed ∧ statBitsFor abParsed < 2 ^ 64 ∧
    17 + abParsed.entries.length + abParsed.entries.length * minWidth (maxCount abParsed.entries) +
      ceil8 (statBitsFor abParsed) < 2 ^ 64 := by decide +kernel

theorem witness_RoundTrip :
    (let s := loaded ab;
     let t := after (exec .encode s);
     let u := loadedIn 22 17 2 abContainer;
      s.done = false ∧ exec .encode s = .next t ∧ t.done = true ∧ u.inLen = t.outLen ∧
        (∀ a < t.outLen.toNat, readIn u a = readOut t a) ∧ u.inLen.toNat ≤ u.capIn.toNat ∧
        t.bitLength.toNat ≤ u.capBits.toNat ∧ s.inLen.toNat ≤ u.capOut.toNat) :=
  ⟨rfl, exec_after .., by decide +kernel⟩

theorem witness_AlgHasNoEffect : ListOk (listed geeksList).slist := listOk_geeks

/-- The second state has run ENCODE before, and was acknowledged. -/
theorem witness_EncodeIsAFunctionOfItsInput :
    (let s := loaded ab;
     let u := acknowledge encoded;
      inBytes u = inBytes s ∧ u.capIn = s.capIn ∧ u.capOut = s.capOut ∧ u.capBits = s.capBits ∧ s.done = false ∧
        s.error = false ∧ u.done = false ∧ u.error = false ∧ s.err = 0#64 ∧ u.err = 0#64 ∧ s.errInfo = 0#64 ∧
        u.errInfo = 0#64 ∧ (after (exec .encode s)).done = true) ∧
    exec .encode (loaded ab) = .next (after (exec .encode (loaded ab))) ∧
    exec .encode (acknowledge encoded) = .next (after (exec .encode (acknowledge encoded))) :=
  ⟨by decide +kernel, exec_after .., exec_after ..⟩

theorem witness_SelectorsHaveNoEffect : exec .encode fresh = .next (after (exec .encode fresh)) := exec_after ..

theorem witness_NoCommandWritesItsInputs : exec .encode fresh = .next (after (exec .encode fresh)) := exec_after ..

theorem witness_ResultWriters :
    exec .pack fresh = .next (after (exec .pack fresh)) ∧
    Instr.pack ∉ [Instr.serialize, .walk, .encode, .encodeH, .decode, .decodeH] ∧
    exec .walk fresh = .next (after (exec .walk fresh)) ∧
    Instr.walk ∉ [Instr.pack, .parse, .encode, .encodeH, .decode, .decodeH, .statsC, .statsHC] :=
  ⟨exec_after .., by decide, exec_after .., by decide⟩

/-- A stage that fails, a walk that fails, and a command that completes. -/
theorem witness_FailureFrame :
    (fresh.done = false ∧ fresh.error = false ∧ exec .pack fresh = .next (after (exec .pack fresh)) ∧
      (after (exec .pack fresh)).error = true) ∧
    (let s := acknowledge (unwalked 8192 cutContainer);
      s.done = false ∧ s.error = false ∧ exec .walk s = .next (after (exec .walk s)) ∧
        (after (exec .walk s)).error = true) ∧
    (exec .freq fresh = .next (after (exec .freq fresh)) ∧ (after (exec .freq fresh)).error = false) :=
  ⟨⟨by decide, by decide, exec_after .., by decide +kernel⟩,
    ⟨by decide +kernel, by decide +kernel, exec_after .., by decide +kernel⟩, exec_after .., by decide +kernel⟩

theorem witness_RunningCommandIsUndisturbed :
    (let s := { running with inputs := [.write 0x020#64 8 2#64], engineDelay := 1 };
      s.busy = true ∧ step s = .next (after (step s)) ∧ (after (step s)).busy = true) :=
  ⟨rfl, step_after _, by decide +kernel⟩

theorem witness_InvariantHoldsAtReset :
    17 ≤ (17#64).toNat ∧ (17#64).toNat ≤ 2 ^ 56 ∧ (0x100000000000000#64).toNat ≤ 2 ^ 56 := by decide

theorem witness_EveryStepKeepsTheInvariant : Inv running ∧ step running = .next (after (step running)) :=
  ⟨inv_running, step_after _⟩

end Sys2Proof.Tests
end

section
/-! PROOFS. The statements of 10_state.md: the invariant, the registers and windows, the state after reset, and what the
commands leave unchanged. -/

namespace Sys2Proof.Machine

/-! ### The invariant (10_state.md R39) -/

/-- Settles O59: the ENGINE's move and HOST's move each keep the invariant. -/
theorem everyStepKeepsTheInvariant : Obligations.EveryStepKeepsTheInvariant := by
  unfold Obligations.EveryStepKeepsTheInvariant
  intro s t hi h
  cases hm : engineMoves s with
  | true =>
    rw [step_engine hm] at h
    exact hi.engineStep (engineMoves_busy hm) h
  | false =>
    rw [step_host hm] at h
    obtain rfl := Host.Outcome.next.inj h
    exact hi.hostStep

/-- Settles O58: `State.reset` is the state after reset with the default capacities, which are legal. -/
theorem invariantHoldsAtReset : Obligations.InvariantHoldsAtReset := by
  unfold Obligations.InvariantHoldsAtReset
  refine ⟨?_, fun _ _ _ k hlow hhigh hout => inv_atReset hlow hhigh hout k⟩
  exact inv_atReset (by decide) (by decide) (by decide) 0

/-! ### Accesses to the registers (10_state.md R22) -/

/-- A register's offset lies in the REG window. -/
theorem target_regAt {n : Nat} {r : Reg} (h : regAt n = some r) (h8 : n % 8 = 0) (s : State) :
    target s (BitVec.ofNat 64 n) 8 = .reg (some r) := by
  have hlt : n / 8 < regMap.length := (List.getElem?_eq_some_iff.mp h).1
  have hlen : regMap.length = 35 := rfl
  have hn : (BitVec.ofNat 64 n).toNat = n := by
    rw [BitVec.toNat_ofNat, Nat.mod_eq_of_lt]; omega
  rw [target_reg (by omega) (by omega), hn, h]

theorem hostRead_register {n : Nat} {r : Reg} (h : regAt n = some r) (h8 : n % 8 = 0) (s : State) :
    hostRead (BitVec.ofNat 64 n) 8 s = (.word (readReg r s).1, (readReg r s).2) := by
  simp only [hostRead, target_regAt h h8]

theorem hostWrite_register {n : Nat} {r : Reg} {v : Word} {s t : State} (h : regAt n = some r) (h8 : n % 8 = 0)
    (hw : writeReg r v s = some t) : hostWrite (BitVec.ofNat 64 n) 8 v s = (.written, t) := by
  simp only [hostWrite, target_regAt h h8, hw]

/-- With BUSY = 0 a read of a register gives its value and changes nothing. -/
theorem hostRead_idle {n : Nat} {r : Reg} {s : State} (hb : s.busy = false) (h : regAt n = some r) (h8 : n % 8 = 0) :
    hostRead (BitVec.ofNat 64 n) 8 s = (.word (regValue r s), s) := by
  rw [hostRead_register h h8, readReg_idle hb]

/-- A register that the ENGINE does not write reads the same whether a command runs or not. -/
theorem readReg_undrawn {r : Reg} (h : r ≠ .status) (hd : r.drawnWhileBusy = false) (s : State) :
    readReg r s = (regValue r s, s) := by
  simp [readReg, h, hd]

/-! ### The register map (10_state.md R22, R27) -/

theorem regAt_registerTable : ∀ p ∈ registerTable, regAt p.1 = some p.2.1 ∧ p.1 % 8 = 0 := by decide

theorem regAt_reserved {n : Nat} (h : 0x118 ≤ n) : regAt n = none :=
  List.getElem?_eq_none (by show 35 ≤ n / 8; omega)

/-- A write to a register that the table calls read-only is ignored. -/
theorem writeReg_readOnly :
    ∀ p ∈ registerTable, p.2.2 = true → ∀ (v : Word) (s : State), writeReg p.2.1 v s = some s := by
  simp [registerTable, writeReg]

/-- Settles O12, register by register over the table, and by the reserved offsets being past its end. -/
theorem registerMap : Obligations.RegisterMap := by
  unfold Obligations.RegisterMap
  refine ⟨fun p hp s => ?_, fun s o v hlow hhigh h8 => ?_, fun s => ?_, fun s hb => ?_, fun s v hb => ?_⟩
  · obtain ⟨hr, h8⟩ := regAt_registerTable p hp
    exact ⟨hostRead_register hr h8 s, fun hro v => hostWrite_register hr h8 (writeReg_readOnly p hp hro v s)⟩
  · have ht : target s o 8 = .reg none := by rw [target_reg (by omega) h8, regAt_reserved hlow]
    simp only [hostRead, hostWrite, ht, and_self]
  · refine ⟨?_, ?_, ?_, ?_, ?_, ?_, ?_, ?_, ?_⟩ <;> exact readReg_undrawn (by decide) rfl s
  · refine ⟨?_, ?_, ?_, ?_, ?_, ?_, ?_, ?_⟩ <;> exact readReg_idle hb _
  · exact hostWrite_register (r := .inLen) rfl rfl (by simp [writeReg, hb])

/-- Settles O8: a CMD write is an acceptance with BUSY = 0 and sets OVERRUN with BUSY = 1. -/
theorem cmdRegister : Obligations.CmdRegister := by
  unfold Obligations.CmdRegister
  refine ⟨fun s v hb => ?_, fun s v hb => ?_, fun s => ?_, fun _ _ _ _ => rfl⟩
  · have hw : writeReg .cmd v s = some (accept v s) := by simp [writeReg, hb]
    exact ⟨Config.freeDelay s.draws, s.draws + 1, hostWrite_register rfl rfl hw⟩
  · exact hostWrite_register (r := .cmd) rfl rfl (by simp [writeReg, hb])
  · rw [hostRead_register (r := .cmd) rfl rfl, readReg_undrawn (by decide) rfl]; rfl

/-- Settles O6: a placed word is an accepted one with the ENGINE to move next. -/
theorem placedWordRuns : Obligations.PlacedWordRuns := by
  unfold Obligations.PlacedWordRuns
  intro s n w i hd
  refine ⟨?_, rfl, rfl, rfl, rfl⟩
  exact (step_engine (engineMoves_placeWord _ s)).trans (engineStep_command hd)

/-! ### STATUS (10_state.md R24) -/

/-- The bits of STATUS that hold no field read 0. -/
theorem statusWord_unused (s : State) {v : Nat} (hv : v < 32) {j : Nat} (hj : j ∉ [0, 1, 2, 3, 4, 8, 9, 10, 11, 12]) :
    (statusWord s v).getLsbD j = false := by
  have hfields : (5 ≤ j ∧ j < 8) ∨ 13 ≤ j := by simp only [List.mem_cons, List.not_mem_nil] at hj; omega
  obtain ⟨hgap, hvalid⟩ := statusWord_high s v hv j
  rcases hfields with ⟨h5, h8⟩ | h13
  · exact hgap h5 h8
  · rw [hvalid (by omega)]
    have hpow : 2 ^ 5 ≤ 2 ^ (j - 8) := Nat.pow_le_pow_right (by decide) (by omega)
    exact Nat.testBit_lt_two_pow (lt_of_lt_of_le hv hpow)

/-- The valid flags in STATUS. -/
theorem statusWord_validBits (s : State) :
    (statusWord s (validBits s)).getLsbD 8 = s.slistV ∧ (statusWord s (validBits s)).getLsbD 9 = s.treeV ∧
      (statusWord s (validBits s)).getLsbD 10 = s.cbV ∧ (statusWord s (validBits s)).getLsbD 11 = s.bitsV ∧
      (statusWord s (validBits s)).getLsbD 12 = s.payloadV := by
  have hbit (j : Nat) : (statusWord s (validBits s)).getLsbD (8 + j) = (validBits s).testBit j := by
    rw [(statusWord_high s _ (validBits_lt s) (8 + j)).2 (by omega), Nat.add_sub_cancel_left]
  simpa only [← hbit] using testBit_validBits s

/-- Settles O10, from the bits of the status word and the two clauses of the invariant on DONE and ERROR. -/
theorem statusFields : Obligations.StatusFields := by
  unfold Obligations.StatusFields
  intro s hi
  obtain ⟨v, hv, hw, hidle⟩ := readReg_status s
  obtain ⟨h0, h1, h2, h3, h4⟩ := statusWord_low s v
  refine ⟨statusWord s v, (readReg .status s).2, ?_, h0, h1, h2, h3, h4, fun hb => ?_, fun j hj => ?_, ?_, fun hb => ?_⟩
  · rw [hostRead_register (r := .status) rfl rfl, hw]
  · rw [hidle hb]
    exact statusWord_validBits s
  · exact statusWord_unused s hv hj
  · rw [h1, h2]
    exact hi.control.oneReport
  · obtain ⟨hdone, herror, -, -⟩ := hi.control.busyClear hb
    rw [h1, h2, h4]
    simp [irq, hdone, herror]

/-! ### The windows (10_state.md R40 to R46) -/

/-- Settles O19: SYMBOL_COUNT is the length of the list, so LSEL below it selects an entry. -/
theorem listWindow : Obligations.ListWindow := by
  unfold Obligations.ListWindow
  intro s hi hb
  have hsym : hostRead 0x098#64 8 s = (.word (listSymWindow s), s) := hostRead_idle (r := .listSym) hb rfl rfl
  have hcnt : hostRead 0x0A0#64 8 s = (.word (listCntWindow s), s) := hostRead_idle (r := .listCnt) hb rfl rfl
  refine ⟨fun v => hostWrite_register (r := .lsel) rfl rfl rfl, hostRead_idle (r := .lsel) hb rfl rfl,
    fun hv hl => ?_, fun hn => ?_⟩
  · have hlen : s.lsel.toNat < s.slist.length := hi.data.listLength ▸ hl
    have hsel : selectedEntry s = some s.slist[s.lsel.toNat] := by
      rw [selectedEntry, if_pos ⟨hv, hl⟩, List.getElem?_eq_getElem hlen]
    refine ⟨_, List.getElem?_eq_getElem hlen, ?_, ?_⟩
    · rw [hsym, listSymWindow, hsel]
    · rw [hcnt, listCntWindow, hsel]
  · have hsel : selectedEntry s = none := if_neg hn
    rw [hsym, hcnt, listSymWindow, listCntWindow, hsel]
    exact ⟨rfl, rfl⟩

/-- The four registers SYM_CODEw (10_state.md R42). -/
theorem hostRead_symCode {s : State} (hb : s.busy = false) {w : Nat} (hw : w < 4) :
    hostRead (BitVec.ofNat 64 (0x0C0 + 8 * w)) 8 s = (.word (symCodeWindow s w), s) := by
  match w, hw with
  | 0, _ => exact hostRead_idle (r := .symCode0) hb rfl rfl
  | 1, _ => exact hostRead_idle (r := .symCode1) hb rfl rfl
  | 2, _ => exact hostRead_idle (r := .symCode2) hb rfl rfl
  | 3, _ => exact hostRead_idle (r := .symCode3) hb rfl rfl

/-- A word of SYM_CODE holds the code's bits from position 64·w on. -/
theorem getLsbD_symCodeWindow {s : State} (h : s.cbV = true) (w : Nat) {b : Nat} (hb : b < 64) :
    (symCodeWindow s w).getLsbD b = (codeOf s s.ssel).getD (64 * w + b) false := by
  rw [symCodeWindow, if_pos h, getLsbD_bitsToNat _ (List.length_take_le ..)]
  simp only [List.getD_eq_getElem?_getD, List.getElem?_take_of_lt hb, List.getElem?_drop]

/-- With CB_V = 1 every symbol has its entry in the codebook. -/
theorem DataInv.cb_getElem? {s : State} (hd : DataInv s) (h : s.cbV = true) (b : Byte) :
    s.cb[b.toNat]? = some (codeOf s b) := by
  have hlen : s.cb.length = 256 := by rw [(hd.codes h).2, length_codebookOf]
  have hlt : b.toNat < s.cb.length := hlen ▸ b.isLt
  rw [codeOf, List.getD_eq_getElem?_getD, List.getElem?_eq_getElem hlt, Option.getD_some]

/-- With SLIST_V = 1 every symbol has its entry in FREQ. -/
theorem DataInv.freq_getElem? {s : State} (hd : DataInv s) (h : s.slistV = true) (b : Byte) :
    s.freq[b.toNat]? = some (freqAt s b) := by
  have hlt : b.toNat < s.freq.length := (hd.list h).2.full ▸ b.isLt
  rw [freqAt, List.getD_eq_getElem?_getD, List.getElem?_eq_getElem hlt, Option.getD_some]

/-- Settles O20: FREQ and the codebook hold 256 entries where they are valid, so no free value is read. -/
theorem symbolWindow : Obligations.SymbolWindow := by
  unfold Obligations.SymbolWindow
  intro s hi hb
  have hfreq : hostRead 0x0B0#64 8 s = (.word (symFreqWindow s), s) := hostRead_idle (r := .symFreq) hb rfl rfl
  have hcode : hostRead 0x0B8#64 8 s = (.word (symCodeLenWindow s), s) := hostRead_idle (r := .symCodeLen) hb rfl rfl
  refine ⟨fun v => hostWrite_register (r := .ssel) rfl rfl rfl, hostRead_idle (r := .ssel) hb rfl rfl,
    fun h => ?_, fun h => ?_, fun h => ?_, fun h w hw => ?_⟩
  · exact ⟨_, hi.data.freq_getElem? h s.ssel, by rw [hfreq, symFreqWindow, if_pos h]⟩
  · rw [hfreq, symFreqWindow, h]; rfl
  · refine ⟨_, hi.data.cb_getElem? h s.ssel, by rw [hcode, symCodeLenWindow, if_pos h], fun w hw => ?_⟩
    exact ⟨_, hostRead_symCode hb hw, fun b hb' => getLsbD_symCodeWindow h w hb'⟩
  · cases w with
    | zero => rw [show BitVec.ofNat 64 (0x0B8 + 8 * 0) = 0x0B8#64 from rfl, hcode, symCodeLenWindow, h]; rfl
    | succ w =>
      rw [show 0x0B8 + 8 * (w + 1) = 0x0C0 + 8 * w by omega, hostRead_symCode hb (by omega), symCodeWindow, h]; rfl

/-- Settles O21: NODE_COUNT is the size of the node store, so NSEL below it selects a node. -/
theorem nodeWindow : Obligations.NodeWindow := by
  unfold Obligations.NodeWindow
  intro s hi hb
  have hinfo : hostRead 0x0E8#64 8 s = (.word (nodeInfoWindow s), s) := hostRead_idle (r := .nodeInfo) hb rfl rfl
  have hfreq : hostRead 0x0F0#64 8 s = (.word (nodeFreqWindow s), s) := hostRead_idle (r := .nodeFreq) hb rfl rfl
  refine ⟨fun v => hostWrite_register (r := .nsel) rfl rfl rfl, hostRead_idle (r := .nsel) hb rfl rfl,
    fun hv hl => ?_, fun hn => ?_⟩
  · have hlen : s.nsel.toNat < s.nodes.length := hi.data.storeLength ▸ hl
    obtain ⟨x, hx⟩ : ∃ x, s.nodes[s.nsel.toNat]? = some x := ⟨_, List.getElem?_eq_getElem hlen⟩
    have hsel : selectedNode s = some x := by rw [selectedNode, if_pos ⟨hv, hl⟩, hx]
    refine ⟨_, hinfo, ?_⟩
    rw [hfreq, hx, nodeInfoWindow, nodeFreqWindow, hsel]
    cases x with
    | leaf sym f => exact .inl ⟨sym, f, rfl, rfl, rfl⟩
    | branch a b f => exact .inr ⟨a, b, f, rfl, rfl, rfl⟩
  · have hsel : selectedNode s = none := if_neg hn
    rw [hinfo, hfreq, nodeInfoWindow, nodeFreqWindow, hsel]
    exact ⟨rfl, rfl⟩

theorem getLsbD_bitsWindow (s : State) {b : Nat} (hb : b < 64) : (bitsWindow s).getLsbD b = bitsWindowBit s b := by
  rw [bitsWindow, getLsbD_bitsToNat _ (by simp)]
  simp [List.getD_eq_getElem?_getD, hb]

theorem extract_payloadWindow (s : State) {k : Nat} (hk : k < 8) :
    (payloadWindow s).extractLsb' (8 * k) 8 = payloadWindowByte s k := by
  rw [payloadWindow, extract_littleEndian _ k hk]
  simp [List.getD_eq_getElem?_getD, hk]

/-- Settles O22: the two windows bit by bit and byte by byte. -/
theorem streamWindows : Obligations.StreamWindows := by
  unfold Obligations.StreamWindows
  intro s hb
  refine ⟨fun v => hostWrite_register (r := .bsel) rfl rfl rfl, fun v => hostWrite_register (r := .psel) rfl rfl rfl,
    hostRead_idle (r := .bsel) hb rfl rfl, hostRead_idle (r := .psel) hb rfl rfl, ?_, ?_⟩
  · exact ⟨_, hostRead_idle (r := .bitsWord) hb rfl rfl, fun b hb' => getLsbD_bitsWindow s hb'⟩
  · exact ⟨_, hostRead_idle (r := .payloadWord) hb rfl rfl, fun k hk => extract_payloadWindow s hk⟩

/-! ### The state after reset (10_state.md R60) -/

theorem bitsWindow_invalid {s : State} (h : s.bitsV = false) : bitsWindow s = 0#64 := by
  apply BitVec.eq_of_getLsbD_eq
  intro b hb
  simp [getLsbD_bitsWindow s hb, bitsWindowBit, h]

theorem payloadWindow_invalid {s : State} (h : s.payloadV = false) : payloadWindow s = 0#64 := by
  have hbyte : payloadWindowByte s = fun _ => 0#8 := by funext k; simp [payloadWindowByte, h]
  rw [payloadWindow, hbyte]; rfl

/-- Every register but ID and the capacities is 0 in a state that reset left. -/
theorem regValue_resetBlock (asserted : Bool) (s : State) (r : Reg) (hr : r ∉ [.id, .capIn, .capOut, .capBits]) :
    regValue r (resetBlock asserted s) = 0#64 := by
  cases r with
  | id | capIn | capOut | capBits => exact absurd hr (by decide)
  | bitsWord => exact bitsWindow_invalid rfl
  | payloadWord => exact payloadWindow_invalid rfl
  | _ => rfl

theorem resetState_resetBlock (asserted : Bool) (s : State) : ResetState (resetBlock asserted s) := by
  have hread (r : Reg) : readReg r (resetBlock asserted s) = (regValue r (resetBlock asserted s), resetBlock asserted s) :=
    readReg_idle rfl r
  refine ⟨congrArg Prod.fst (hread .id), congrArg Prod.fst (hread .capIn), congrArg Prod.fst (hread .capOut),
    congrArg Prod.fst (hread .capBits), fun r hr => ?_, rfl, rfl, rfl, rfl⟩
  rw [hread, regValue_resetBlock asserted s r hr]

/-- Settles O23: both states are ones that a release of reset leaves. -/
theorem resetValues : Obligations.ResetValues := by
  unfold Obligations.ResetValues
  refine ⟨?_, fun s rest hb ha hi => ?_⟩
  · exact resetState_resetBlock false { State.reset with draws := 0 }
  · have hm : engineMoves s = false := by simp [engineMoves, hb]
    have hs : step s = .next (resetBlock false { s with inputs := rest }) := by
      rw [step_host hm, hostStep_cons hi]
      simp [perform, ha]
    exact ⟨_, hs, resetState_resetBlock .., rfl, rfl, rfl, rfl, rfl⟩

/-! ### What the commands leave unchanged (10_state.md R29, R46, R48; 20_memory.md R74, R81) -/

theorem finish_stageIndex (opcode : Byte) (o : CmdOut) : (finish opcode o).stageIndex = 0 := by cases o <;> rfl

/-- Settles O53: a command takes no notice of the control fields. -/
theorem selectorsHaveNoEffect : Obligations.SelectorsHaveNoEffect := by
  unfold Obligations.SelectorsHaveNoEffect
  intro i s t l q n b p d e o h
  rw [exec_eq] at h
  have ht := Host.Outcome.next.inj h
  have hk : t.stageIndex = 0 := ht ▸ finish_stageIndex ..
  have hc := exec_withControl i s ⟨s.stageIndex, l, q, n, b, p, d, e, o⟩
  rw [ht] at hc
  refine hc.trans (congrArg _ ?_)
  cases t
  obtain rfl := hk
  rfl

theorem Untouched.readIn {s t : State} (h : Untouched s t) (a : Nat) : readIn t a = readIn s a := by
  rw [Machine.readIn, Machine.readIn, h.inMem, h.epoch]

/-- Settles O54: no stage touches these fields, and neither completion does. -/
theorem noCommandWritesItsInputs : Obligations.NoCommandWritesItsInputs := by
  unfold Obligations.NoCommandWritesItsInputs
  intro i s t h
  obtain ⟨u, hu, -, rfl | ⟨stage, r, rfl⟩⟩ := exec_cases h <;>
    exact ⟨hu.capIn, hu.capOut, hu.capBits, hu.cmd, hu.overrun, hu.doneIe, hu.errIe, hu.inLen, hu.lsel, hu.ssel, hu.nsel,
      hu.bsel, hu.psel, hu.inMem, hu.readIn, hu.resetAsserted, hu.inputs, hu.replies, rfl⟩

/-! ### Who writes the results (10_state.md R30 to R38; 20_memory.md R75) -/

/-- What the commands write, grouped by who writes it. -/
inductive Result where
  /-- OUT_LEN and OUT_MEM (R30; 20_memory.md R75). -/
  | out
  /-- SYMBOL_COUNT, SLIST and FREQ (R30, R33, R34). -/
  | list
  /-- BIT_LENGTH (R30). -/
  | bitLength
  /-- HC_WIDTH (R30). -/
  | hcWidth
  /-- NODE_COUNT and the node store (R30, R35). -/
  | tree
  /-- The codebook (R36). -/
  | codes
  /-- BITBUF (R37). -/
  | bitbuf
  /-- PAYLOAD (R38). -/
  | payload
  /-- The three STAT registers (R31). -/
  | stats

/-- The stages that write a result. -/
@[simp] def Result.writers : Result → List StageName
  | .out => [.serialize, .walk]
  | .list => [.freq, .parse]
  | .bitLength => [.code, .parse]
  | .hcWidth => [.serialize, .parse]
  | .tree => [.build]
  | .codes => [.codebook]
  | .bitbuf => [.code, .unpack]
  | .payload => [.pack, .parse]
  | .stats => [.statcalc]

/-- The commands with such a stage, as `Obligations.ResultWriters` lists them. -/
def Result.commands : Result → List Instr
  | .out => [.serialize, .walk, .encode, .encodeH, .decode, .decodeH]
  | .list => [.freq, .parse, .encode, .encodeH, .decode, .decodeH, .stats, .statsH, .statsC, .statsHC]
  | .bitLength => [.code, .parse, .encode, .encodeH, .decode, .decodeH, .statsC, .statsHC]
  | .hcWidth => [.serialize, .parse, .encode, .encodeH, .decode, .decodeH, .statsC, .statsHC]
  | .tree => [.build, .buildH, .encode, .encodeH, .decode, .decodeH, .stats, .statsH, .statsC, .statsHC]
  | .codes => [.codebook, .encode, .encodeH, .stats, .statsH, .statsC, .statsHC]
  | .bitbuf => [.code, .unpack, .encode, .encodeH, .decode, .decodeH]
  | .payload => [.pack, .parse, .encode, .encodeH, .decode, .decodeH, .statsC, .statsHC]
  | .stats => [.stats, .statsH, .statsC, .statsHC]

/-- Two states hold the same result. -/
@[simp] def Result.Same (r : Result) (s t : State) : Prop :=
  match r with
  | .out => t.outLen = s.outLen ∧ t.outMem = s.outMem ∧ t.outEpoch = s.outEpoch
  | .list => t.symbolCount = s.symbolCount ∧ t.slist = s.slist ∧ t.freq = s.freq
  | .bitLength => t.bitLength = s.bitLength
  | .hcWidth => t.hcWidth = s.hcWidth
  | .tree => t.nodeCount = s.nodeCount ∧ t.nodes = s.nodes
  | .codes => t.cb = s.cb
  | .bitbuf => t.bitbuf = s.bitbuf
  | .payload => t.payload = s.payload
  | .stats => t.statOrig = s.statOrig ∧ t.statBits = s.statBits ∧ t.statContainer = s.statContainer

theorem Result.Same.refl (r : Result) (s : State) : r.Same s s := by cases r <;> simp

theorem Result.Same.trans {r : Result} {s t u : State} (h : r.Same s t) (g : r.Same t u) : r.Same s u := by
  cases r <;> simp_all

/-- A stage writes no result but its own. -/
def WritesOnly (st : StageName) (run : State → StageOut) : Prop := ∀ r s, st ∉ Result.writers r → r.Same s (run s).state

@[simp] theorem StageOut.state_ok (t : State) : (StageOut.ok t).state = t := rfl

@[simp] theorem StageOut.state_fail (e : Raise) (t : State) : (StageOut.fail e t).state = t := rfl

/-- A stage that raised and changed nothing left every result. -/
theorem Result.same_of_fail {r : Result} {run : State → StageOut} {s : State} {e : Raise} (h : run s = .fail e s) :
    r.Same s (run s).state := by
  rw [h]; exact .refl r s

theorem freqStage_writesOnly : WritesOnly .freq freqStage := by
  intro r s h
  rcases Nat.lt_or_ge s.capIn.toNat s.inLen.toNat with h1 | h1
  · exact Result.same_of_fail (freqStage_fail h1)
  · rw [freqStage_ok h1]
    cases r <;> simp_all

theorem buildStage_writesOnly (heap : Bool) : WritesOnly .build (buildStage heap) := by
  intro r s h
  cases h1 : s.slistV with
  | false => exact Result.same_of_fail (buildStage_fail heap h1)
  | true =>
    rw [buildStage_ok heap h1]
    cases r <;> simp_all

theorem codebookStage_writesOnly : WritesOnly .codebook codebookStage := by
  intro r s h
  cases h1 : s.treeV with
  | false => exact Result.same_of_fail (codebookStage_fail h1)
  | true =>
    rw [codebookStage_ok h1]
    cases r <;> simp_all

theorem codeStage_writesOnly : WritesOnly .code codeStage := by
  intro r s h
  rcases codeStage_cases s with ⟨e, he⟩ | ⟨h1, h2, h3, h4⟩
  · exact Result.same_of_fail he
  · rw [codeStage_ok h1 h2 h3 h4]
    cases r <;> simp_all

theorem packStage_writesOnly : WritesOnly .pack packStage := by
  intro r s h
  cases h1 : s.bitsV with
  | false => exact Result.same_of_fail (packStage_fail h1)
  | true =>
    rw [packStage_ok h1]
    cases r <;> simp_all

theorem serializeStage_cases (s : State) :
    (∃ e, serializeStage s = .fail e s) ∨
    (s.slistV = true ∧ s.payloadV = true ∧ serializedLength s ≤ s.capOut.toNat) := by
  cases h1 : s.slistV with
  | false => exact .inl ⟨_, serializeStage_noSlist h1⟩
  | true =>
    cases h2 : s.payloadV with
    | false => exact .inl ⟨_, serializeStage_noPayload h1 h2⟩
    | true =>
      rcases Nat.lt_or_ge s.capOut.toNat (serializedLength s) with h3 | h3
      · exact .inl ⟨_, serializeStage_out h1 h2 h3⟩
      · exact .inr ⟨rfl, rfl, h3⟩

theorem serializeStage_writesOnly : WritesOnly .serialize serializeStage := by
  intro r s h
  rcases serializeStage_cases s with ⟨e, he⟩ | ⟨h1, h2, h3⟩
  · exact Result.same_of_fail he
  · rw [serializeStage_ok h1 h2 h3]
    cases r <;> simp_all

theorem parseStage_writesOnly : WritesOnly .parse parseStage := by
  intro r s h
  cases h1 : parsedOf s with
  | fail e => exact Result.same_of_fail (parseStage_fail h1)
  | ok p =>
    rw [parseStage_ok h1]
    cases r <;> simp_all

theorem unpackStage_writesOnly : WritesOnly .unpack unpackStage := by
  intro r s h
  cases h1 : s.payloadV with
  | false => exact Result.same_of_fail (unpackStage_fail h1)
  | true =>
    rw [unpackStage_ok h1]
    cases r <;> simp_all

/-- A walk that failed under way has lost OUT_MEM, and one that succeeded has written it. -/
theorem walkStage_writesOnly : WritesOnly .walk walkStage := by
  intro r s h
  rcases walkStage_cases s with ⟨e, he⟩ | ⟨-, -, e, he⟩ | ⟨-, -, -, he⟩ | ⟨-, -, -, w, -, he⟩
  · exact Result.same_of_fail he
  all_goals
    rw [he]
    cases r <;> simp_all

theorem statcalcStage_writesOnly : WritesOnly .statcalc statcalcStage := by
  intro r s h
  by_cases h1 : statcalcFits s
  · rw [statcalcStage_ok h1]
    cases r <;> simp_all
  · exact Result.same_of_fail (statcalcStage_fail h1)

theorem stagesOf_writesOnly (i : Instr) : ∀ p ∈ stagesOf i, WritesOnly p.1 p.2 := by
  cases i <;>
    simp [stagesOf, encodeStages, decodeStages, statsRawStages, statsContainerStages, freqStage_writesOnly,
      buildStage_writesOnly, codebookStage_writesOnly, codeStage_writesOnly, packStage_writesOnly,
      serializeStage_writesOnly, parseStage_writesOnly, unpackStage_writesOnly, walkStage_writesOnly,
      statcalcStage_writesOnly]

theorem Result.same_stageIndex (r : Result) (s : State) (k : Nat) : r.Same s { s with stageIndex := k } := by
  cases r <;> simp

/-- Stages of which none writes a result leave it. -/
theorem runStages_same {r : Result} {stages : List (StageName × (State → StageOut))}
    (hw : ∀ p ∈ stages, WritesOnly p.1 p.2) (hr : ∀ p ∈ stages, p.1 ∉ r.writers) (k : Nat) (s : State) :
    r.Same s (runStages k stages s).state := by
  induction stages generalizing k s with
  | nil => exact .refl r s
  | cons p rest ih =>
    obtain ⟨st, run⟩ := p
    obtain ⟨hwst, hwrest⟩ := List.forall_mem_cons.mp hw
    obtain ⟨hrst, hrrest⟩ := List.forall_mem_cons.mp hr
    have hrun : r.Same s (run { s with stageIndex := k }).state := (r.same_stageIndex s k).trans (hwst r _ hrst)
    cases hs : run { s with stageIndex := k } with
    | ok t =>
      rw [runStages_ok hs]
      rw [hs] at hrun
      exact hrun.trans (ih hwrest hrrest (k + 1) t)
    | fail e t =>
      rw [runStages_fail hs]
      rw [hs] at hrun
      exact hrun

/-- Completion writes no result. -/
theorem Result.same_finish (r : Result) (opcode : Byte) (o : CmdOut) : r.Same o.state (finish opcode o) := by
  cases o <;> cases r <;> simp [finish, CmdOut.state]

/-- The table of the commands agrees with the table of the stages. -/
theorem stages_not_writers {r : Result} {i : Instr} (h : i ∉ r.commands) :
    ∀ st ∈ (stagesOf i).map (·.1), st ∉ r.writers := by
  revert h
  cases r <;> cases i <;> decide

/-- A command none of whose stages writes a result leaves it. -/
theorem exec_same {r : Result} {i : Instr} {s t : State} (h : exec i s = .next t) (hi : i ∉ r.commands) : r.Same s t := by
  rw [exec_eq] at h
  obtain rfl := Host.Outcome.next.inj h
  have hr : ∀ p ∈ stagesOf i, p.1 ∉ r.writers := fun p hp => stages_not_writers hi _ (List.mem_map_of_mem hp)
  exact (runStages_same (stagesOf_writesOnly i) hr 0 s).trans (r.same_finish ..)

/-- Settles O55, result by result from the table of the stages' writes. -/
theorem resultWriters : Obligations.ResultWriters := by
  unfold Obligations.ResultWriters
  intro i s t h
  refine ⟨fun hi => ?_, fun hi => exec_same (r := .list) h hi, fun hi => exec_same (r := .bitLength) h hi,
    fun hi => exec_same (r := .hcWidth) h hi, fun hi => exec_same (r := .tree) h hi, fun hi => exec_same (r := .codes) h hi,
    fun hi => exec_same (r := .bitbuf) h hi, fun hi => exec_same (r := .payload) h hi, fun hi => exec_same (r := .stats) h hi⟩
  obtain ⟨hlen, hmem, hepoch⟩ := exec_same (r := .out) h hi
  exact ⟨hlen, hmem, fun a => by rw [readOut, readOut, hmem, hepoch]⟩

end Sys2Proof.Machine
end

section
/-! PROOFS. The statements of 20_memory.md: what HOST reads and writes of IN_MEM and OUT_MEM, and what HOST's side of a step
does to an idle block and to a running command. -/

namespace Sys2Proof.Machine

/-! ### The two memories (20_memory.md R71, R74, R75) -/

/-- A 1-byte access at byte `a` of the IN window lands on IN_MEM byte `a`. -/
theorem target_inMem {s : State} (hc : CapsLegal s) {a : Nat} (ha : a < s.capIn.toNat) :
    target s (BitVec.ofNat 64 (0x1000000000000000 + a)) 1 = .inByte a := by
  have hcap := hc.inHigh
  have ho : (BitVec.ofNat 64 (0x1000000000000000 + a)).toNat = 0x1000000000000000 + a := by
    rw [BitVec.toNat_ofNat, Nat.mod_eq_of_lt]; omega
  rw [target_in (by omega) (by omega), ho, Nat.add_sub_cancel_left]

/-- A 1-byte access at byte `a` of the OUT window lands on OUT_MEM byte `a`. -/
theorem target_outMem {s : State} (hc : CapsLegal s) {a : Nat} (ha : a < s.capOut.toNat)
    (hfit : 0x2000000000000000 + a < 2 ^ 64) :
    target s (BitVec.ofNat 64 (0x2000000000000000 + a)) 1 = .outByte a := by
  have ho : (BitVec.ofNat 64 (0x2000000000000000 + a)).toNat = 0x2000000000000000 + a := by
    rw [BitVec.toNat_ofNat, Nat.mod_eq_of_lt hfit]
  rw [target_out hc (by omega) (by omega), ho, Nat.add_sub_cancel_left]

/-- An IN_MEM byte reads as it was written, and a byte that was not written keeps its value. -/
theorem readIn_write (s : State) (a x : Nat) (b : Byte) :
    readIn { s with inMem := s.inMem.write a b } x = if x = a then b else readIn s x := by
  simp only [readIn, Memory.read_write]
  split <;> rfl

/-- Settles O15: the access lands on the byte, and a write stores to that byte alone. -/
theorem inMemAccess : Obligations.InMemAccess := by
  unfold Obligations.InMemAccess
  intro s hc a ha d
  have ht := target_inMem hc ha
  refine ⟨by simp only [hostRead, ht], fun hb => ?_, fun hb => by simp only [hostWrite, ht, hb, if_true]⟩
  refine ⟨{ s with inMem := s.inMem.write a (d.setWidth 8) }, ?_, ?_, fun x hx => ?_, rfl, fun hw => ?_⟩
  · simp only [hostWrite, ht, hb, Bool.false_eq_true, if_false]
  · rw [readIn_write, if_pos rfl]
  · rw [readIn_write, if_neg hx]
  · exact Memory.wf_write hw a _

/-- Settles O16: the access lands on the byte, which reads as written and takes no write. -/
theorem outMemAccess : Obligations.OutMemAccess := by
  unfold Obligations.OutMemAccess
  intro s hc a ha hfit d
  have ht := target_outMem hc ha hfit
  refine ⟨fun hb b hread => ?_, by simp only [hostWrite, ht]⟩
  have hbyte : readOut s a = b := by rw [readOut, hread, Option.getD_some]
  simp only [hostRead, ht, hb, hbyte, Bool.false_eq_true, if_false]

/-! ### Reads (20_memory.md R76) -/

/-- Settles O14: a read draws at most a free value, and only while BUSY = 1. -/
theorem readsHaveNoEffect : Obligations.ReadsHaveNoEffect := by
  unfold Obligations.ReadsHaveNoEffect
  intro s o w
  rcases hostRead_cases o w s with hsame | ⟨hbusy, hdraw⟩
  · exact ⟨⟨s.draws, hsame⟩, fun _ => ⟨hsame, by rw [hsame]⟩⟩
  · exact ⟨⟨s.draws + 1, hdraw⟩, fun hidle => absurd hbusy (by simp [hidle])⟩

/-! ### HOST's side of a step (20_memory.md R80) -/

/-- An answer is recorded, and an access to a running block is one of those that may land before the completion. -/
theorem answer_eq (running : Bool) (r : Reply × State) :
    answer running r = { r.2 with
      replies := r.1 :: r.2.replies, engineDelay := r.2.engineDelay - (if running then 1 else 0) } := by
  cases running <;> rfl

/-- A WAIT lets a running command go on, so HOST's side of a step does it only on an idle block. -/
theorem idle_of_wait {s : State} {rest : List HostOp} (hm : engineMoves s = false) (hi : s.inputs = .wait :: rest) :
    s.busy = false := by
  simpa [engineMoves, hi, resetComes, hostYields] using hm

/-- Settles O5: the oldest input is done and its answer recorded. -/
theorem stepMakesHostAccess : Obligations.StepMakesHostAccess := by
  unfold Obligations.StepMakesHostAccess
  intro s hm
  rw [step_host hm]
  refine ⟨fun hi => by rw [hostStep_nil hi], fun o w rest hi hr => ?_, fun o w d rest hi hr => ?_, fun rest hi hr => ?_⟩
  · obtain ⟨hreplies, hdelay⟩ := hostRead_queues o w { s with inputs := rest }
    rw [hostStep_cons hi, perform_read (s := { s with inputs := rest }) hr, answer_eq, hreplies, hdelay]
  · obtain ⟨hreplies, -⟩ := hostWrite_queues o w d { s with inputs := rest }
    rw [hostStep_cons hi, perform_write (s := { s with inputs := rest }) hr, answer_eq, hreplies]
  · have hb := idle_of_wait hm hi
    have hstatus : (readReg .status s).1 = statusWord s (validBits s) := congrArg Prod.fst (readReg_idle hb .status)
    obtain ⟨hbusy, -⟩ := statusWord_low s (validBits s)
    refine ⟨?_, hstatus, by rw [hstatus, hbusy, hb]⟩
    rw [hostStep_cons hi, perform_wait_idle (s := { s with inputs := rest }) hr hb, hstatus]
    rfl

/-! ### A running command (20_memory.md R81, R85; 70_reset_and_hazards.md R320) -/

/-- The ENGINE's move completes the command. -/
theorem engineStep_idle {s t : State} (h : engineStep s = .next t) : t.busy = false := by
  obtain ⟨u, -, -, hu | ⟨op, stage, c, info, hu⟩⟩ := engineStep_cases s
  all_goals
    obtain rfl := Host.Outcome.next.inj (h.symm.trans hu)
    rfl

/-- What a HOST write stores while BUSY = 1: OVERRUN, the write-one-to-clear bits, the enables and the selectors. -/
theorem WriteEffect.frame_busy {s t : State} (h : WriteEffect s t) (hb : s.busy = true) :
    t = { s with
      overrun := t.overrun, done := t.done, error := t.error, doneIe := t.doneIe, errIe := t.errIe, lsel := t.lsel
      ssel := t.ssel, nsel := t.nsel, bsel := t.bsel, psel := t.psel } := by
  cases h with
  | accept hidle | inLen hidle | inByte hidle => simp [hb] at hidle
  | nothing | overrun | status | enables | selectors => rfl

/-- What a HOST operation leaves while BUSY = 1: a read draws a free value at most. -/
theorem AccessEffect.frame_busy {s t : State} (h : AccessEffect s t) (hb : s.busy = true) :
    t = { s with
      overrun := t.overrun, done := t.done, error := t.error, doneIe := t.doneIe, errIe := t.errIe, lsel := t.lsel
      ssel := t.ssel, nsel := t.nsel, bsel := t.bsel, psel := t.psel, draws := t.draws } := by
  cases h with
  | read | draw => rfl
  | write _ hw =>
    have hdraws : t.draws = s.draws := by rw [hw.frame_busy hb]
    rw [hdraws]
    exact hw.frame_busy hb

/-- Settles O57: the ENGINE's move and reset end with BUSY = 0, and the other inputs do nothing or are an access to a
running block. -/
theorem runningCommandIsUndisturbed : Obligations.RunningCommandIsUndisturbed := by
  unfold Obligations.RunningCommandIsUndisturbed
  intro s t hb hs htb
  cases hm : engineMoves s with
  | true =>
    rw [step_engine hm] at hs
    exact absurd htb (by simp [engineStep_idle hs])
  | false =>
    rw [step_host hm] at hs
    obtain rfl := Host.Outcome.next.inj hs
    cases hi : s.inputs with
    | nil => rw [hostStep_nil hi]
    | cons op rest =>
      rw [hostStep_cons hi] at htb ⊢
      rcases perform_cases op { s with inputs := rest } with ⟨-, e⟩ | ⟨-, -, e⟩ | ⟨-, -, e⟩ | ⟨reply, u, hu, e⟩
      · rw [e] at htb; cases htb
      · rw [e] at htb; cases htb
      · rw [e]
      · have hframe := hu.frame_busy hb
        rw [e, hframe]
        rfl

end Sys2Proof.Machine
end

section
/-! PROOFS. The statements of 30_encoding.md: the command words, their decoding, what the ENGINE does with each word, and
that ALG changes nothing that a command leaves. -/

namespace Sys2Proof

/-! ### Words and fields (30_encoding.md R100, R121) -/

theorem toNat_append_eq_add {m n : Nat} (x : BitVec m) (y : BitVec n) : (x ++ y).toNat = x.toNat * 2 ^ n + y.toNat := by
  rw [BitVec.toNat_append, ← Nat.shiftLeft_add_eq_or_of_lt y.isLt, Nat.shiftLeft_eq]

/-- The fields stand at bits 0, 8, 9 and 10 of the word and do not overlap. -/
theorem toNat_joinWord (f : CmdFields) :
    (joinWord f).toNat = f.opcode.toNat + 0x100 * f.alg.toNat + 0x200 * f.src.toNat + 0x400 * f.rest.toNat := by
  simp only [joinWord, toNat_append_eq_add, BitVec.toNat_ofBool]
  omega

theorem toNat_rest_splitWord (v : Word) : (splitWord v).rest.toNat = v.toNat / 2 ^ 10 := by
  rw [splitWord, BitVec.extractLsb'_toNat, Nat.shiftRight_eq_div_pow, Nat.mod_eq_of_lt]
  omega

/-- The fields of a word are the whole of it. -/
theorem joinWord_splitWord (v : Word) : joinWord (splitWord v) = v := by
  apply BitVec.eq_of_toNat_eq
  rw [toNat_joinWord, toNat_rest_splitWord]
  simp only [splitWord, BitVec.extractLsb'_toNat, Nat.shiftRight_zero, BitVec.getLsbD, Nat.toNat_testBit]
  omega

/-! ### Instructions and fields (30_encoding.md R101, R104) -/

theorem encoding_statement (i : Instr) : Laws.Encoding.Statement i := by
  cases i with
  | freq => exact Laws.Encoding.freq
  | build => exact Laws.Encoding.build
  | buildH => exact Laws.Encoding.buildH
  | codebook => exact Laws.Encoding.codebook
  | code => exact Laws.Encoding.code
  | pack => exact Laws.Encoding.pack
  | serialize => exact Laws.Encoding.serialize
  | parse => exact Laws.Encoding.parse
  | unpack => exact Laws.Encoding.unpack
  | walk => exact Laws.Encoding.walk
  | encode => exact Laws.Encoding.encode
  | encodeH => exact Laws.Encoding.encodeH
  | decode => exact Laws.Encoding.decode
  | decodeH => exact Laws.Encoding.decodeH
  | stats => exact Laws.Encoding.stats
  | statsH => exact Laws.Encoding.statsH
  | statsC => exact Laws.Encoding.statsC
  | statsHC => exact Laws.Encoding.statsHC

/-- OPCODE, ALG and SRC name the instruction that they spell, and no other. -/
theorem dispatchFields_eq_some_iff {op : Byte} {alg src : Bool} {i : Instr} :
    dispatchFields op alg src = some i ↔ i.opcode = op ∧ i.alg = alg ∧ i.src = src := by
  constructor
  · intro h
    unfold dispatchFields at h
    split at h <;> cases h <;> exact ⟨BitVec.eq_of_toNat_eq (Eq.symm ‹_›), rfl, rfl⟩
  · rintro ⟨rfl, rfl, rfl⟩
    obtain ⟨-, -, h⟩ := encoding_statement i
    exact h

theorem CmdFields.opcodeAssigned_iff {f : CmdFields} : f.opcodeAssigned = true ↔
    f.opcode ∈ [0x01#8, 0x02#8, 0x03#8, 0x04#8, 0x05#8, 0x06#8, 0x11#8, 0x12#8, 0x13#8, 0x20#8, 0x21#8, 0x22#8] :=
  List.contains_iff_mem

theorem CmdFields.algLegal_iff {f : CmdFields} :
    f.algLegal = true ↔ (f.alg = true → f.opcode ∈ [0x02#8, 0x20#8, 0x21#8, 0x22#8]) := by
  rw [CmdFields.algLegal, Bool.or_eq_true, List.contains_iff_mem]
  cases f.alg <;> simp

theorem CmdFields.srcLegal_iff {f : CmdFields} : f.srcLegal = true ↔ (f.src = true → f.opcode = 0x22#8) := by
  rw [CmdFields.srcLegal, Bool.or_eq_true, beq_iff_eq]
  cases f.src <;> simp

theorem CmdFields.wellFormed_iff {f : CmdFields} :
    f.wellFormed = true ↔ f.opcodeAssigned = true ∧ f.restZero = true ∧ f.algLegal = true ∧ f.srcLegal = true := by
  simp only [CmdFields.wellFormed, Bool.and_eq_true, and_assoc]

theorem Instr.fields_legal (i : Instr) :
    i.fields.opcodeAssigned = true ∧ i.fields.algLegal = true ∧ i.fields.srcLegal = true := by
  obtain ⟨hop, -, halg, hsrc⟩ := CmdFields.wellFormed_iff.mp (encoding_statement i).1
  exact ⟨hop, halg, hsrc⟩

/-- Each assigned OPCODE, with an ALG and a SRC that it allows, is dispatched: by evaluation, OPCODE by OPCODE of R101's
table. -/
theorem exists_dispatchFields {f : CmdFields} (hop : f.opcodeAssigned = true) (halg : f.algLegal = true)
    (hsrc : f.srcLegal = true) : ∃ i, dispatchFields f.opcode f.alg f.src = some i := by
  rw [CmdFields.opcodeAssigned_iff] at hop
  rw [CmdFields.algLegal_iff] at halg
  rw [CmdFields.srcLegal_iff] at hsrc
  rw [← Option.isSome_iff_exists]
  revert halg hsrc
  generalize f.alg = alg, f.src = src
  revert alg src
  generalize f.opcode = op at hop ⊢
  revert op
  decide

/-- The fields spell the instruction that they are dispatched to. -/
theorem Instr.fields_eq_iff {i : Instr} {f : CmdFields} :
    i.fields = f ↔ f.rest = 0#54 ∧ dispatchFields f.opcode f.alg f.src = some i := by
  obtain ⟨op, alg, src, rest⟩ := f
  rw [dispatchFields_eq_some_iff, Instr.fields, CmdFields.mk.injEq]
  tauto

/-- The instructions are spelled by the well-formed fields. -/
theorem CmdFields.wellFormed_iff_exists {f : CmdFields} : f.wellFormed = true ↔ ∃ i : Instr, i.fields = f := by
  constructor
  · intro h
    obtain ⟨hop, hrest, halg, hsrc⟩ := CmdFields.wellFormed_iff.mp h
    obtain ⟨i, hi⟩ := exists_dispatchFields hop halg hsrc
    exact ⟨i, Instr.fields_eq_iff.mpr ⟨eq_of_beq hrest, hi⟩⟩
  · rintro ⟨i, rfl⟩
    exact (encoding_statement i).1

/-- The decoder's first test is that of 30_encoding.md R105. -/
theorem opcodeKnown_eq (f : CmdFields) : opcodeKnown f.opcode = f.opcodeAssigned := by
  rw [Bool.eq_iff_iff, opcodeKnown, Option.isSome_iff_exists]
  constructor
  · rintro ⟨i, hi⟩
    obtain ⟨hop, -, -⟩ := dispatchFields_eq_some_iff.mp hi
    have hi := i.fields_legal.1
    rwa [CmdFields.opcodeAssigned, Instr.fields, hop] at hi
  · intro h
    exact exists_dispatchFields (f := { f with alg := false, src := false }) h rfl rfl

/-! ### The decoder (30_encoding.md R105) -/

/-- A word decodes to the instruction that its fields spell. -/
theorem decode_eq_command_iff {v : Word} {i : Instr} : decode v = .command i ↔ i.fields = splitWord v := by
  rw [Instr.fields_eq_iff, decode, opcodeKnown_eq]
  split_ifs with hop hrest
  · simp [hrest]
  · cases hd : dispatchFields (splitWord v).opcode (splitWord v).alg (splitWord v).src with
    | some j => simp [not_not.mp hrest]
    | none => simp
  · have hf : i.fields ≠ splitWord v := fun e => hop (e ▸ i.fields_legal.1)
    rw [Ne, Instr.fields_eq_iff] at hf
    simp [hf]

theorem decode_eq_reservedOpcode_iff {v : Word} :
    decode v = .reject .reservedOpcode ↔ (splitWord v).opcodeAssigned = false := by
  rw [decode, opcodeKnown_eq]
  split_ifs with hop hrest
  · simp [hop]
  · cases dispatchFields (splitWord v).opcode (splitWord v).alg (splitWord v).src <;> simp [hop]
  · simpa using hop

theorem decode_reservedBits {v : Word} (hop : (splitWord v).opcodeAssigned = true)
    (h : ¬(splitWord v).wellFormed = true) : decode v = .reject .reservedBits := by
  cases hd : decode v with
  | command i => exact absurd (CmdFields.wellFormed_iff_exists.mpr ⟨i, decode_eq_command_iff.mp hd⟩) h
  | reject r =>
    cases r with
    | reservedBits => rfl
    | reservedOpcode => simp [decode_eq_reservedOpcode_iff.mp hd] at hop

theorem decode_encode (i : Instr) : decode (encode i) = .command i := by
  obtain ⟨-, hsplit, -⟩ := encoding_statement i
  exact decode_eq_command_iff.mpr hsplit.symm

/-- Settles O2: the fields of a word are the whole of it, so a word that decodes to a command is spelled by it. -/
theorem decodeEncodeAgree : Obligations.DecodeEncodeAgree := by
  unfold Obligations.DecodeEncodeAgree
  refine ⟨fun i => ⟨(encoding_statement i).1, decode_encode i⟩, fun v i h => ?_⟩
  rw [encode, decode_eq_command_iff.mp h, joinWord_splitWord]

/-- Settles O1: the words by evaluation, and where ALG and SRC are legal from the fields being well-formed. -/
theorem commandWords : Obligations.CommandWords := by
  unfold Obligations.CommandWords
  refine ⟨fun p hp => ?_, fun i => ?_, fun i => ?_, fun i => ?_⟩
  · have hword : encode p.1 = p.2 := by revert p; decide
    exact ⟨hword, hword ▸ decode_encode p.1⟩
  · rw [encode, toNat_joinWord]
    cases ha : i.alg <;> cases hs : i.src <;> simp [Instr.fields, ha, hs]
  · obtain ⟨-, halg, -⟩ := i.fields_legal
    exact CmdFields.algLegal_iff.mp halg
  · obtain ⟨-, -, hsrc⟩ := i.fields_legal
    exact CmdFields.srcLegal_iff.mp hsrc

/-! ### The ENGINE and the decoder (30_encoding.md R105, R106) -/

theorem wellFormed_splitWord_iff (v : Word) : (splitWord v).wellFormed = true ↔
    v.extractLsb' 0 8 ∈
        [0x01#8, 0x02#8, 0x03#8, 0x04#8, 0x05#8, 0x06#8, 0x11#8, 0x12#8, 0x13#8, 0x20#8, 0x21#8, 0x22#8] ∧
      v.toNat / 2 ^ 10 = 0 ∧ (v.getLsbD 8 = true → v.extractLsb' 0 8 ∈ [0x02#8, 0x20#8, 0x21#8, 0x22#8]) ∧
      (v.getLsbD 9 = true → v.extractLsb' 0 8 = 0x22#8) := by
  have hrest : (splitWord v).restZero = true ↔ v.toNat / 2 ^ 10 = 0 := by
    rw [← toNat_rest_splitWord, CmdFields.restZero, beq_iff_eq, ← BitVec.toNat_inj]; rfl
  rw [CmdFields.wellFormed_iff, hrest, CmdFields.opcodeAssigned_iff, CmdFields.algLegal_iff, CmdFields.srcLegal_iff]
  rfl

end Sys2Proof

namespace Sys2Proof.Machine

/-- The cause of a rejection (60_exceptions.md R261). -/
def rejectCause : CmdReject → Cause
  | .reservedOpcode => .reservedOpcode
  | .reservedBits => .reservedBits

/-- A word that is no command ends with the word as ERR_INFO and its OPCODE as the stage. -/
theorem step_reject {s : State} {r : CmdReject} (hm : engineMoves s = true) (hd : decode s.cmd = .reject r) :
    step s = .next (s.failed (errWord (s.cmd.extractLsb' 0 8) (s.cmd.extractLsb' 0 8) (rejectCause r)) s.cmd) := by
  rw [step_engine hm, engineStep_reject hd]
  cases r with
  | reservedOpcode | reservedBits =>
    simp only [commandError, errorEntry_eq, rejectCause, BitVec.ofNat_toNat, BitVec.setWidth_eq]

/-- Settles O3: the three classes of words are the three answers of the decoder. -/
theorem commandDecoding : Obligations.CommandDecoding := by
  unfold Obligations.CommandDecoding
  refine ⟨fun s hm => ?_, fun op => ?_⟩
  · intro v op known badBits
    have hknown : (splitWord v).opcodeAssigned = true ↔ known := CmdFields.opcodeAssigned_iff
    have hwf : (splitWord v).wellFormed = true ↔ known ∧ ¬badBits := by
      rw [wellFormed_splitWord_iff]
      simp only [badBits, not_or, not_and, not_not, known, op, ne_eq]
    refine ⟨fun h => ?_, fun h hbad => ?_, fun h hbad => ?_⟩
    · exact step_reject hm (decode_eq_reservedOpcode_iff.mpr (Bool.eq_false_iff.mpr (mt hknown.mp h)))
    · exact step_reject hm (decode_reservedBits (hknown.mpr h) fun hw => (hwf.mp hw).2 hbad)
    · obtain ⟨i, hi⟩ := CmdFields.wellFormed_iff_exists.mp (hwf.mpr ⟨h, hbad⟩)
      refine ⟨i, congrArg CmdFields.opcode hi, congrArg CmdFields.alg hi, congrArg CmdFields.src hi, ?_⟩
      rw [step_engine hm, engineStep_command (decode_eq_command_iff.mpr hi)]
  · simp only [List.mem_cons, List.not_mem_nil, or_false, BitVec.ofNat_eq_ofNat, ← BitVec.toNat_inj,
      BitVec.toNat_ofNat]
    omega

/-! ### ALG (30_encoding.md R102; 41_tree.md R155) -/

/-- The stage BUILD answers the same by either variant, on a list in good order. -/
theorem buildStage_alg {s : State} (h : ListOk s.slist) : buildStage false s = buildStage true s := by
  cases hv : s.slistV with
  | false => rw [buildStage_fail false hv, buildStage_fail true hv]
  | true => rw [buildStage_ok false hv, buildStage_ok true hv, buildBody_nodes false h, buildBody_nodes true h]

/-- A command that begins with FREQ, BUILD and CODEBOOK completes the same by either variant: what FREQ leaves is in good
order. -/
theorem finish_freq_alg (opcode : Byte) {rest : List (StageName × (State → StageOut))}
    (hb : ∀ p ∈ (.freq, freqStage) :: (.build, buildStage false) :: (.codebook, codebookStage) :: rest, Blind p.2)
    (s : State) :
    finish opcode (runStages 0 ((.freq, freqStage) :: (.build, buildStage false) :: (.codebook, codebookStage) :: rest) s) =
      finish opcode
        (runStages 0 ((.freq, freqStage) :: (.build, buildStage true) :: (.codebook, codebookStage) :: rest) s) := by
  have hrest : ∀ p ∈ rest, Blind p.2 := fun p hp => hb p (by simp [hp])
  rcases Nat.lt_or_ge s.capIn.toNat s.inLen.toNat with h | h
  · rw [finish_freq_fail opcode _ s h, finish_freq_fail opcode _ s h]
  · rw [finish_analyzed opcode _ rest hrest s h, finish_analyzed opcode _ rest hrest s h]

/-- A command that begins with PARSE and BUILD completes the same by either variant: what PARSE accepts is in good order. -/
theorem finish_parse_alg (opcode : Byte) {rest : List (StageName × (State → StageOut))}
    (hb : ∀ p ∈ (.parse, parseStage) :: (.build, buildStage false) :: rest, Blind p.2) (s : State) :
    finish opcode (runStages 0 ((.parse, parseStage) :: (.build, buildStage false) :: rest) s) =
      finish opcode (runStages 0 ((.parse, parseStage) :: (.build, buildStage true) :: rest) s) := by
  have hrest : ∀ p ∈ rest, Blind p.2 := fun p hp => hb p (by simp [hp])
  cases h : parsedOf s with
  | fail r => rw [finish_parse_fail opcode _ h, finish_parse_fail opcode _ h]
  | ok p => rw [finish_rebuilt opcode _ rest hrest h, finish_rebuilt opcode _ rest hrest h]

/-- Settles O51, from the two ways in which the composite commands begin. -/
theorem algHasNoEffect : Obligations.AlgHasNoEffect := by
  unfold Obligations.AlgHasNoEffect
  intro s
  simp only [exec_eq]
  refine ⟨congrArg _ ?_, congrArg _ ?_, congrArg _ ?_, congrArg _ ?_, fun h => congrArg _ ?_⟩
  · exact finish_freq_alg 0x20#8 (stagesOf_blind .encode) s
  · exact finish_parse_alg 0x21#8 (stagesOf_blind .decode) s
  · exact finish_freq_alg 0x22#8 (stagesOf_blind .stats) s
  · exact finish_parse_alg 0x22#8 (stagesOf_blind .statsC) s
  · have hs : ListOk { s with stageIndex := 0 }.slist := h
    simp only [stagesOf, runStages, buildStage_alg hs, Instr.opcode]

end Sys2Proof.Machine
end

section
/-! PROOFS. The statements of 40_frequency.md: what FREQ leaves for an input that fits and for one that does not, and that
it depends only on how often each byte occurs. -/

namespace Sys2Proof.Machine

/-! ### The frequency table and list of some bytes (40_frequency.md R140, R141) -/

theorem getElem?_countTable (bytes : List Byte) (b : Byte) :
    (countTable bytes)[b.toNat]? = some (BitVec.ofNat 64 (bytes.count b)) := by
  rw [countTable, List.getElem?_map, getElem?_allSymbols, Option.map_some]

/-- R142 (d): every listed count is at least 1. -/
theorem one_le_cnt_of_mem_freqList {bytes : List Byte} (hb : bytes.length < 2 ^ 64) {e : Entry}
    (he : e ∈ freqList bytes) : 1 ≤ e.cnt.toNat := by
  obtain ⟨hmem, hcnt⟩ := mem_freqList.mp he
  rw [hcnt, cnt_toNat hb]
  exact List.count_pos_iff.mpr hmem

/-- The number of listed symbols fits a word. -/
theorem toNat_length_freqList (bytes : List Byte) :
    (BitVec.ofNat 64 (freqList bytes).length).toNat = (freqList bytes).length := by
  have := length_freqList_le bytes
  rw [BitVec.toNat_ofNat, Nat.mod_eq_of_lt (by omega)]

/-- R142 (e): the table does not depend on the order of the bytes. -/
theorem countTable_perm {bytes bytes' : List Byte} (h : bytes'.Perm bytes) : countTable bytes' = countTable bytes := by
  simp only [countTable, h.count_eq]

/-- R142 (e): the list does not depend on the order of the bytes. -/
theorem freqList_perm {bytes bytes' : List Byte} (h : bytes'.Perm bytes) : freqList bytes' = freqList bytes := by
  simp only [freqList_eq, presentEntries, h.count_eq]

/-! ### FREQ as a command (40_frequency.md R140, R142) -/

/-- The state that FREQ leaves for an input that fits. -/
def frequenciesOf (s : State) : State :=
  { s with
    freq := countTable (inBytes s), slist := freqList (inBytes s)
    symbolCount := BitVec.ofNat 64 (freqList (inBytes s)).length
    slistV := true, treeV := false, cbV := false, bitsV := false, payloadV := false }

theorem exec_freq_fits {s : State} (h : s.inLen.toNat ≤ s.capIn.toNat) :
    exec .freq s = .next (frequenciesOf s).succeeded :=
  exec_single_ok rfl (freqStage_ok h)

theorem exec_freq_tooLong {s : State} (h : s.capIn.toNat < s.inLen.toNat) :
    exec .freq s = .next (s.failed 0x01010103#64 s.inLen) := by
  rw [exec_eq]
  exact congrArg _ (finish_freq_fail 0x01#8 [] s h)

theorem length_inBytes_lt (s : State) : (inBytes s).length < 2 ^ 64 := by
  rw [length_inBytes]
  exact s.inLen.isLt

/-- Settles O26, by the laws of the table and the list that FREQ writes. -/
theorem freqCountsTheInput : Obligations.FreqCountsTheInput := by
  unfold Obligations.FreqCountsTheInput
  refine ⟨decode_encode .freq, fun s => ⟨exec_freq_tooLong, fun h => ?_⟩⟩
  refine ⟨countTable (inBytes s), freqList (inBytes s), BitVec.ofNat 64 (freqList (inBytes s)).length, exec_freq_fits h,
    (freqAgrees_countTable _).full, getElem?_countTable _, fun e => ?_, ?_, toNat_length_freqList _⟩
  · rw [List.count_pos_iff]
    exact mem_freqList
  · exact (pairwise_entryLt_freqList (inBytes s)).imp (Or.imp_right (And.imp_left BitVec.eq_of_toNat_eq))

/-- Settles O27: clause by clause, from the list of the input; the last because a permutation keeps every count. -/
theorem freqProperties : Obligations.FreqProperties := by
  unfold Obligations.FreqProperties
  intro s t h ht
  obtain rfl := Host.Outcome.next.inj ((exec_freq_fits h).symm.trans ht)
  have hcount : (frequenciesOf s).symbolCount.toNat = (freqList (inBytes s)).length := toNat_length_freqList _
  refine ⟨?_, ?_, ?_, fun e => one_le_cnt_of_mem_freqList (length_inBytes_lt s), fun s' t' h' hp ht' => ?_⟩
  · exact (sumCounts_freqList (length_inBytes_lt s)).trans (length_inBytes s)
  · exact hcount.trans (length_freqList _)
  · exact hcount.trans_le (length_freqList_le _)
  · obtain rfl := Host.Outcome.next.inj ((exec_freq_fits h').symm.trans ht')
    have hlist := freqList_perm hp
    exact ⟨hlist, countTable_perm hp, congrArg (fun l : List Entry => BitVec.ofNat 64 l.length) hlist⟩

end Sys2Proof.Machine
end

section
/-! PROOFS. The statements of 41_tree.md: what BUILD and BUILD.H leave, the merges of the tree that they write, and that no
prefix-free code has a shorter stream than the codebook of that tree. -/

namespace Sys2Proof.Machine

/-! ### BUILD and BUILD.H as commands (41_tree.md R152, R155) -/

/-- The state that BUILD leaves for a list in good order. -/
def treeBuilt (s : State) : State :=
  { s with
    nodes := buildTree s.slist, nodeCount := BitVec.ofNat 64 (nodesFor s.slist.length)
    treeV := true, cbV := false }

theorem buildStage_listed (heap : Bool) {s : State} (hv : s.slistV = true) (hl : ListOk s.slist) :
    buildStage heap s = .ok (treeBuilt s) := by
  rw [buildStage_ok heap hv, buildBody_nodes heap hl]
  rfl

/-- Either spelling runs the one stage BUILD, with ALG as the variant. -/
theorem stagesOf_build {i : Instr} (hi : i ∈ [Instr.build, Instr.buildH]) :
    i.opcode = 0x02#8 ∧ ∃ heap, stagesOf i = [(.build, buildStage heap)] := by
  obtain rfl | rfl : i = .build ∨ i = .buildH := by simpa using hi
  · exact ⟨rfl, false, rfl⟩
  · exact ⟨rfl, true, rfl⟩

theorem exec_build_listed {i : Instr} (hi : i ∈ [Instr.build, Instr.buildH]) {s : State} (hv : s.slistV = true)
    (hl : ListOk s.slist) : exec i s = .next (treeBuilt s).succeeded := by
  obtain ⟨-, heap, hs⟩ := stagesOf_build hi
  exact exec_single_ok hs (buildStage_listed heap hv hl)

theorem exec_build_unlisted {i : Instr} (hi : i ∈ [Instr.build, Instr.buildH]) {s : State} (hv : s.slistV = false) :
    exec i s = .next (s.failed 0x02020102#64 0#64) := by
  obtain ⟨hop, heap, hs⟩ := stagesOf_build hi
  rw [exec_single_fail hs (buildStage_fail heap hv), hop]
  rfl

/-- Settles O28: the stage's two answers, by either variant. -/
theorem buildWritesTheTree : Obligations.BuildWritesTheTree := by
  unfold Obligations.BuildWritesTheTree
  exact ⟨decode_encode .build, decode_encode .buildH,
    fun s i hi => ⟨exec_build_unlisted hi, fun hv hl => exec_build_listed hi hv hl⟩⟩

/-- Settles O30: both variants write BuildTree's nodes, so both commands leave the same state. -/
theorem variantsAgree : Obligations.VariantsAgree := by
  unfold Obligations.VariantsAgree
  refine ⟨fun es hl => ?_, fun s hi hv => ?_⟩
  · exact ⟨(buildTwoQueue_eq es hl.ascending).trans (buildHeap_eq es).symm, buildHeap_eq es⟩
  · obtain ⟨hl, -⟩ := hi.data.list hv
    refine ⟨(treeBuilt s).succeeded, exec_build_listed (by simp) hv hl, exec_build_listed (by simp) hv hl, rfl, ?_⟩
    calc (treeBuilt s).nodeCount.toNat
      _ = nodeCountOf s.slist.length := nodesFor_toNat hi.data.listShort
      _ = (buildTree s.slist).length := (length_buildTree s.slist).symm

/-! ### The merges (41_tree.md R151, R157) -/

/-- Settles O29, from the laws of the store that the merge loop makes. -/
theorem mergeTakesTheTwoLeast : Obligations.MergeTakesTheTwoLeast := by
  unfold Obligations.MergeTakesTheTwoLeast
  intro es hl h256
  refine ⟨fun h0 => ?_, fun h0 => ?_⟩
  · rw [h0]; rfl
  · have hn : es.length ≠ 0 := mt List.length_eq_zero_iff.mp h0
    obtain ⟨hmerges, hroot⟩ := buildTree_merges h0 h256 hl.sumFits
    exact ⟨(length_buildTree es).trans (if_neg hn), getElem?_buildTree_leaf es, hmerges, hroot⟩

/-! ### Optimality (41_tree.md R159; 42_codebook.md R175) -/

/-- The codes that a prefix-free code gives to the symbols of a list are no prefixes of one another. -/
theorem pairwise_codes_of_prefixFree {es : List Entry} (hd : (es.map (·.sym)).Nodup) {code : Byte → List Bool}
    (hp : ∀ e ∈ es, ∀ f ∈ es, e.sym ≠ f.sym → ¬ code e.sym <+: code f.sym) :
    (es.map fun e => code e.sym).Pairwise fun x y => ¬ x <+: y ∧ ¬ y <+: x := by
  have hsyms : es.Pairwise fun e f => e.sym ≠ f.sym := List.pairwise_map.mp hd
  exact List.pairwise_map.mpr
    (hsyms.imp_of_mem fun {e f} he hf hne => ⟨hp e he f hf hne, hp f hf e he hne.symm⟩)

/-- Every prefix-free code for the symbols of a list costs at least what the merges cost: its lengths fit a code space
(Kraft), and no lengths that do cost less than the merges. -/
theorem MergeCost.le_prefixFree {es : List Entry} {c : Nat} (h : MergeCost (es.map (·.cnt.toNat)) c)
    (hd : (es.map (·.sym)).Nodup) {code : Byte → List Bool}
    (hp : ∀ e ∈ es, ∀ f ∈ es, e.sym ≠ f.sym → ¬ code e.sym <+: code f.sym) :
    c ≤ (es.map fun e => e.cnt.toNat * (code e.sym).length).sum := by
  obtain ⟨d, hlen⟩ : ∃ d, ∀ e ∈ es, (code e.sym).length ≤ d :=
    ⟨_, fun e he => List.le_sum_of_mem (List.mem_map_of_mem (f := fun e : Entry => (code e.sym).length) he)⟩
  have hkraft : kraftSum d ((es.map fun e => code e.sym).map List.length) ≤ 2 ^ d :=
    kraftSum_prefixFree d _ (by simpa using hlen) (pairwise_codes_of_prefixFree hd hp)
  have hcost := h.le_lengthCost d (es.map fun e => (e.cnt.toNat, (code e.sym).length))
    (by rw [List.map_map]; rfl) (by simpa using hlen) (by simpa only [List.map_map, Function.comp_def] using hkraft)
  simpa only [lengthCost, List.map_map, Function.comp_def] using hcost

/-- Settles O34: the codebook's stream is as long as the merges cost, and no prefix-free code costs less. -/
theorem codebookIsOptimal : Obligations.CodebookIsOptimal := by
  unfold Obligations.CodebookIsOptimal
  intro s hi hcb h2 code hp
  rw [hi.data.listLength] at h2
  obtain ⟨hl, ⟨hnil, -⟩ | ⟨-, t, ht⟩⟩ := hi.codes hcb
  · rw [hnil] at h2
    exact absurd h2 (by decide)
  · calc (s.slist.map fun e => e.cnt.toNat * (codeIn s.cb e.sym).length).sum
      _ = t.cost := ht.sum_codes hl.distinct h2
      _ ≤ (s.slist.map fun e => e.cnt.toNat * (code e.sym).length).sum := ht.cost.le_prefixFree hl.distinct hp

end Sys2Proof.Machine
end

section
/-! PROOFS. The statements of 42_codebook.md: the codes that CODEBOOK leaves, with their lengths and the code space that they
fill, and the stream that CODE writes, with its length. -/

namespace Sys2Proof.Machine

/-! ### The codes of a code tree (42_codebook.md R171 to R173) -/

section
variable {es : List Entry} {cb : List (List Bool)} {t : HTree}

/-- D16: a sole symbol has the one bit 0. -/
theorem CodeTree.codeIn_sole (h : CodeTree es cb t) (h1 : es.length = 1) {e : Entry} (he : e ∈ es) :
    codeIn cb e.sym = [false] := by
  have hc := h.mem_codes ⟨e, he, rfl⟩
  obtain ⟨s, c, rfl⟩ := h.sole h1
  exact congrArg Prod.snd (List.mem_singleton.mp hc)

/-- Two or more symbols: the code is the path to the leaf with that symbol, and distinct symbols make it the entry's own. -/
theorem CodeTree.follow_codeIn (h : CodeTree es cb t) (hd : (es.map (·.sym)).Nodup) (h2 : 2 ≤ es.length) {e : Entry}
    (he : e ∈ es) : ∃ x, follow (buildTree es) (nodeCountOf es.length - 1) (codeIn cb e.sym) = some x ∧
      (buildTree es)[x]? = some (.leaf e.sym e.cnt) := by
  have hc := h.mem_codes ⟨e, he, rfl⟩
  obtain ⟨l, r, rfl⟩ := h.many h2
  obtain ⟨x, f, hfollow, hleaf, hmem⟩ := h.stands.follow hc
  obtain ⟨d, hdmem, hdf⟩ := List.mem_map.mp (h.leaves.mem_iff.mp hmem)
  obtain ⟨hsym, hcnt⟩ := Prod.mk.inj hdf
  obtain rfl : d = e := List.inj_on_of_nodup_map hd hdmem he hsym
  exact ⟨x, hfollow, hleaf.trans (by rw [BitVec.eq_of_toNat_eq hcnt])⟩

theorem HTree.codes_not_prefix {t : HTree} {c d : Byte × List Bool} (hc : c ∈ t.codes) (hd : d ∈ t.codes) (hne : c ≠ d) :
    ¬ c.2 <+: d.2 := by
  have : Std.Symm fun c d : Byte × List Bool => ¬ c.2 <+: d.2 ∧ ¬ d.2 <+: c.2 := ⟨fun _ _ => And.symm⟩
  exact (t.codes_prefixFree.forall hc hd hne).1

theorem CodeTree.codeIn_not_prefix (h : CodeTree es cb t) {b c : Byte} (hne : b ≠ c) (hb : codeIn cb b ≠ [])
    (hc : codeIn cb c ≠ []) : ¬ codeIn cb b <+: codeIn cb c :=
  HTree.codes_not_prefix (h.mem_codes (h.codeIn_ne_nil.mp hb)) (h.mem_codes (h.codeIn_ne_nil.mp hc))
    fun he => hne (congrArg Prod.fst he)

/-- The sum over the list is the sum over the paths of the tree. -/
theorem CodeTree.kraft (h : CodeTree es cb t) (h2 : 2 ≤ es.length) {d : Nat} (hlen : ∀ b, (codeIn cb b).length ≤ d) :
    (es.map fun e => 2 ^ (d - (codeIn cb e.sym).length)).sum = 2 ^ d := by
  obtain ⟨l, r, rfl⟩ := h.many h2
  have hperm : (es.map fun e => (e.sym, codeIn cb e.sym)).Perm (HTree.node l r).paths := h.perm_codes
  have hpaths : ∀ c ∈ (HTree.node l r).paths, c.2.length ≤ d := fun c hc => h.codeIn_listed hc ▸ hlen c.1
  calc (es.map fun e => 2 ^ (d - (codeIn cb e.sym).length)).sum
    _ = ((HTree.node l r).paths.map fun c => 2 ^ (d - c.2.length)).sum := by
      simpa only [List.map_map, Function.comp_def] using (hperm.map fun c => 2 ^ (d - c.2.length)).sum_eq
    _ = 2 ^ d := (HTree.node l r).kraft_nat d hpaths

end

/-! ### The codebook of a list (42_codebook.md R171, R172) -/

/-- What `Inv.tree_codes` and `Inv.codes` say of a codebook: no code at all for the empty list, else those of a code tree. -/
def ListCodes (es : List Entry) (cb : List (List Bool)) : Prop :=
  (es = [] ∧ cb = List.replicate 256 []) ∨ (es ≠ [] ∧ ∃ t, CodeTree es cb t)

section
variable {es : List Entry} {cb : List (List Bool)}

theorem ListCodes.length_eq (h : ListCodes es cb) : cb.length = 256 := by
  obtain ⟨-, rfl⟩ | ⟨-, t, ht⟩ := h
  · exact List.length_replicate
  · exact ht.full

theorem ListCodes.getElem? (h : ListCodes es cb) (b : Byte) : cb[b.toNat]? = some (codeIn cb b) := by
  have hlt : b.toNat < cb.length := h.length_eq ▸ b.isLt
  rw [codeIn, List.getD_eq_getElem?_getD, List.getElem?_eq_getElem hlt, Option.getD_some]

theorem ListCodes.codeIn_unlisted (h : ListCodes es cb) {b : Byte} (hb : ∀ e ∈ es, e.sym ≠ b) : codeIn cb b = [] := by
  obtain ⟨-, rfl⟩ | ⟨-, t, ht⟩ := h
  · exact codeIn_replicate b
  · exact ht.codeIn_other hb

theorem ListCodes.exists_codeTree (h : ListCodes es cb) (hne : es ≠ []) : ∃ t, CodeTree es cb t :=
  h.elim (fun h0 => absurd h0.1 hne) And.right

theorem ListCodes.codeIn_ne_nil (h : ListCodes es cb) {b : Byte} : codeIn cb b ≠ [] ↔ ∃ e ∈ es, e.sym = b := by
  constructor
  · intro hb
    by_contra hn
    exact hb (h.codeIn_unlisted fun e he hs => hn ⟨e, he, hs⟩)
  · rintro ⟨e, he, rfl⟩
    obtain ⟨t, ht⟩ := h.exists_codeTree (List.ne_nil_of_mem he)
    exact ht.codeIn_ne_nil.mpr ⟨e, he, rfl⟩

theorem ListCodes.codeIn_sole (h : ListCodes es cb) (h1 : es.length = 1) {e : Entry} (he : e ∈ es) :
    codeIn cb e.sym = [false] := by
  obtain ⟨t, ht⟩ := h.exists_codeTree (List.ne_nil_of_mem he)
  exact ht.codeIn_sole h1 he

/-- The width of CB's entries (10_state.md R36): a list has at most 256 symbols. -/
theorem ListCodes.length_codeIn_le (h : ListCodes es cb) (hs : es.length ≤ 256) (b : Byte) : (codeIn cb b).length ≤ 255 := by
  obtain ⟨-, rfl⟩ | ⟨hne, t, ht⟩ := h
  · rw [codeIn_replicate]
    exact Nat.zero_le 255
  · obtain ⟨hmany, hsole⟩ := ht.length_codeIn b
    have := List.length_pos_iff.mpr hne
    omega

theorem ListCodes.length_codeIn_many (h : ListCodes es cb) (h2 : 2 ≤ es.length) (b : Byte) :
    (codeIn cb b).length ≤ es.length - 1 := by
  obtain ⟨t, ht⟩ := h.exists_codeTree (List.length_pos_iff.mp (by omega))
  exact (ht.length_codeIn b).1 h2

end

theorem Inv.listCodes {s : State} (hi : Inv s) (h : s.cbV = true) : ListCodes s.slist s.cb := (hi.codes h).2

/-! ### CODEBOOK (42_codebook.md R171 to R173) -/

/-- A single stage's error with the value of its ERR word, which is closed: only the cause enters it. -/
theorem exec_single_fail_of_errWord {i : Instr} {st : StageName} {run : State → StageOut} {s t : State} {c : Cause}
    {info : Nat} {w : Word} (hs : stagesOf i = [(st, run)]) (h : run s = .fail ⟨c, info⟩ t)
    (hw : errWord i.opcode st.number c = w) : exec i s = .next (t.failed w (BitVec.ofNat 64 info)) :=
  hw ▸ exec_single_fail hs h

/-- Settles O31: the codebook of the store is that of the list's code tree, whose codes are its paths. -/
theorem codebookFollowsTheTree : Obligations.CodebookFollowsTheTree := by
  unfold Obligations.CodebookFollowsTheTree
  refine ⟨decode_encode .codebook, fun s h => exec_single_fail_of_errWord rfl (codebookStage_fail h) rfl, fun s hi hv => ?_⟩
  have hcodes : ListCodes s.slist (codebookOf s.nodes s.nodeCount.toNat) := hi.tree_codes hv
  obtain ⟨hcount, hnodes, hl, -⟩ := hi.tree_eq hv
  refine ⟨_, exec_single_ok rfl (codebookStage_ok hv), hcodes.length_eq, fun b hb => ?_, fun h1 e he => ?_,
    fun h2 e he => ?_⟩
  · rw [hcodes.getElem?, hcodes.codeIn_unlisted hb]
  · rw [hcodes.getElem?, hcodes.codeIn_sole h1 he]
  · obtain ⟨t, ht⟩ := hcodes.exists_codeTree (List.ne_nil_of_mem he)
    obtain ⟨x, hx⟩ := ht.follow_codeIn hl.distinct h2 he
    rw [← hnodes, ← hcount] at hx
    exact ⟨_, x, hcodes.getElem? e.sym, hx⟩

/-- Settles O32: a path to a leaf is shorter than the number of leaves. -/
theorem codeLengths : Obligations.CodeLengths := by
  unfold Obligations.CodeLengths
  intro s hi hcb
  have hcodes := hi.listCodes hcb
  rw [hi.data.listLength]
  refine ⟨fun h2 e he => ⟨?_, hcodes.length_codeIn_many h2 e.sym⟩, fun h1 e he => ?_, fun b hb => ?_,
    hcodes.length_codeIn_le hi.data.listShort⟩
  · exact List.length_pos_iff.mpr (hcodes.codeIn_ne_nil.mpr ⟨e, he, rfl⟩)
  · rw [hcodes.codeIn_sole h1 he, List.length_singleton]
  · rw [hcodes.codeIn_unlisted hb, List.length_nil]

/-- Settles O33: the codes are paths to distinct leaves, and the paths of a tree fill the code space. -/
theorem prefixFree : Obligations.PrefixFree := by
  unfold Obligations.PrefixFree
  intro s hi hcb
  have hcodes := hi.listCodes hcb
  rw [hi.data.listLength]
  refine ⟨fun b c hne hb hc => ?_, fun h2 => ?_⟩
  · rw [List.length_pos_iff] at hb hc
    obtain ⟨e, he, -⟩ := hcodes.codeIn_ne_nil.mp hb
    obtain ⟨t, ht⟩ := hcodes.exists_codeTree (List.ne_nil_of_mem he)
    exact ht.codeIn_not_prefix hne hb hc
  · obtain ⟨t, ht⟩ := hcodes.exists_codeTree (List.length_pos_iff.mp (by omega))
    exact ht.kraft h2 (hcodes.length_codeIn_le hi.data.listShort)

/-! ### CODE (42_codebook.md R174, R175) -/

theorem mem_inBytes {s : State} {b : Byte} : b ∈ inBytes s ↔ ∃ a < s.inLen.toNat, readIn s a = b := by
  simp [inBytes]

theorem getElem_inBytes {s : State} {a : Nat} (h : a < (inBytes s).length) : (inBytes s)[a] = readIn s a := by
  simp [inBytes]

/-- CODE_MISS is raised at the lowest address whose byte has no code. -/
theorem firstMiss_inBytes {s : State} {code : Byte → List Bool} {a : Nat} (ha : a < s.inLen.toNat)
    (hmiss : code (readIn s a) = []) (hlow : ∀ x < a, code (readIn s x) ≠ []) : firstMiss code 0 (inBytes s) = some a := by
  have hlt : a < (inBytes s).length := (length_inBytes s).symm ▸ ha
  rw [firstMiss_eq_some code 0 (inBytes s) a hlt (by rwa [getElem_inBytes])
    (fun x hx => by rw [getElem_inBytes]; exact hlow x hx), Nat.zero_add]

theorem firstMiss_inBytes_none {s : State} {code : Byte → List Bool} (h : ∀ a < s.inLen.toNat, code (readIn s a) ≠ []) :
    firstMiss code 0 (inBytes s) = none := by
  refine (firstMiss_eq_none ..).mpr fun b hb => ?_
  obtain ⟨a, ha, rfl⟩ := mem_inBytes.mp hb
  exact h a ha

/-- Settles O35: one answer of the stage per clause; BITBUF is the stream before its old bits. -/
theorem codeWritesTheStream : Obligations.CodeWritesTheStream := by
  unfold Obligations.CodeWritesTheStream
  refine ⟨decode_encode .code, fun s => ⟨fun h => ?_, fun h hlen => ?_, fun a h hlen ha hmiss hlow => ?_, fun h hlen hall => ?_⟩⟩
  · exact exec_single_fail_of_errWord rfl (codeStage_noCodebook h) rfl
  · rw [exec_single_fail_of_errWord (w := 0x04040103#64) rfl (codeStage_inLen h hlen) rfl, BitVec.ofNat_toNat,
      BitVec.setWidth_eq]
  · exact exec_single_fail_of_errWord rfl (codeStage_miss h hlen (firstMiss_inBytes ha hmiss hlow)) rfl
  · have hnone := firstMiss_inBytes_none hall
    refine ⟨fun hcap => ?_, fun hcap => ?_⟩
    · exact exec_single_fail_of_errWord rfl (codeStage_bitbuf h hlen hnone hcap) rfl
    · exact ⟨_, exec_single_ok rfl (codeStage_ok h hlen hnone hcap),
        fun j hj => (getElem?_writePrefix ..).trans (if_pos hj),
        fun j hj => (getElem?_writePrefix ..).trans (if_neg (Nat.not_lt.mpr hj))⟩

/-- Settles O36: the list holds each byte's count, and a sole symbol's code has one bit. -/
theorem streamLength : Obligations.StreamLength := by
  unfold Obligations.StreamLength
  intro s hi hcb hlist
  refine ⟨?_, fun h1 => ?_⟩
  · rw [hlist]
    exact length_flatMap_code (inBytes s) (length_inBytes_lt s) (codeIn s.cb)
  · rw [hi.data.listLength] at h1
    have hone : ∀ b ∈ inBytes s, (codeIn s.cb b).length = 1 := fun b hb => by
      have he : (⟨b, BitVec.ofNat 64 ((inBytes s).count b)⟩ : Entry) ∈ s.slist := hlist ▸ mem_freqList.mpr ⟨hb, rfl⟩
      exact congrArg List.length ((hi.listCodes hcb).codeIn_sole h1 he)
    rw [length_flatMap_const (inBytes s) (codeIn s.cb) 1 hone, Nat.mul_one, length_inBytes]

end Sys2Proof.Machine
end

section
/-! PROOFS. The statements of 43_bitpack.md: the payload that PACK writes, the stream that UNPACK writes, and that each of the
two undoes the other. -/

namespace Sys2Proof.Machine

/-! ### The bits of a packed payload and of an unpacked stream (43_bitpack.md R190, R191) -/

theorem getLsbD_pack (bits : List Bool) (k : Nat) {q : Nat} (hq : q < 8) :
    ((pack bits).getD k 0#8).getLsbD q = bits.getD (8 * k + q) false := by
  by_cases hk : k < ceil8 bits.length
  · have hbyte : (pack bits).getD k 0#8 = packByte bits k := by simp [pack, List.getD_eq_getElem?_getD, hk]
    rw [hbyte, getLsbD_packByte bits k q hq]
  · have hend : bits.length ≤ 8 * k + q := by simp only [ceil8] at hk; omega
    rw [List.getD_eq_default _ _ ((length_pack bits).trans_le (Nat.not_lt.mp hk)), List.getD_eq_default _ _ hend,
      BitVec.getLsbD_zero]

theorem getElem?_unpack {p : List Byte} {b j : Nat} (hj : j < b) : (unpack p b)[j]? = some (payloadBit p j) := by
  simp [unpack, hj]

/-- R194 (c): a payload whose padding bits are 0 is what packing its stream gives. -/
theorem pack_unpack {p : List Byte} {b : Nat} (hp : p.length = ceil8 b)
    (hpad : ∀ k < p.length, ∀ q < 8, b ≤ 8 * k + q → (p.getD k 0#8).getLsbD q = false) : pack (unpack p b) = p := by
  refine List.ext_getElem (by rw [length_pack, length_unpack, hp]) fun k hk hkp => BitVec.eq_of_getLsbD_eq fun q hq => ?_
  rw [← List.getD_eq_getElem _ 0#8 hk, ← List.getD_eq_getElem _ 0#8 hkp, getLsbD_pack_unpack p b k q hp (hp ▸ hkp) hq]
  by_cases hb : 8 * k + q < b
  · rw [decide_eq_true hb, Bool.true_and]
  · rw [decide_eq_false hb, Bool.false_and, hpad k hkp q hq (Nat.not_lt.mp hb)]

/-- Settles O39: an unpacked bit is the bit packed there, and packing a stream clears the bits past its end. -/
theorem packUnpackLaws : Obligations.PackUnpackLaws := by
  unfold Obligations.PackUnpackLaws
  exact ⟨fun bits => ⟨unpack_pack bits, length_pack bits⟩,
    fun p b hp => ⟨fun k hk q hq => getLsbD_pack_unpack p b k q hp (hp ▸ hk) hq, pack_unpack hp⟩⟩

/-! ### PACK and UNPACK as commands (43_bitpack.md R192, R193) -/

theorem getD_streamOf (s : State) (j : Nat) :
    (streamOf s).getD j false = if j < s.bitLength.toNat then bitAt s j else false := by
  split_ifs with hj
  · simp [streamOf, List.getD_eq_getElem?_getD, hj]
  · exact List.getD_eq_default _ _ ((length_streamOf s).trans_le (Nat.not_lt.mp hj))

/-- The payload has a byte for every bit of the stream. -/
theorem payloadBit_payloadOf {s : State} {j : Nat} (hj : j < s.bitLength.toNat) :
    payloadBit (payloadOf s) j = (payloadAt s (j / 8)).getLsbD (j % 8) := by
  have hk : j / 8 < ceil8 s.bitLength.toNat := by simp only [ceil8]; omega
  simp [payloadBit, payloadOf, List.getD_eq_getElem?_getD, hk]

theorem length_pack_streamOf (s : State) : (pack (streamOf s)).length = ceil8 s.bitLength.toNat := by
  rw [length_pack, length_streamOf]

/-- Settles O37: one answer of the stage per clause; PAYLOAD is the packed stream before its old bytes. -/
theorem packWritesThePayload : Obligations.PackWritesThePayload := by
  unfold Obligations.PackWritesThePayload
  refine ⟨decode_encode .pack, fun s => ⟨fun h => exec_single_fail_of_errWord rfl (packStage_fail h) rfl, fun h => ?_⟩⟩
  refine ⟨writePrefix (pack (streamOf s)) s.payload, exec_single_ok rfl (packStage_ok h), fun k hk q hq => ?_, ?_,
    fun k hk => ?_⟩
  · have hbyte : (writePrefix (pack (streamOf s)) s.payload).getD k 0#8 = (pack (streamOf s)).getD k 0#8 := by
      rw [List.getD_eq_getElem?_getD, getElem?_writePrefix, length_pack_streamOf, if_pos hk, ← List.getD_eq_getElem?_getD]
    rw [hbyte, getLsbD_pack _ k hq, getD_streamOf]
  · rw [length_writePrefix, length_pack_streamOf]
    exact Nat.le_max_left ..
  · rw [getElem?_writePrefix, length_pack_streamOf, if_neg (Nat.not_lt.mpr hk)]

/-- Settles O38: one answer of the stage per clause; BITBUF is the unpacked payload before its old bits. -/
theorem unpackWritesTheStream : Obligations.UnpackWritesTheStream := by
  unfold Obligations.UnpackWritesTheStream
  refine ⟨decode_encode .unpack, fun s => ⟨fun h => exec_single_fail_of_errWord rfl (unpackStage_fail h) rfl, fun h => ?_⟩⟩
  refine ⟨writePrefix (unpack (payloadOf s) s.bitLength.toNat) s.bitbuf, exec_single_ok rfl (unpackStage_ok h),
    fun j hj => ?_, fun j hj => ?_⟩
  · rw [getElem?_writePrefix, length_unpack, if_pos hj, getElem?_unpack hj, payloadBit_payloadOf hj]
  · rw [getElem?_writePrefix, length_unpack, if_neg (Nat.not_lt.mpr hj)]

end Sys2Proof.Machine
end

section
/-! PROOFS. The statements of 44_container.md: the container that SERIALIZE writes, the widths of its counts, the checks and the
writes of PARSE, and that each of the two undoes the other. -/

namespace Sys2Proof.Machine

/-! ### Widths and big-endian integers (44_container.md R202, R203) -/

/-- Settles O41: the width is chosen for the largest count, which bounds every other. -/
theorem widthBoundaries : Obligations.WidthBoundaries := by
  unfold Obligations.WidthBoundaries
  refine ⟨fun m => ⟨fun h => ?_, fun h h' => ?_, fun h h' => ?_, fun h => ?_⟩, fun es e he => ?_, fun v => ?_,
    fun w v => ⟨length_bigEndian w v, fun i hi => ?_⟩, fun es => ?_⟩
  · exact if_pos h
  · rw [minWidth, if_neg (by omega), if_pos h']
  · rw [minWidth, if_neg (by omega), if_neg (by omega), if_pos h']
  · rw [minWidth, if_neg (by omega), if_neg (by omega), if_neg (by omega)]
  · have hfit : e.cnt.toNat < 256 ^ minWidth (maxCount es) := lt_pow_minWidth (le_maxCount he) (maxCount_lt es)
    exact ⟨le_maxCount he, by rwa [pow_mul], unBigEndian_bigEndian hfit⟩
  · exact unBigEndian_bigEndian v.isLt
  · exact ⟨_, getElem?_bigEndian v hi, BitVec.toNat_ofNat ..⟩
  · exact (em (es = [])).imp (fun h => ⟨h, h ▸ maxCount_nil⟩) exists_maxCount

/-! ### SERIALIZE (44_container.md R200, R201) -/

/-- The container that SERIALIZE writes. -/
def serializedBytes (s : State) : List Byte :=
  containerBytes s.slist (minWidth (maxCount s.slist)) s.bitLength.toNat (payloadOf s)

/-- The state that SERIALIZE leaves where the container fits. -/
def serialized (s : State) : State :=
  { s with
    outMem := s.outMem.writeAll 0 (serializedBytes s), outLen := BitVec.ofNat 64 (serializedLength s)
    hcWidth := BitVec.ofNat 64 (minWidth (maxCount s.slist)) }

theorem length_serializedBytes (s : State) : (serializedBytes s).length = serializedLength s :=
  length_containerBytes _ _ _ _ (length_payloadOf s)

/-- OUT_MEM after SERIALIZE: the container, and above it what it held. -/
theorem read_serialized (s : State) (a : Nat) : (serialized s).outMem.read a =
    if a < serializedLength s then (serializedBytes s)[a]? else s.outMem.read a := by
  simp only [serialized, Memory.read_writeAll, length_serializedBytes, Nat.zero_le, true_and, Nat.zero_add, Nat.sub_zero]

theorem exec_serialize_fits {s : State} (h1 : s.slistV = true) (h2 : s.payloadV = true)
    (h3 : serializedLength s ≤ s.capOut.toNat) : exec .serialize s = .next (serialized s).succeeded :=
  exec_single_ok rfl (serializeStage_ok h1 h2 h3)

/-- Settles O40: one answer of the stage per clause, and OUT_MEM is the container below its old bytes. -/
theorem serializeWritesTheContainer : Obligations.SerializeWritesTheContainer := by
  unfold Obligations.SerializeWritesTheContainer
  refine ⟨decode_encode .serialize, fun s => ⟨fun h => ?_, fun h1 h2 => ?_, fun h1 h2 => ⟨fun h3 => ?_, fun h3 => ?_⟩⟩⟩
  · exact exec_single_fail_of_errWord rfl (serializeStage_noSlist h) rfl
  · exact exec_single_fail_of_errWord rfl (serializeStage_noPayload h1 h2) rfl
  · exact exec_single_fail_of_errWord rfl (serializeStage_out h1 h2 h3) rfl
  · exact ⟨(serialized s).outMem, exec_serialize_fits h1 h2 h3, length_serializedBytes s,
      fun a ha => (read_serialized s a).trans (if_pos ha),
      fun a ha => (read_serialized s a).trans (if_neg (Nat.not_lt.mpr ha))⟩

/-! ### The fields of a container (44_container.md R206) -/

/-- The header's symbolCount, R206's n. -/
abbrev storedN (d : Nat → Byte) : Nat := unBigEndian (bytesAt d 0 8)

/-- The header's compressedBitLength, R206's B. -/
abbrev storedBits (d : Nat → Byte) : Nat := unBigEndian (bytesAt d 8 8)

/-- The header's hitCountByteWidth, R206's w. -/
abbrev storedWidth (d : Nat → Byte) : Nat := (d 16).toNat

/-- R206's S, where the dictionary and the counts end. -/
abbrev sectionsEnd (d : Nat → Byte) : Nat := 17 + storedN d + storedN d * storedWidth d

/-- R206's T, where the payload ends. -/
abbrev containerEnd (d : Nat → Byte) : Nat := containerLength (storedN d) (storedWidth d) (storedBits d)

/-- R206's c_i. -/
abbrev storedCount (d : Nat → Byte) (i : Nat) : Nat :=
  unBigEndian (bytesAt d (17 + storedN d + i * storedWidth d) (storedWidth d))

/-- Entry `i` comes before entry `j` in R206's order. -/
abbrev StoredBefore (d : Nat → Byte) (i j : Nat) : Prop :=
  storedCount d i < storedCount d j ∨ (storedCount d i = storedCount d j ∧ (d (17 + i)).toNat < (d (17 + j)).toNat)

/-- The entries in stored order. -/
def storedEntries (d : Nat → Byte) : List Entry := (List.range (storedN d)).map (entryAt d (storedN d) (storedWidth d))

/-- What the bytes say of a container that PARSE accepts. -/
def storedContents (d : Nat → Byte) : Parsed :=
  { width := storedWidth d, bits := storedBits d, entries := storedEntries d
    payload := bytesAt d (sectionsEnd d) (ceil8 (storedBits d)) }

theorem mem_widths {w : Nat} : w ∈ [1, 2, 4, 8] ↔ w = 1 ∨ w = 2 ∨ w = 4 ∨ w = 8 := by simp

theorem widths_le {w : Nat} (h : w = 1 ∨ w = 2 ∨ w = 4 ∨ w = 8) : w ≤ 8 := by omega

section
variable {d : Nat → Byte} {len capIn capBits i : Nat}

@[simp] theorem length_bytesAt (d : Nat → Byte) (a count : Nat) : (bytesAt d a count).length = count := by simp [bytesAt]

theorem getElem?_bytesAt {a count : Nat} (hi : i < count) : (bytesAt d a count)[i]? = some (d (a + i)) := by
  simp [bytesAt, hi]

theorem mem_storedEntries {e : Entry} :
    e ∈ storedEntries d ↔ ∃ i < storedN d, entryAt d (storedN d) (storedWidth d) i = e := by simp [storedEntries]

@[simp] theorem length_storedEntries (d : Nat → Byte) : (storedEntries d).length = storedN d := by simp [storedEntries]

theorem getElem?_storedEntries (hi : i < storedN d) :
    (storedEntries d)[i]? = some (entryAt d (storedN d) (storedWidth d) i) := by simp [storedEntries, hi]

theorem getElem_storedEntries (hi : i < (storedEntries d).length) :
    (storedEntries d)[i] = entryAt d (storedN d) (storedWidth d) i := by simp [storedEntries]

theorem take_storedEntries (hi : i ≤ storedN d) :
    (storedEntries d).take i = (List.range i).map (entryAt d (storedN d) (storedWidth d)) := by
  rw [storedEntries, ← List.map_take, List.take_range, Nat.min_eq_left hi]

theorem map_sym_storedEntries (d : Nat → Byte) : (storedEntries d).map (·.sym) = bytesAt d 17 (storedN d) := by
  simp [storedEntries, bytesAt, entryAt]

section
variable (hw : storedWidth d ≤ 8)
include hw

theorem toNat_cnt_entryAt (i : Nat) : (entryAt d (storedN d) (storedWidth d) i).cnt.toNat = storedCount d i :=
  toNat_count d _ hw

theorem map_cnt_storedEntries : (storedEntries d).map (·.cnt.toNat) = (List.range (storedN d)).map (storedCount d) := by
  simp only [storedEntries, List.map_map, Function.comp_def, toNat_cnt_entryAt hw]

theorem sumCounts_storedEntries : sumCounts (storedEntries d) = ((List.range (storedN d)).map (storedCount d)).sum := by
  rw [sumCounts, map_cnt_storedEntries hw]

theorem maxCount_storedEntries :
    maxCount (storedEntries d) = ((List.range (storedN d)).map (storedCount d)).foldl max 0 := by
  rw [maxCount, map_cnt_storedEntries hw]

theorem entryLt_entryAt_iff {i j : Nat} :
    entryLt (entryAt d (storedN d) (storedWidth d) i) (entryAt d (storedN d) (storedWidth d) j) ↔ StoredBefore d i j := by
  rw [entryLt, toNat_cnt_entryAt hw, toNat_cnt_entryAt hw]
  rfl

end

/-! ### The nine checks (44_container.md R206)

`h1` to `h6` say of checks 1 to 6 whether they pass. -/

theorem parseContainer_inLen (h : capIn < len) : parseContainer d len capIn capBits = .fail ⟨.inLen, len⟩ := if_pos h

section
variable (h1 : len ≤ capIn)
include h1

theorem parseContainer_headerTruncated (h2 : len < 17) :
    parseContainer d len capIn capBits = .fail ⟨.headerTruncated, len⟩ :=
  (if_neg (not_lt.mpr h1)).trans (if_pos h2)

variable (h2 : 17 ≤ len)
include h2

theorem parseContainer_badWidth (h3 : storedWidth d ∉ [1, 2, 4, 8]) :
    parseContainer d len capIn capBits = .fail ⟨.badWidth, storedWidth d⟩ :=
  (if_neg (not_lt.mpr h1)).trans <| (if_neg (not_lt.mpr h2)).trans <| if_pos (mt mem_widths.mpr h3)

variable (h3 : storedWidth d ∈ [1, 2, 4, 8])
include h3

theorem parseContainer_countTooLarge (h4 : 256 < storedN d) :
    parseContainer d len capIn capBits = .fail ⟨.countTooLarge, storedN d⟩ :=
  (if_neg (not_lt.mpr h1)).trans <| (if_neg (not_lt.mpr h2)).trans <| (if_neg (not_not_intro (mem_widths.mp h3))).trans <|
    if_pos h4

variable (h4 : storedN d ≤ 256)
include h4

theorem parseContainer_sectionTruncated (h5 : len < sectionsEnd d) :
    parseContainer d len capIn capBits = .fail ⟨.sectionTruncated, sectionsEnd d⟩ :=
  (if_neg (not_lt.mpr h1)).trans <| (if_neg (not_lt.mpr h2)).trans <| (if_neg (not_not_intro (mem_widths.mp h3))).trans <|
    (if_neg (not_lt.mpr h4)).trans <| if_pos h5

theorem parseContainer_payloadTruncated (h5 : sectionsEnd d ≤ len) (h6 : len < containerEnd d) :
    parseContainer d len capIn capBits = .fail ⟨.payloadTruncated, containerEnd d⟩ :=
  (if_neg (not_lt.mpr h1)).trans <| (if_neg (not_lt.mpr h2)).trans <| (if_neg (not_not_intro (mem_widths.mp h3))).trans <|
    (if_neg (not_lt.mpr h4)).trans <| (if_neg (not_lt.mpr h5)).trans <| if_pos h6

end

/-- Checks 1 to 6 pass: the container's parts lie in the input. -/
structure PartsPresent (d : Nat → Byte) (len capIn : Nat) : Prop where
  inLen : len ≤ capIn
  header : 17 ≤ len
  width : storedWidth d ∈ [1, 2, 4, 8]
  count : storedN d ≤ 256
  sections : sectionsEnd d ≤ len
  payload : containerEnd d ≤ len

theorem PartsPresent.width_le (h : PartsPresent d len capIn) : storedWidth d ≤ 8 :=
  widths_le (mem_widths.mp h.width)

/-- Checks 7 to 9 decide where the first six pass. -/
theorem PartsPresent.parseContainer_eq (h : PartsPresent d len capIn) (capBits : Nat) :
    parseContainer d len capIn capBits = (checkEntries 0 [] none (storedEntries d)).elim
      (if sumCounts (storedEntries d) ≥ 2 ^ 64 then .fail ⟨.arith, 0⟩
        else if storedBits d > capBits then .fail ⟨.bitbuf, storedBits d⟩
        else .ok (storedContents d)) .fail := by
  obtain ⟨h1, h2, h3, h4, h5, h6⟩ := h
  simp only [parseContainer]
  rw [if_neg (not_lt.mpr h1), if_neg (not_lt.mpr h2), if_neg (not_not_intro (mem_widths.mp h3)), if_neg (not_lt.mpr h4),
    if_neg (not_lt.mpr h5), if_neg (not_lt.mpr h6), ← storedEntries]
  cases checkEntries 0 [] none (storedEntries d) <;> rfl

theorem PartsPresent.badEntry (h : PartsPresent d len capIn) {r : Raise}
    (hc : checkEntries 0 [] none (storedEntries d) = some r) : parseContainer d len capIn capBits = .fail r := by
  rw [h.parseContainer_eq, hc, Option.elim_some]

section
variable (h : PartsPresent d len capIn) (hc : checkEntries 0 [] none (storedEntries d) = none)
include h hc

theorem PartsPresent.arith (hs : 2 ^ 64 ≤ sumCounts (storedEntries d)) :
    parseContainer d len capIn capBits = .fail ⟨.arith, 0⟩ := by
  rw [h.parseContainer_eq, hc, Option.elim_none, if_pos hs]

theorem PartsPresent.bitbuf (hs : sumCounts (storedEntries d) < 2 ^ 64) (hb : capBits < storedBits d) :
    parseContainer d len capIn capBits = .fail ⟨.bitbuf, storedBits d⟩ := by
  rw [h.parseContainer_eq, hc, Option.elim_none, if_neg (not_le.mpr hs), if_pos hb]

theorem PartsPresent.accepts (hs : sumCounts (storedEntries d) < 2 ^ 64) (hb : storedBits d ≤ capBits) :
    parseContainer d len capIn capBits = .ok (storedContents d) := by
  rw [h.parseContainer_eq, hc, Option.elim_none, if_neg (not_le.mpr hs), if_neg (not_lt.mpr hb)]

end

end

/-! ### Check 7 (44_container.md R206) -/

section
variable {es : List Entry} {i : Nat}

theorem checkEntries_duplicate (hi : i < es.length) (hg : ∀ j < i, GoodEntry es j)
    (hd : ∃ x ∈ es.take i, x.sym = es[i].sym) : checkEntries 0 [] none es = some ⟨.duplicateSymbol, i⟩ := by
  rw [checkEntries_from es i hi.le hg, List.drop_eq_getElem_cons hi, checkFrom_duplicate _ _ _ hd,
    List.length_take_of_le hi.le]

theorem checkEntries_badOrder (hi : i < es.length) (hg : ∀ j < i, GoodEntry es j) {p : Entry}
    (hd : ∀ x ∈ es.take i, x.sym ≠ es[i].sym) (hp : (es.take i).getLast? = some p) (ho : ¬ entryLt p es[i]) :
    checkEntries 0 [] none es = some ⟨.badOrder, i⟩ := by
  rw [checkEntries_from es i hi.le hg, List.drop_eq_getElem_cons hi, checkFrom_badOrder _ _ _ _ hd hp ho,
    List.length_take_of_le hi.le]

theorem checkEntries_good (hg : ∀ j < es.length, GoodEntry es j) : checkEntries 0 [] none es = none := by
  rw [checkEntries_from es es.length le_rfl hg, List.drop_length]
  rfl

end

/-- Entry `i` repeats the symbol of an entry before it. -/
abbrev StoredTwice (d : Nat → Byte) (i : Nat) : Prop := ∃ j < i, d (17 + j) = d (17 + i)

/-- Entry `i` passes both tests of check 7. -/
abbrev StoredGood (d : Nat → Byte) (i : Nat) : Prop := ¬StoredTwice d i ∧ (i = 0 ∨ StoredBefore d (i - 1) i)

section
variable {d : Nat → Byte} {i : Nat}

theorem exists_mem_take_storedEntries (hi : i ≤ storedN d) :
    (∃ x ∈ (storedEntries d).take i, x.sym = d (17 + i)) ↔ StoredTwice d i := by
  simp [take_storedEntries hi, entryAt]

theorem getLast?_take_storedEntries (hi : i ≤ storedN d) (h0 : i ≠ 0) :
    ((storedEntries d).take i).getLast? = some (entryAt d (storedN d) (storedWidth d) (i - 1)) := by
  rw [take_storedEntries hi, List.getLast?_map, List.getLast?_range, if_neg h0, Option.map_some]

section
variable (hw : storedWidth d ≤ 8)
include hw

theorem goodEntry_storedEntries (hi : i < storedN d) (h : StoredGood d i) : GoodEntry (storedEntries d) i := by
  obtain ⟨hd, ho⟩ := h
  rw [GoodEntry, getElem?_storedEntries hi]
  refine ⟨fun x hx e he hs => ?_, fun p hp e he => ?_⟩
  · obtain rfl := Option.mem_some_iff.mp he
    exact hd ((exists_mem_take_storedEntries hi.le).mp ⟨x, hx, hs⟩)
  · obtain rfl := Option.mem_some_iff.mp he
    by_cases h0 : i = 0
    · subst h0
      cases hp
    · rw [getLast?_take_storedEntries hi.le h0] at hp
      obtain rfl := Option.mem_some_iff.mp hp
      exact (entryLt_entryAt_iff hw).mpr (ho.resolve_left h0)

variable (hi : i < storedN d) (hg : ∀ j < i, StoredGood d j)
include hi hg

theorem checkEntries_storedTwice (hd : StoredTwice d i) :
    checkEntries 0 [] none (storedEntries d) = some ⟨.duplicateSymbol, i⟩ := by
  have hlt : i < (storedEntries d).length := (length_storedEntries d).symm ▸ hi
  refine checkEntries_duplicate hlt (fun j hj => goodEntry_storedEntries hw (hj.trans hi) (hg j hj)) ?_
  rw [getElem_storedEntries]
  exact (exists_mem_take_storedEntries hi.le).mpr hd

theorem checkEntries_storedDisordered (hd : ¬StoredTwice d i) (h0 : i ≠ 0) (ho : ¬StoredBefore d (i - 1) i) :
    checkEntries 0 [] none (storedEntries d) = some ⟨.badOrder, i⟩ := by
  have hlt : i < (storedEntries d).length := (length_storedEntries d).symm ▸ hi
  refine checkEntries_badOrder hlt (fun j hj => goodEntry_storedEntries hw (hj.trans hi) (hg j hj)) (fun x hx hs => ?_)
    (getLast?_take_storedEntries hi.le h0) ?_
  · rw [getElem_storedEntries] at hs
    exact hd ((exists_mem_take_storedEntries hi.le).mp ⟨x, hx, hs⟩)
  · rwa [getElem_storedEntries, entryLt_entryAt_iff hw]

end

theorem checkEntries_storedGood (hw : storedWidth d ≤ 8) (hg : ∀ j < storedN d, StoredGood d j) :
    checkEntries 0 [] none (storedEntries d) = none :=
  checkEntries_good fun j hj =>
    have hlt : j < storedN d := length_storedEntries d ▸ hj
    goodEntry_storedEntries hw hlt (hg j hlt)

end

/-! ### PARSE as a command (44_container.md R205 to R207) -/

/-- The state that PARSE leaves for a container that it accepts. -/
def parsedInto (s : State) (p : Parsed) : State :=
  { s with
    slist := p.entries, freq := mirrorTable p.entries, symbolCount := BitVec.ofNat 64 p.entries.length
    bitLength := BitVec.ofNat 64 p.bits, hcWidth := BitVec.ofNat 64 p.width, payload := writePrefix p.payload s.payload
    slistV := true, payloadV := true, treeV := false, cbV := false, bitsV := false }

theorem exec_parse_accepts {s : State} {p : Parsed} (h : parsedOf s = .ok p) :
    exec .parse s = .next (parsedInto s p).succeeded := exec_single_ok rfl (parseStage_ok h)

theorem exec_parse_rejects {s : State} {c : Cause} {info : Nat} {w : Word} (h : parsedOf s = .fail ⟨c, info⟩)
    (hw : errWord 0x11#8 0x11#8 c = w) : exec .parse s = .next (s.failed w (BitVec.ofNat 64 info)) :=
  exec_single_fail_of_errWord rfl (parseStage_fail h) hw

/-- Settles O42: one answer of the parser per clause; the list, its mirror and the payload are what the bytes say. -/
theorem parseChecksAndWrites : Obligations.ParseChecksAndWrites := by
  unfold Obligations.ParseChecksAndWrites
  refine ⟨decode_encode .parse, fun s => ?_⟩
  intro N d n b w sym cnt S T dup ordered goodEntry sum
  have hN : BitVec.ofNat 64 N = s.inLen := by rw [BitVec.ofNat_toNat, BitVec.setWidth_eq]
  refine ⟨fun h1 => ?_, fun h1 => ⟨fun h2 => ?_, fun h2 => ⟨fun h3 => ?_, fun h3 => ⟨fun h4 => ?_, fun h4 =>
    ⟨fun h5 => ?_, fun h5 => ⟨fun h6 => ?_, fun h6 => ?_⟩⟩⟩⟩⟩⟩
  · exact hN ▸ exec_parse_rejects (parseContainer_inLen h1) rfl
  · exact hN ▸ exec_parse_rejects (parseContainer_headerTruncated h1 h2) rfl
  · exact exec_parse_rejects (parseContainer_badWidth h1 h2 h3) rfl
  · exact exec_parse_rejects (parseContainer_countTooLarge h1 h2 h3 h4) rfl
  · exact exec_parse_rejects (parseContainer_sectionTruncated h1 h2 h3 h4 h5) rfl
  · exact exec_parse_rejects (parseContainer_payloadTruncated h1 h2 h3 h4 h5 h6) rfl
  have hp : PartsPresent d N s.capIn.toNat := ⟨h1, h2, h3, h4, h5, h6⟩
  have hw := hp.width_le
  refine ⟨fun i hi hg hd => ?_, fun i hi hg hd h0 ho => ?_, fun hg => ?_⟩
  · exact exec_parse_rejects (hp.badEntry (checkEntries_storedTwice hw hi hg hd)) rfl
  · exact exec_parse_rejects (hp.badEntry (checkEntries_storedDisordered hw hi hg hd h0 ho)) rfl
  have hc := checkEntries_storedGood hw hg
  have hsum : sumCounts (storedEntries d) = sum := sumCounts_storedEntries hw
  refine ⟨fun hs => ?_, fun hs hb => ?_, fun hs hb => ?_⟩
  · exact exec_parse_rejects (hp.arith hc (hs.trans_eq hsum.symm)) rfl
  · exact exec_parse_rejects (hp.bitbuf hc (hsum.trans_lt hs) hb) rfl
  have hmirror := freqAgrees_mirrorTable ((checkEntries_none _).mp hc).1
  refine ⟨storedEntries d, mirrorTable (storedEntries d), writePrefix (bytesAt d S (ceil8 b)) s.payload, ?_,
    length_storedEntries d, fun i => getElem?_storedEntries, hmirror.full, fun i hi => ?_, fun c hcs => ?_, fun k hk => ?_,
    fun k hk => ?_⟩
  · rw [exec_parse_accepts (hp.accepts hc (hsum.trans_lt hs) hb)]
    simp only [parsedInto, storedContents, length_storedEntries]
    rfl
  · exact hmirror.listed _ (List.mem_of_getElem? (getElem?_storedEntries hi))
  · refine hmirror.absent c fun e he => ?_
    obtain ⟨i, hi, rfl⟩ := mem_storedEntries.mp he
    exact hcs i hi
  · rw [getElem?_writePrefix, length_bytesAt, if_pos hk, getElem?_bytesAt hk]
  · rw [getElem?_writePrefix, length_bytesAt, if_neg (Nat.not_lt.mpr hk)]

/-! ### PARSE and SERIALIZE undo each other (44_container.md R208) -/

/-- The bytes that SERIALIZE writes are the container's. -/
theorem readOut_serialized {s : State} {a : Nat} (ha : a < serializedLength s) :
    some (readOut (serialized s) a) = (serializedBytes s)[a]? := by
  have hlt : a < (serializedBytes s).length := (length_serializedBytes s).symm ▸ ha
  rw [readOut, read_serialized, if_pos ha, List.getElem?_eq_getElem hlt, Option.getD_some]

/-- OUT_LEN counts the bytes of a container that fits. -/
theorem toNat_outLen_serialized {s : State} (h : serializedLength s ≤ s.capOut.toNat) :
    (serialized s).outLen.toNat = serializedLength s := toNat_ofNat_of_le h

/-- Completion leaves OUT_MEM. -/
theorem readOut_succeeded (s : State) (a : Nat) : readOut s.succeeded a = readOut s a := rfl

/-- SERIALIZE as HOST sees it: OUT_LEN, HC_WIDTH and the bytes of the container. -/
theorem exec_serialize_bytes {s : State} (h1 : s.slistV = true) (h2 : s.payloadV = true)
    (h3 : serializedLength s ≤ s.capOut.toNat) : ∃ t, exec .serialize s = .next t ∧
      t.outLen = BitVec.ofNat 64 (serializedLength s) ∧ t.hcWidth = BitVec.ofNat 64 (minWidth (maxCount s.slist)) ∧
      ∀ a < serializedLength s, some (readOut t a) = (serializedBytes s)[a]? := by
  refine ⟨_, exec_serialize_fits h1 h2 h3, rfl, rfl, fun a ha => ?_⟩
  rw [readOut_succeeded, readOut_serialized ha]

/-- A SERIALIZE that ran to its end wrote the container. -/
theorem serializeStage_inv {s t : State} (h : serializeStage s = .ok t) :
    s.slistV = true ∧ s.payloadV = true ∧ serializedLength s ≤ s.capOut.toNat ∧ t = serialized s := by
  rcases serializeStage_cases s with ⟨e, he⟩ | ⟨h1, h2, h3⟩
  · cases he.symm.trans h
  · exact ⟨h1, h2, h3, StageOut.ok.inj (h.symm.trans (serializeStage_ok h1 h2 h3))⟩

/-- A PARSE that completed with DONE accepted the container. -/
theorem exec_parse_done {s t : State} (hs : s.done = false) (h : exec .parse s = .next t) (ht : t.done = true) :
    ∃ p, parsedOf s = .ok p ∧ t = (parsedInto s p).succeeded := by
  cases hp : parsedOf s with
  | fail r =>
    obtain rfl := Host.Outcome.next.inj (h.symm.trans (exec_parse_rejects (c := r.cause) (info := r.info) hp rfl))
    exact absurd (hs.symm.trans ht) Bool.false_ne_true
  | ok p => exact ⟨p, rfl, Host.Outcome.next.inj (h.symm.trans (exec_parse_accepts hp))⟩

/-- The stream length of an accepted container fits BIT_LENGTH. -/
theorem toNat_bitLength_parsedInto {s : State} {p : Parsed} (h : parsedOf s = .ok p) :
    (parsedInto s p).bitLength.toNat = p.bits := by
  obtain ⟨ha, -⟩ := parseContainer_ok h
  exact Nat.mod_eq_of_lt ha.bitsWord

/-- PAYLOAD after PARSE holds the container's payload. -/
theorem payloadOf_parsedInto {s : State} {p : Parsed} (h : parsedOf s = .ok p) :
    payloadOf (parsedInto s p).succeeded = p.payload := by
  obtain ⟨ha, -⟩ := parseContainer_ok h
  exact payloadOf_writePrefix _ _ s.payload rfl (ha.payload.trans (congrArg ceil8 (toNat_bitLength_parsedInto h).symm))

/-- The container with given contents at the minimal width. -/
def minimalBytes (p : Parsed) : List Byte := containerBytes p.entries (minWidth (maxCount p.entries)) p.bits p.payload

/-- What SERIALIZE reads of a state. -/
def serializedParts (s : State) : Parsed :=
  { width := minWidth (maxCount s.slist), bits := s.bitLength.toNat, entries := s.slist, payload := payloadOf s }

theorem serializedBytes_parsedInto {s : State} {p : Parsed} (h : parsedOf s = .ok p) :
    serializedBytes (parsedInto s p).succeeded = minimalBytes p := by
  rw [serializedBytes, payloadOf_parsedInto h]
  exact congrArg (containerBytes p.entries (minWidth (maxCount p.entries)) · p.payload) (toNat_bitLength_parsedInto h)

/-- SERIALIZE after PARSE writes what was parsed, at the minimal width. -/
theorem exec_serialize_parsedInto {s : State} {p : Parsed} (h : parsedOf s = .ok p)
    (hfit : (minimalBytes p).length ≤ s.capOut.toNat) : ∃ t, exec .serialize (parsedInto s p).succeeded = .next t ∧
      t.outLen = BitVec.ofNat 64 (minimalBytes p).length ∧ t.hcWidth = BitVec.ofNat 64 (minWidth (maxCount p.entries)) ∧
      ∀ a < (minimalBytes p).length, some (readOut t a) = (minimalBytes p)[a]? := by
  have hbytes := serializedBytes_parsedInto h
  have hlen : (minimalBytes p).length = serializedLength (parsedInto s p).succeeded := by
    rw [← hbytes, length_serializedBytes]
  rw [hlen] at hfit ⊢
  rw [← hbytes]
  exact exec_serialize_bytes rfl rfl hfit

/-- PARSE of a container that SERIALIZE wrote. -/
theorem parsedOf_serialized {s u : State} (hi : Inv s) (hv : s.slistV = true) (hlen : u.inLen.toNat = serializedLength s)
    (hin : u.inLen.toNat ≤ u.capIn.toNat) (hbits : s.bitLength.toNat ≤ u.capBits.toNat)
    (hbytes : ∀ a < serializedLength s, readIn u a = readOut (serialized s) a) : parsedOf u = .ok (serializedParts s) := by
  refine parseContainer_containerBytes (minWidth_cases _) hi.data.listShort s.bitLength.isLt (hi.data.list hv).1
    (fun e he => lt_pow_minWidth (le_maxCount he) (maxCount_lt _)) (length_payloadOf s) hlen.ge hin hbits fun a ha => ?_
  have hlt : a < serializedLength s := length_serializedBytes s ▸ ha
  rw [hbytes a hlt]
  exact Option.some.inj ((readOut_serialized hlt).trans (List.getElem?_eq_getElem ha))

/-- A container with the fields of a stored one, at another width. -/
theorem containerBytes_storedEntries {d : Nat → Byte} (hw : storedWidth d ≤ 8) (w b : Nat) (payload : List Byte) :
    containerBytes (storedEntries d) w b payload =
      bigEndian 8 (storedN d) ++ bigEndian 8 b ++ [BitVec.ofNat 8 w] ++ bytesAt d 17 (storedN d) ++
        (List.range (storedN d)).flatMap (fun i => bigEndian w (storedCount d i)) ++ payload := by
  have hcounts : (storedEntries d).flatMap (fun e => bigEndian w e.cnt.toNat) =
      (List.range (storedN d)).flatMap (fun i => bigEndian w (storedCount d i)) := by
    simp only [storedEntries, List.flatMap_map, toNat_cnt_entryAt hw]
  rw [containerBytes, length_storedEntries, map_sym_storedEntries, hcounts]

/-- Settles O43: the parser reads back what the serializer wrote, and the serializer writes what the parser read. -/
theorem parseInvertsSerialize : Obligations.ParseInvertsSerialize := by
  unfold Obligations.ParseInvertsSerialize
  refine ⟨fun s t hi hv hpv ht u hlen hin hbits hout hbytes => ?_, fun u v hd hv hdone => ?_⟩
  · obtain ⟨-, -, hfit, rfl⟩ := serializeStage_inv ht
    have hcount := toNat_outLen_serialized hfit
    rw [hcount] at hout hbytes ⊢
    have hp := parsedOf_serialized hi hv (hlen ▸ hcount) hin hbits hbytes
    have hsame : (minimalBytes (serializedParts s)).length = serializedLength s := length_serializedBytes s
    obtain ⟨w, hw, hwlen, -, hwbytes⟩ := exec_serialize_parsedInto hp (hsame.trans_le hout)
    have hb : BitVec.ofNat 64 s.bitLength.toNat = s.bitLength := by rw [BitVec.ofNat_toNat, BitVec.setWidth_eq]
    rw [hsame] at hwlen hwbytes
    exact ⟨_, w, exec_parse_accepts hp, rfl, hb, payloadOf_parsedInto hp, hw, hwlen,
      fun a ha => Option.some.inj ((hwbytes a ha).trans (readOut_serialized ha).symm)⟩
  · obtain ⟨p, hp, rfl⟩ := exec_parse_done hd hv hdone
    intro d n b w cnt width out
    obtain rfl : p = storedContents d := parseContainer_contents hp
    obtain ⟨haccepted, -⟩ := parseContainer_ok hp
    have hw : storedWidth d ≤ 8 := widths_le haccepted.width
    have hwidth : minWidth (maxCount (storedEntries d)) = width := congrArg minWidth (maxCount_storedEntries hw)
    have hbytes : minimalBytes (storedContents d) = out := by
      rw [minimalBytes]
      exact hwidth ▸ containerBytes_storedEntries hw ..
    rw [← hbytes, ← hwidth]
    refine ⟨?_, exec_serialize_parsedInto hp⟩
    calc (minimalBytes (storedContents d)).length
      _ = containerLength (storedEntries d).length (minWidth (maxCount (storedEntries d))) b :=
        length_containerBytes _ _ _ _ haccepted.payload
      _ = 17 + n + n * minWidth (maxCount (storedEntries d)) + ceil8 b := by rw [length_storedEntries, containerLength]

end Sys2Proof.Machine
end

section
/-! PROOFS. The statements of 45_decoder.md R230 to R233: what WALK makes of a stream of whole codes, and of one that
goes on after them. -/

namespace Sys2Proof.Machine

/-! ### Walking whole codes (45_decoder.md R231) -/

/-- The walk of whole codes that fit emits their symbols, and what follows them is walked from the root on. -/
theorem walkOf_append {s : State} {t : HTree} (ht : Stands s.nodes (s.nodeCount.toNat - 1) t) {code : Byte → List Bool}
    {syms : List Byte} (hc : ∀ c ∈ syms, (c, code c) ∈ t.codes) (hfit : syms.length ≤ s.capOut.toNat) {more : List Bool}
    (hs : streamOf s = syms.flatMap code ++ more) :
    walkOf s = walkBits s.nodes (s.nodeCount.toNat - 1) s.capOut.toNat (syms.flatMap code).length more
      ⟨s.nodeCount.toNat - 1, syms.length, s.outMem.writeAll 0 syms⟩ := by
  have hwhole := walkBits_stream ht code s.capOut.toNat syms hc 0 0 ((Nat.zero_add _).trans_le hfit) s.outMem
  rw [codeStream, Nat.zero_add] at hwhole
  rw [walkOf, hs, walkBits_append, hwhole, Nat.zero_add]

/-- The state that WALK leaves for a stream of whole codes. -/
def walked (s : State) (syms : List Byte) : State :=
  { s with
    outMem := s.outMem.writeAll 0 syms, outLen := BitVec.ofNat 64 syms.length
    walkNode := s.nodeCount.toNat - 1, walkCount := syms.length }

theorem walkStage_whole {s : State} (h1 : s.treeV = true) (h2 : s.bitsV = true) (h3 : s.nodeCount.toNat ≠ 0) {t : HTree}
    (ht : Stands s.nodes (s.nodeCount.toNat - 1) t) {code : Byte → List Bool} {syms : List Byte}
    (hc : ∀ c ∈ syms, (c, code c) ∈ t.codes) (hfit : syms.length ≤ s.capOut.toNat)
    (hs : streamOf s = syms.flatMap code) : walkStage s = .ok (walked s syms) :=
  walkStage_ok h1 h2 h3 (walkOf_append ht hc hfit (hs.trans (List.append_nil _).symm)) rfl

/-- OUT_MEM after WALK: the symbols, and above them what it held. -/
theorem read_walked (s : State) (syms : List Byte) (a : Nat) : (walked s syms).outMem.read a =
    if a < syms.length then syms[a]? else s.outMem.read a := by
  simp only [walked, Memory.read_writeAll, Nat.zero_le, true_and, Nat.zero_add, Nat.sub_zero]

/-- The tree that TREE_V says there is (10_state.md R39 (b)), with the codes that CODEBOOK gives. -/
theorem Inv.exists_walkTree {s : State} (hi : Inv s) (hv : s.treeV = true) (hn : s.nodeCount ≠ 0#64) :
    s.nodeCount.toNat ≠ 0 ∧ ∃ t, Stands s.nodes (s.nodeCount.toNat - 1) t ∧
      CodeTree s.slist (codebookOf s.nodes s.nodeCount.toNat) t := by
  have hpos : s.nodeCount.toNat ≠ 0 := fun h => hn (BitVec.eq_of_toNat_eq h)
  obtain ⟨hcount, hnodes, -, -⟩ := hi.tree_eq hv
  have hne : s.slist ≠ [] := fun h => hpos (by rw [hcount, h]; rfl)
  have hcodes : ListCodes s.slist (codebookOf s.nodes s.nodeCount.toNat) := hi.tree_codes hv
  obtain ⟨t, ht⟩ := hcodes.exists_codeTree hne
  have hstands := ht.stands
  rw [← hnodes, ← hcount] at hstands
  exact ⟨hpos, t, hstands, ht⟩

theorem CodeTree.mem_codes_of_ne_nil {es : List Entry} {cb : List (List Bool)} {t : HTree} (h : CodeTree es cb t) {b : Byte}
    (hb : codeIn cb b ≠ []) : (b, codeIn cb b) ∈ t.codes := h.mem_codes (h.codeIn_ne_nil.mp hb)

/-- A walk that failed under way (R231's `fail`), with the value of its ERR word. -/
theorem exec_walk_fails {s : State} {c : Cause} {info : Nat} {w v : Word} (h : walkStage s = .fail ⟨c, info⟩ s.walkFailed)
    (hw : errWord 0x13#8 0x13#8 c = w) (hv : BitVec.ofNat 64 info = v) : ∃ (m : Memory) (e n : Nat),
      exec .walk s = .next { s.failed w v with outLen := 0#64, outMem := m, outEpoch := e, draws := n } := by
  subst hv
  exact ⟨[], s.draws, s.draws + 1, exec_single_fail_of_errWord (i := .walk) (st := .walk) rfl h hw⟩

/-- Settles O44: one answer of the stage per clause; each whole code leads from the root to its symbol's leaf. -/
theorem walkDecodesTheStream : Obligations.WalkDecodesTheStream := by
  unfold Obligations.WalkDecodesTheStream
  refine ⟨decode_encode .walk, fun s => ⟨fun h => ?_, fun h1 h2 => ?_, fun h1 h2 h3 h4 => ?_, fun h1 h2 h3 h4 => ?_⟩,
    fun s hi h1 h2 hn syms hc hs hfit => ?_⟩
  · exact exec_single_fail_of_errWord rfl (walkStage_noTree h) rfl
  · exact exec_single_fail_of_errWord rfl (walkStage_noBits h1 h2) rfl
  · exact exec_single_ok rfl (walkStage_absent_ok h1 h2 (congrArg BitVec.toNat h3) (congrArg BitVec.toNat h4))
  · have h4' : s.bitLength.toNat ≠ 0 := fun h => h4 (BitVec.eq_of_toNat_eq h)
    exact exec_walk_fails (walkStage_absent_fail h1 h2 (congrArg BitVec.toNat h3) h4') rfl rfl
  · obtain ⟨h3, t, hstands, ht⟩ := hi.exists_walkTree h1 hn
    have hmem := fun c h => ht.mem_codes_of_ne_nil (hc c h)
    exact ⟨(walked s syms).outMem, exec_single_ok rfl (walkStage_whole h1 h2 h3 hstands hmem hfit hs),
      fun a ha => (read_walked s syms a).trans (if_pos ha),
      fun a ha => (read_walked s syms a).trans (if_neg (Nat.not_lt.mpr ha))⟩

/-! ### The walks that fail (45_decoder.md R231 to R233) -/

/-- Part of a code leads to a node below the root. A one-leaf tree has no such part: its code is one bit. -/
theorem walkBits_code_partial {nodes : List Node} {root : Nat} {t : HTree} (h : Stands nodes root t) (cap j : Nat)
    {c : Byte × List Bool} (hc : c ∈ t.codes) {part : List Bool} (hp : part <+: c.2) (hne : part ≠ c.2) (h0 : part ≠ [])
    (k : Nat) (m : Memory) : ∃ y < root, walkBits nodes root cap j part ⟨root, k, m⟩ = .ok ⟨y, k, m⟩ := by
  cases t with
  | leaf s n =>
    obtain rfl := List.mem_singleton.mp hc
    have hlen : part.length < 1 := lt_of_le_of_ne hp.length_le fun e => hne (hp.eq_of_length e)
    exact absurd (List.length_eq_zero_iff.mp (Nat.lt_one_iff.mp hlen)) h0
  | node l r =>
    obtain ⟨y, hy, -, hlt⟩ := walkBits_partial h root cap j hc hp hne k m
    exact ⟨y, hlt h0, hy⟩

/-- Settles O45: after the whole codes the walk stands at the root, and what follows them decides. -/
theorem walkErrors : Obligations.WalkErrors := by
  unfold Obligations.WalkErrors
  intro s hi h1 h2 hn code failedWalk
  obtain ⟨h3, t, hstands, ht⟩ := hi.exists_walkTree h1 hn
  have hmem : ∀ {b : Byte}, code b ≠ [] → (b, code b) ∈ t.codes := ht.mem_codes_of_ne_nil
  refine ⟨fun syms c part hc hfit h0 hp hne hs => ?_, fun syms more hc hsole hfit hs => ?_, fun syms more hc hlen hs => ?_⟩
  · have hcode : code c ≠ [] := fun e => h0 (List.prefix_nil.mp (e ▸ hp))
    have hwalk := walkOf_append hstands (fun b hb => hmem (hc b hb)) hfit hs
    obtain ⟨y, hy, hpart⟩ := walkBits_code_partial hstands s.capOut.toNat (syms.flatMap code).length (hmem hcode) hp hne h0
      syms.length (s.outMem.writeAll 0 syms)
    exact exec_walk_fails (walkStage_incomplete h1 h2 h3 (hwalk.trans hpart) hy.ne) rfl
      (by rw [BitVec.ofNat_toNat, BitVec.setWidth_eq])
  · rw [hi.data.listLength] at hsole
    have hbit : ∀ b ∈ syms, (code b).length = 1 := fun b hb => by
      obtain ⟨e, he, rfl⟩ := ht.codeIn_ne_nil.mp (hc b hb)
      exact congrArg List.length (ht.codeIn_sole hsole he)
    have hindex : (syms.flatMap code).length = syms.length := by rw [length_flatMap_const syms code 1 hbit, Nat.mul_one]
    have hwalk := walkOf_append hstands (fun b hb => hmem (hc b hb)) hfit hs
    obtain ⟨sym, n, rfl⟩ := ht.sole hsole
    exact exec_walk_fails (walkStage_fail h1 h2 h3 (hwalk.trans (walkBits_noChild hstands ..))) rfl (by rw [hindex])
  · obtain rfl | ⟨first, last, rfl⟩ := syms.eq_nil_or_concat'
    · cases hlen
    have hfirst : first.length = s.capOut.toNat := by simpa using hlen
    rw [List.flatMap_append, List.flatMap_singleton, List.append_assoc] at hs
    have hwalk := walkOf_append hstands (fun b hb => hmem (hc b (List.mem_append_left _ hb))) hfirst.le hs
    rw [walkBits_append, walkBits_code_full hstands _ _ (hmem (hc last (by simp))) _ hfirst.ge] at hwalk
    exact exec_walk_fails (walkStage_fail h1 h2 h3 hwalk) rfl (by rw [hfirst, BitVec.ofNat_toNat, BitVec.setWidth_eq])

end Sys2Proof.Machine
end

section
/-! PROOFS. The statement of 45_decoder.md R234, that DECODE gives back what ENCODE was given: what ENCODE's stages leave for an
input, what DECODE's leave for a container, and the walk of the stream that ENCODE made. -/

namespace Sys2Proof.Machine

/-! ### The codebook of an input (42_codebook.md R171) -/

theorem listCodes_codebookFor {bytes : List Byte} (hb : bytes.length < 2 ^ 64) :
    ListCodes (freqList bytes) (codebookFor (freqList bytes)) :=
  codes_of_list (length_freqList_le bytes) (listOk_freqList hb)

/-- Every byte of an input is on its frequency list, so it has a code. -/
theorem codeIn_codebookFor_ne_nil {bytes : List Byte} (hb : bytes.length < 2 ^ 64) {b : Byte} (h : b ∈ bytes) :
    codeIn (codebookFor (freqList bytes)) b ≠ [] :=
  (listCodes_codebookFor hb).codeIn_ne_nil.mpr ⟨⟨b, BitVec.ofNat 64 (bytes.count b)⟩, mem_freqList.mpr ⟨h, rfl⟩, rfl⟩

theorem freqList_eq_nil {bytes : List Byte} : freqList bytes = [] ↔ bytes = [] := by
  refine ⟨fun h => List.eq_nil_iff_forall_not_mem.mpr fun b hb => ?_, fun h => h ▸ rfl⟩
  have he : (⟨b, BitVec.ofNat 64 (bytes.count b)⟩ : Entry) ∈ freqList bytes := mem_freqList.mpr ⟨hb, rfl⟩
  rw [h] at he
  cases he

/-! ### The stages of ENCODE (46_composite.md R240) -/

/-- The stream of an input under its own codebook. -/
def inputStream (s : State) : List Bool := (inBytes s).flatMap (codeIn (codebookFor (freqList (inBytes s))))

/-- The state that ENCODE's stages before SERIALIZE leave. -/
def inputCoded (s : State) : State := streamed (analyzed s (inBytes s)) (inputStream s)

theorem stagesOf_encode {i : Instr} (hi : i ∈ [Instr.encode, Instr.encodeH]) :
    i.opcode = 0x20#8 ∧ ∃ heap, stagesOf i = encodeStages heap := by
  obtain rfl | rfl : i = .encode ∨ i = .encodeH := by simpa using hi
  · exact ⟨rfl, false, rfl⟩
  · exact ⟨rfl, true, rfl⟩

theorem codeOf_analyzed (s : State) (bytes : List Byte) : codeOf (analyzed s bytes) = codeIn (codebookFor (freqList bytes)) :=
  codeOf_eq (length_codebookOf ..)

theorem codeStream_analyzed (s : State) :
    codeStream (codeOf (analyzed s (inBytes s))) (inBytes (analyzed s (inBytes s))) = inputStream s := by
  rw [codeOf_analyzed]; rfl

/-- No byte of the input misses its code. -/
theorem firstMiss_analyzed (s : State) :
    firstMiss (codeOf (analyzed s (inBytes s))) 0 (inBytes (analyzed s (inBytes s))) = none := by
  rw [codeOf_analyzed]
  exact (firstMiss_eq_none ..).mpr fun b hb => codeIn_codebookFor_ne_nil (length_inBytes_lt s) hb

/-- CODE of the analyzed input. -/
theorem codeStage_analyzed {s : State} (h1 : s.inLen.toNat ≤ s.capIn.toNat)
    (h2 : (inputStream s).length ≤ s.capBits.toNat) : codeStage (analyzed s (inBytes s)) = .ok { analyzed s (inBytes s) with
      bitbuf := writePrefix (inputStream s) s.bitbuf, bitLength := BitVec.ofNat 64 (inputStream s).length
      bitsV := true, payloadV := false } := by
  have h := codeStage_ok (s := analyzed s (inBytes s)) rfl h1 (firstMiss_analyzed s) (by rwa [codeStream_analyzed])
  rwa [codeStream_analyzed] at h

theorem codeStage_analyzed_bitbuf {s : State} (h1 : s.inLen.toNat ≤ s.capIn.toNat)
    (h2 : s.capBits.toNat < (inputStream s).length) :
    codeStage (analyzed s (inBytes s)) = .fail ⟨.bitbuf, (inputStream s).length⟩ (analyzed s (inBytes s)) := by
  have h := codeStage_bitbuf (s := analyzed s (inBytes s)) rfl h1 (firstMiss_analyzed s) (by rwa [codeStream_analyzed])
  rwa [codeStream_analyzed] at h

theorem blind_codeToSerialize :
    ∀ p ∈ [(StageName.code, codeStage), (.pack, packStage), (.serialize, serializeStage)], Blind p.2 :=
  blind_cons blind_code (blind_cons blind_pack (blind_cons blind_serialize (List.forall_mem_nil _)))

/-- FREQ to PACK of an input that fits, in ENCODE. -/
theorem finish_inputCoded (opcode : Byte) (heap : Bool) {s : State} (h1 : s.inLen.toNat ≤ s.capIn.toNat)
    (h2 : (inputStream s).length ≤ s.capBits.toNat) : finish opcode (runStages 0 (encodeStages heap) s) =
      finish opcode (runStages 5 [(.serialize, serializeStage)] (inputCoded s)) := by
  obtain ⟨-, hpack⟩ := List.forall_mem_cons.mp blind_codeToSerialize
  rw [encodeStages, finish_analyzed opcode heap _ blind_codeToSerialize s h1,
    finish_ok blind_codeToSerialize codeStage_law opcode 3 (codeStage_analyzed h1 h2),
    finish_ok hpack packStage_law opcode 4 (packStage_ok rfl),
    streamOf_writePrefix _ (inputStream s) s.bitbuf rfl (toNat_ofNat_of_le h2).symm]
  rfl

/-- ENCODE of an input whose stream does not fit BITBUF. -/
theorem finish_encode_bitbuf (opcode : Byte) (heap : Bool) {s : State} (h1 : s.inLen.toNat ≤ s.capIn.toNat)
    (h2 : s.capBits.toNat < (inputStream s).length) : finish opcode (runStages 0 (encodeStages heap) s) =
      (analyzed s (inBytes s)).failed (errWord opcode 0x04#8 .bitbuf) (BitVec.ofNat 64 (inputStream s).length) := by
  rw [encodeStages, finish_analyzed opcode heap _ blind_codeToSerialize s h1,
    finish_fail blind_code codeStage_law opcode 3 (codeStage_analyzed_bitbuf h1 h2)]
  rfl

/-- ENCODE of an input whose container does not fit OUT_MEM. -/
theorem finish_encode_out (opcode : Byte) (heap : Bool) {s : State} (h1 : s.inLen.toNat ≤ s.capIn.toNat)
    (h2 : (inputStream s).length ≤ s.capBits.toNat) (h3 : s.capOut.toNat < serializedLength (inputCoded s)) :
    finish opcode (runStages 0 (encodeStages heap) s) =
      (inputCoded s).failed (errWord opcode 0x06#8 .out) (BitVec.ofNat 64 (serializedLength (inputCoded s))) := by
  rw [finish_inputCoded opcode heap h1 h2,
    finish_fail blind_serialize serializeStage_law opcode 5 (serializeStage_out rfl rfl h3)]
  rfl

/-- A command whose last stage ran to its end completes with DONE. -/
theorem finish_last_ok {st : StageName} {run : State → StageOut} (hb : Blind run) (hl : StageLaw run) (opcode : Byte) (k : Nat)
    {s t : State} (h : run s = .ok t) : finish opcode (runStages k [(st, run)] s) = t.succeeded :=
  finish_ok (blind_cons hb (List.forall_mem_nil _)) hl opcode k h

theorem serializeStage_fits {s : State} (h1 : s.slistV = true) (h2 : s.payloadV = true)
    (h3 : serializedLength s ≤ s.capOut.toNat) : serializeStage s = .ok (serialized s) := serializeStage_ok h1 h2 h3

/-- ENCODE of an input within the three limits. -/
theorem finish_encode_fits (opcode : Byte) (heap : Bool) {s : State} (h1 : s.inLen.toNat ≤ s.capIn.toNat)
    (h2 : (inputStream s).length ≤ s.capBits.toNat) (h3 : serializedLength (inputCoded s) ≤ s.capOut.toNat) :
    finish opcode (runStages 0 (encodeStages heap) s) = (serialized (inputCoded s)).succeeded := by
  rw [finish_inputCoded opcode heap h1 h2,
    finish_last_ok blind_serialize serializeStage_law opcode 5 (serializeStage_fits rfl rfl h3)]

/-- An ENCODE that completed with DONE met all three limits and wrote the container. -/
theorem exec_encode_done {i : Instr} (hi : i ∈ [Instr.encode, Instr.encodeH]) {s t : State} (hs : s.done = false)
    (h : exec i s = .next t) (ht : t.done = true) : (inputStream s).length ≤ s.capBits.toNat ∧
      serializedLength (inputCoded s) ≤ s.capOut.toNat ∧ t = (serialized (inputCoded s)).succeeded := by
  obtain ⟨-, heap, hstages⟩ := stagesOf_encode hi
  rw [exec_eq, hstages] at h
  obtain rfl := Host.Outcome.next.inj h
  have hnot : s.done ≠ true := Bool.eq_false_iff.mp hs
  rcases Nat.lt_or_ge s.capIn.toNat s.inLen.toNat with h1 | h1
  · rw [encodeStages, finish_freq_fail _ _ s h1] at ht
    exact absurd ht hnot
  rcases Nat.lt_or_ge s.capBits.toNat (inputStream s).length with h2 | h2
  · rw [finish_encode_bitbuf _ heap h1 h2] at ht
    exact absurd ht hnot
  rcases Nat.lt_or_ge s.capOut.toNat (serializedLength (inputCoded s)) with h3 | h3
  · rw [finish_encode_out _ heap h1 h2 h3] at ht
    exact absurd ht hnot
  · exact ⟨h2, h3, finish_encode_fits _ heap h1 h2 h3⟩

/-! ### The stages of DECODE (46_composite.md R241) -/

/-- The state that DECODE's stages before WALK leave. -/
def unpacked (s : State) (p : Parsed) : State :=
  { rebuilt s p with bitbuf := writePrefix (unpack p.payload p.bits) s.bitbuf, bitsV := true }

theorem stagesOf_decode {i : Instr} (hi : i ∈ [Instr.decode, Instr.decodeH]) :
    i.opcode = 0x21#8 ∧ ∃ heap, stagesOf i = decodeStages heap := by
  obtain rfl | rfl : i = .decode ∨ i = .decodeH := by simpa using hi
  · exact ⟨rfl, false, rfl⟩
  · exact ⟨rfl, true, rfl⟩

theorem toNat_bitLength_rebuilt {s : State} {p : Parsed} (h : parsedOf s = .ok p) : (rebuilt s p).bitLength.toNat = p.bits :=
  toNat_bitLength_parsedInto h

/-- UNPACK of the rebuilt container. -/
theorem unpackStage_rebuilt {s : State} {p : Parsed} (h : parsedOf s = .ok p) :
    unpackStage (rebuilt s p) = .ok (unpacked s p) := by
  have hpayload : payloadOf (rebuilt s p) = p.payload := payloadOf_parsedInto h
  rw [unpackStage_ok rfl, hpayload, toNat_bitLength_rebuilt h]
  rfl

/-- PARSE, BUILD and UNPACK of a container that PARSE accepts, in DECODE. -/
theorem finish_unpacked (opcode : Byte) (heap : Bool) {s : State} {p : Parsed} (h : parsedOf s = .ok p) :
    finish opcode (runStages 0 (decodeStages heap) s) = finish opcode (runStages 3 [(.walk, walkStage)] (unpacked s p)) := by
  have hwalk := blind_cons (p := (.walk, walkStage)) blind_walk (List.forall_mem_nil _)
  have hunpack := blind_cons (p := (.unpack, unpackStage)) blind_unpack hwalk
  rw [decodeStages, finish_rebuilt opcode heap _ hunpack h,
    finish_ok hunpack unpackStage_law opcode 2 (unpackStage_rebuilt h)]

theorem streamOf_unpacked {s : State} {p : Parsed} (h : parsedOf s = .ok p) :
    streamOf (unpacked s p) = unpack p.payload p.bits :=
  streamOf_writePrefix _ _ s.bitbuf rfl ((length_unpack ..).trans (toNat_bitLength_rebuilt h).symm)

/-- DECODE of a container whose walk runs to its end. -/
theorem exec_decode_walked {i : Instr} (hi : i ∈ [Instr.decode, Instr.decodeH]) {s t : State} {p : Parsed}
    (h : parsedOf s = .ok p) (hw : walkStage (unpacked s p) = .ok t) : exec i s = .next t.succeeded := by
  obtain ⟨-, heap, hstages⟩ := stagesOf_decode hi
  rw [exec_eq, hstages, finish_unpacked _ heap h, finish_last_ok blind_walk walkStage_law _ 3 hw]

/-! ### The round trip (45_decoder.md R234) -/

/-- What ENCODE's container holds. -/
def encodedParts (s : State) : Parsed :=
  { width := minWidth (maxCount (freqList (inBytes s))), bits := (inputStream s).length, entries := freqList (inBytes s)
    payload := pack (inputStream s) }

theorem serializedParts_inputCoded {s : State} (h : (inputStream s).length ≤ s.capBits.toNat) :
    serializedParts (inputCoded s) = encodedParts s := by
  have hbits : (inputCoded s).bitLength.toNat = (inputStream s).length := toNat_ofNat_of_le h
  have hpayload : payloadOf (inputCoded s) = pack (inputStream s) :=
    payloadOf_writePrefix _ _ s.payload rfl (by rw [length_pack, hbits])
  rw [serializedParts, hbits, hpayload]
  rfl

/-- PARSE of a container that SERIALIZE wrote from a list in good order, in any state. -/
theorem parsedOf_serialized_of_listOk {s u : State} (hn : s.slist.length ≤ 256) (hl : ListOk s.slist)
    (hlen : u.inLen.toNat = serializedLength s) (hin : u.inLen.toNat ≤ u.capIn.toNat)
    (hbits : s.bitLength.toNat ≤ u.capBits.toNat)
    (hbytes : ∀ a < serializedLength s, readIn u a = readOut (serialized s) a) : parsedOf u = .ok (serializedParts s) := by
  refine parseContainer_containerBytes (minWidth_cases _) hn s.bitLength.isLt hl
    (fun e he => lt_pow_minWidth (le_maxCount he) (maxCount_lt _)) (length_payloadOf s) hlen.ge hin hbits fun a ha => ?_
  have hlt : a < serializedLength s := length_serializedBytes s ▸ ha
  exact (hbytes a hlt).trans (Option.some.inj ((readOut_serialized hlt).trans (List.getElem?_eq_getElem ha)))

/-- PARSE of ENCODE's container. -/
theorem parsedOf_encoded {s u : State} (hstream : (inputStream s).length ≤ s.capBits.toNat)
    (hfit : serializedLength (inputCoded s) ≤ s.capOut.toNat) (hlen : u.inLen = (serialized (inputCoded s)).outLen)
    (hin : u.inLen.toNat ≤ u.capIn.toNat) (hbits : (inputCoded s).bitLength.toNat ≤ u.capBits.toNat)
    (hbytes : ∀ a < (serialized (inputCoded s)).outLen.toNat, readIn u a = readOut (serialized (inputCoded s)) a) :
    parsedOf u = .ok (encodedParts s) := by
  have hcount : (serialized (inputCoded s)).outLen.toNat = serializedLength (inputCoded s) := toNat_outLen_serialized hfit
  rw [← serializedParts_inputCoded hstream]
  exact parsedOf_serialized_of_listOk (length_freqList_le _) (listOk_freqList (length_inBytes_lt s))
    ((congrArg BitVec.toNat hlen).trans hcount) hin hbits (hcount ▸ hbytes)

/-- WALK of ENCODE's stream, over the tree that BUILD made again, emits the input. An empty input has no tree. -/
theorem walkStage_encodedParts {s u : State} (hp : parsedOf u = .ok (encodedParts s))
    (hfit : (inBytes s).length ≤ u.capOut.toNat) : ∃ v, walkStage (unpacked u (encodedParts s)) = .ok v ∧
      v.error = u.error ∧ v.outLen = BitVec.ofNat 64 (inBytes s).length ∧
      ∀ a < (inBytes s).length, v.outMem.read a = (inBytes s)[a]? := by
  have hcount : (unpacked u (encodedParts s)).nodeCount.toNat = nodesFor (freqList (inBytes s)).length :=
    nodesFor_toNat (length_freqList_le _)
  by_cases hempty : inBytes s = []
  · have hcount0 : (unpacked u (encodedParts s)).nodeCount.toNat = 0 := by rw [hcount, hempty]; rfl
    have hbits0 : (unpacked u (encodedParts s)).bitLength.toNat = 0 :=
      (toNat_bitLength_rebuilt hp).trans (by rw [encodedParts, inputStream, hempty]; rfl)
    refine ⟨_, walkStage_absent_ok rfl rfl hcount0 hbits0, rfl, by rw [hempty]; rfl, fun a ha => ?_⟩
    rw [hempty] at ha
    exact absurd ha (Nat.not_lt_zero a)
  · have hne : freqList (inBytes s) ≠ [] := mt freqList_eq_nil.mp hempty
    have hcountpos : (unpacked u (encodedParts s)).nodeCount.toNat ≠ 0 := by
      have := List.length_pos_iff.mpr hne
      rw [hcount, nodesFor]
      split_ifs <;> omega
    obtain ⟨t, ht⟩ := (listCodes_codebookFor (length_inBytes_lt s)).exists_codeTree hne
    have hstands : Stands (unpacked u (encodedParts s)).nodes ((unpacked u (encodedParts s)).nodeCount.toNat - 1) t := by
      rw [hcount]
      exact ht.stands
    have hcodes := fun b (hb : b ∈ inBytes s) => ht.mem_codes_of_ne_nil (codeIn_codebookFor_ne_nil (length_inBytes_lt s) hb)
    have hstream : streamOf (unpacked u (encodedParts s)) = inputStream s := (streamOf_unpacked hp).trans (unpack_pack _)
    exact ⟨_, walkStage_whole rfl rfl hcountpos hstands hcodes hfit hstream, rfl, rfl,
      fun a ha => (read_walked _ _ a).trans (if_pos ha)⟩

/-- Settles O50: PARSE reads back the list and the stream that ENCODE wrote, and the walk of the stream emits the input. -/
theorem roundTrip : Obligations.RoundTrip := by
  unfold Obligations.RoundTrip
  intro s t u i hi j hj hs ht hdone hlen hbytes hin hbits hout
  obtain ⟨hstream, hfit, rfl⟩ := exec_encode_done hi hs ht hdone
  have hp := parsedOf_encoded hstream hfit hlen hin hbits fun a ha => (hbytes a ha).trans (readOut_succeeded _ a)
  obtain ⟨v, hv, herror, hvlen, hmem⟩ := walkStage_encodedParts hp ((length_inBytes s).trans_le hout)
  rw [length_inBytes] at hvlen hmem
  refine ⟨_, exec_decode_walked hj hp hv, rfl, herror, ?_, fun a ha => ?_⟩
  · exact hvlen.trans (by rw [BitVec.ofNat_toNat, BitVec.setWidth_eq])
  · have hlt : a < (inBytes s).length := (length_inBytes s).symm ▸ ha
    rw [readOut_succeeded, readOut, hmem a ha, List.getElem?_eq_getElem hlt, Option.getD_some, getElem_inBytes]

end Sys2Proof.Machine
end

section
/-! PROOFS. The statements of 46_composite.md: each composite command as its stages in order, the three integers of STATS, and
that ENCODE's answer is a function of its input. -/

namespace Sys2Proof.Machine

/-! ### ENCODE (46_composite.md R240) -/

theorem exec_encode {i : Instr} (hi : i ∈ [Instr.encode, Instr.encodeH]) :
    ∃ heap, ∀ s, exec i s = .next (finish 0x20#8 (runStages 0 (encodeStages heap) s)) := by
  obtain ⟨hop, heap, hstages⟩ := stagesOf_encode hi
  exact ⟨heap, fun s => by rw [exec_eq, hop, hstages]⟩

/-- The length of the container that ENCODE makes of its input. -/
theorem serializedLength_inputCoded {s : State} (h : (inputStream s).length ≤ s.capBits.toNat) :
    serializedLength (inputCoded s) = containerLength (freqList (inBytes s)).length
      (minWidth (maxCount (freqList (inBytes s)))) (inputStream s).length :=
  congrArg (containerLength _ _) (toNat_ofNat_of_le h)

/-- The bytes of that container. -/
theorem serializedBytes_inputCoded {s : State} (h : (inputStream s).length ≤ s.capBits.toNat) :
    serializedBytes (inputCoded s) = containerBytes (freqList (inBytes s)) (minWidth (maxCount (freqList (inBytes s))))
      (inputStream s).length (pack (inputStream s)) := by
  have hparts := serializedParts_inputCoded h
  have hbits : (inputCoded s).bitLength.toNat = (inputStream s).length := congrArg Parsed.bits hparts
  have hpayload : payloadOf (inputCoded s) = pack (inputStream s) := congrArg Parsed.payload hparts
  rw [serializedBytes, hbits, hpayload]
  rfl

/-- Settles O46: FREQ, CODE and SERIALIZE decide in turn, and OUT_MEM is the container below its old bytes. -/
theorem encodeRunsItsStages : Obligations.EncodeRunsItsStages := by
  unfold Obligations.EncodeRunsItsStages
  refine ⟨decode_encode .encode, decode_encode .encodeH, fun s i hi => ?_⟩
  obtain ⟨heap, he⟩ := exec_encode hi
  intro bytes list bits w len
  refine ⟨fun hin => ?_, fun hin => ⟨fun hbits => ?_, fun hbits => ?_⟩⟩
  · rw [he, encodeStages, finish_freq_fail _ _ s hin]
    rfl
  · rw [he, finish_encode_bitbuf _ heap hin hbits]
    rfl
  have hlen : serializedLength (inputCoded s) = len := serializedLength_inputCoded hbits
  refine ⟨fun hout => ?_, fun hout => ⟨(serialized (inputCoded s)).outMem, ?_, fun a ha => ?_, fun a ha => ?_⟩⟩
  · rw [he, finish_encode_out _ heap hin hbits (hlen ▸ hout), hlen]
    rfl
  · rw [he, finish_encode_fits _ heap hin hbits (hlen ▸ hout), ← hlen]
    rfl
  · rw [read_serialized, hlen, if_pos ha, serializedBytes_inputCoded hbits]
    rfl
  · rw [read_serialized, hlen, if_neg (Nat.not_lt.mpr ha)]
    rfl

/-! ### ENCODE as a function of its input (46_composite.md R245) -/

/-- Two states show HOST the same report, and after a completion without an error the same output. -/
def SameAnswer (t v : State) : Prop :=
  v.done = t.done ∧ v.error = t.error ∧ v.err = t.err ∧ v.errInfo = t.errInfo ∧
    (t.done = true → v.outLen = t.outLen ∧ ∀ a < t.outLen.toNat, readOut v a = readOut t a)

theorem sameAnswer_failed {x y : State} (hx : x.done = false) (hy : y.done = false) (w : Word) {m n : Word} (h : n = m) :
    SameAnswer (x.failed w m) (y.failed w n) :=
  ⟨hy.trans hx.symm, rfl, rfl, h, fun hdone => absurd (hx.symm.trans hdone) Bool.false_ne_true⟩

theorem serializedLength_congr {x y : State} (h : serializedBytes y = serializedBytes x) :
    serializedLength y = serializedLength x := by rw [← length_serializedBytes, h, length_serializedBytes]

/-- Two states that SERIALIZE the same bytes, with no error standing. -/
theorem sameAnswer_serialized {x y : State} (herror : y.error = x.error) (herr : y.err = x.err)
    (hinfo : y.errInfo = x.errInfo) (hbytes : serializedBytes y = serializedBytes x)
    (hfit : serializedLength x ≤ x.capOut.toNat) : SameAnswer (serialized x).succeeded (serialized y).succeeded := by
  have hlen := serializedLength_congr hbytes
  refine ⟨rfl, herror, herr, hinfo, fun _ => ⟨congrArg (BitVec.ofNat 64) hlen, fun a ha => ?_⟩⟩
  have hx : a < serializedLength x := lt_of_lt_of_eq ha (toNat_outLen_serialized hfit)
  rw [readOut_succeeded, readOut_succeeded]
  exact Option.some.inj (by rw [readOut_serialized hx, readOut_serialized (hlen ▸ hx), hbytes])

theorem inputStream_congr {s u : State} (h : inBytes u = inBytes s) : inputStream u = inputStream s := by
  rw [inputStream, inputStream, h]

theorem inLen_of_inBytes {s u : State} (h : inBytes u = inBytes s) : u.inLen = s.inLen :=
  BitVec.eq_of_toNat_eq (by rw [← length_inBytes, h, length_inBytes])

/-- Settles O52: both runs meet the same limit first, or make the same container. -/
theorem encodeIsAFunctionOfItsInput : Obligations.EncodeIsAFunctionOfItsInput := by
  unfold Obligations.EncodeIsAFunctionOfItsInput
  intro s u t v hbytes hcapIn hcapOut hcapBits hsd hse hud hue hserr huerr hsinfo huinfo ht hv
  obtain ⟨heap, he⟩ := exec_encode (i := .encode) (by simp)
  rw [he] at ht hv
  obtain rfl := Host.Outcome.next.inj ht
  obtain rfl := Host.Outcome.next.inj hv
  have hlen := inLen_of_inBytes hbytes
  have hstream := inputStream_congr hbytes
  show SameAnswer _ _
  rcases Nat.lt_or_ge s.capIn.toNat s.inLen.toNat with hin | hin
  · rw [encodeStages, finish_freq_fail _ _ s hin, finish_freq_fail _ _ u (by rwa [hcapIn, hlen])]
    exact sameAnswer_failed hsd hud _ hlen
  have hinU : u.inLen.toNat ≤ u.capIn.toNat := by rwa [hcapIn, hlen]
  rcases Nat.lt_or_ge s.capBits.toNat (inputStream s).length with hbits | hbits
  · rw [finish_encode_bitbuf _ heap hin hbits, finish_encode_bitbuf _ heap hinU (by rwa [hcapBits, hstream])]
    exact sameAnswer_failed hsd hud _ (by rw [hstream])
  have hbitsU : (inputStream u).length ≤ u.capBits.toNat := by rwa [hcapBits, hstream]
  have hcontainer : serializedBytes (inputCoded u) = serializedBytes (inputCoded s) := by
    rw [serializedBytes_inputCoded hbits, serializedBytes_inputCoded hbitsU, hstream, hbytes]
  have hsize := serializedLength_congr hcontainer
  rcases Nat.lt_or_ge s.capOut.toNat (serializedLength (inputCoded s)) with hout | hout
  · rw [finish_encode_out _ heap hin hbits hout, finish_encode_out _ heap hinU hbitsU (by rwa [hcapOut, hsize])]
    exact sameAnswer_failed hsd hud _ (by rw [hsize])
  · rw [finish_encode_fits _ heap hin hbits hout, finish_encode_fits _ heap hinU hbitsU (by rwa [hcapOut, hsize])]
    exact sameAnswer_serialized (hue.trans hse.symm) (huerr.trans hserr.symm) (huinfo.trans hsinfo.symm) hcontainer hout

/-! ### DECODE (46_composite.md R241) -/

theorem exec_decode {i : Instr} (hi : i ∈ [Instr.decode, Instr.decodeH]) :
    ∃ heap, ∀ s, exec i s = .next (finish 0x21#8 (runStages 0 (decodeStages heap) s)) := by
  obtain ⟨hop, heap, hstages⟩ := stagesOf_decode hi
  exact ⟨heap, fun s => by rw [exec_eq, hop, hstages]⟩

/-- DECODE of a container whose walk fails. -/
theorem exec_decode_fails {i : Instr} (hi : i ∈ [Instr.decode, Instr.decodeH]) {s : State} {p : Parsed}
    (h : parsedOf s = .ok p) {c : Cause} {info : Nat}
    (hw : walkStage (unpacked s p) = .fail ⟨c, info⟩ (unpacked s p).walkFailed) {w : Word}
    (he : errWord 0x21#8 0x13#8 c = w) : ∃ (m : Memory) (e n : Nat), exec i s =
      .next { (unpacked s p).failed w (BitVec.ofNat 64 info) with outLen := 0#64, outMem := m, outEpoch := e, draws := n } := by
  obtain ⟨heap, hexec⟩ := exec_decode hi
  refine ⟨[], s.draws, s.draws + 1, ?_⟩
  rw [hexec, finish_unpacked _ heap h, finish_fail blind_walk walkStage_law _ 3 hw, ← he]
  rfl

theorem toNat_nodeCount_unpacked {s : State} {p : Parsed} (h : parsedOf s = .ok p) :
    (unpacked s p).nodeCount.toNat = nodesFor p.entries.length :=
  nodesFor_toNat (parseContainer_ok h).1.count

theorem nodesFor_ne_zero {es : List Entry} (h : es ≠ []) : nodesFor es.length ≠ 0 := by
  have := List.length_pos_iff.mpr h
  rw [nodesFor]
  split_ifs <;> omega

/-- The walk that DECODE makes of a container. -/
theorem walkOf_unpacked {s : State} {p : Parsed} (h : parsedOf s = .ok p) : walkOf (unpacked s p) =
    walkBits (buildTree p.entries) (nodesFor p.entries.length - 1) s.capOut.toNat 0 (unpack p.payload p.bits)
      ⟨nodesFor p.entries.length - 1, 0, s.outMem⟩ := by
  rw [walkOf, toNat_nodeCount_unpacked h, streamOf_unpacked h]
  rfl

/-- Settles O47: PARSE decides, and then the walk of the unpacked stream. -/
theorem decodeRunsItsStages : Obligations.DecodeRunsItsStages := by
  unfold Obligations.DecodeRunsItsStages
  refine ⟨decode_encode .decode, decode_encode .decodeH, fun s i hi => ⟨fun r h => ?_, fun p h => ?_⟩⟩
  · obtain ⟨heap, he⟩ := exec_decode hi
    rw [he, decodeStages, finish_parse_fail _ _ h]
  intro bits root u failedWalk
  have hcount := toNat_nodeCount_unpacked h
  have hlen : (unpacked s p).bitLength.toNat = p.bits := toNat_bitLength_rebuilt h
  refine ⟨fun hnil hbits => ?_, fun hnil hbits => ?_, fun hne => ?_⟩
  · exact exec_decode_walked hi h (walkStage_absent_ok rfl rfl (by rw [hcount, hnil]; rfl) (hlen.trans hbits))
  · exact exec_decode_fails hi h (walkStage_absent_fail rfl rfl (by rw [hcount, hnil]; rfl) (by rwa [hlen])) rfl
  have htree : (unpacked s p).nodeCount.toNat ≠ 0 := by
    rw [hcount]
    exact nodesFor_ne_zero hne
  refine ⟨fun r hw => ?_, fun w hw => ⟨fun hnode => ?_, fun hnode => ?_⟩⟩
  · exact exec_decode_fails hi h (walkStage_fail rfl rfl htree ((walkOf_unpacked h).trans hw)) rfl
  · have hstage := walkStage_incomplete rfl rfl htree ((walkOf_unpacked h).trans hw) (by rwa [hcount])
    rw [hlen] at hstage
    exact exec_decode_fails hi h hstage rfl
  · exact exec_decode_walked hi h (walkStage_ok rfl rfl htree ((walkOf_unpacked h).trans hw) (by rwa [hcount]))

/-! ### STATCALC (46_composite.md R243) -/

/-- The stream length of a list under its own codebook, R243's STAT_BITS. -/
def listBits (es : List Entry) : Nat := (es.map fun e => e.cnt.toNat * (codeIn (codebookFor es) e.sym).length).sum

/-- The length of the list's container, R243's STAT_CONTAINER_BYTES. -/
def listContainer (es : List Entry) : Nat := containerLength es.length (minWidth (maxCount es)) (listBits es)

/-- The state that STATCALC leaves where the three integers fit. -/
def statted (s : State) : State :=
  { s with
    statOrig := BitVec.ofNat 64 (sumCounts s.slist), statBits := BitVec.ofNat 64 (listBits s.slist)
    statContainer := BitVec.ofNat 64 (listContainer s.slist) }

theorem statBitsOf_eq {s : State} (h : s.cb = codebookFor s.slist) : statBitsOf s = listBits s.slist := by
  rw [statBitsOf, codeOf_eq (h ▸ length_codebookOf ..), h, listBits]

theorem statcalcFits_iff {s : State} (h : s.cb = codebookFor s.slist) : statcalcFits s ↔
    sumCounts s.slist < 2 ^ 64 ∧ listBits s.slist < 2 ^ 64 ∧ listContainer s.slist < 2 ^ 64 := by
  rw [statcalcFits, statBitsOf_eq h, listContainer]

/-- STATS from STATCALC on, where the three integers fit. -/
theorem finish_statcalc_fits (opcode : Byte) (k : Nat) {s : State} (h : s.cb = codebookFor s.slist)
    (hsum : sumCounts s.slist < 2 ^ 64) (hbits : listBits s.slist < 2 ^ 64) (hcont : listContainer s.slist < 2 ^ 64) :
    finish opcode (runStages k [(.statcalc, statcalcStage)] s) = (statted s).succeeded := by
  rw [finish_last_ok blind_statcalc statcalcStage_law opcode k
    (statcalcStage_ok ((statcalcFits_iff h).mpr ⟨hsum, hbits, hcont⟩)), statBitsOf_eq h]
  rfl

/-- STATS from STATCALC on, where one of them does not. -/
theorem finish_statcalc_arith (opcode : Byte) (k : Nat) {s : State} (h : s.cb = codebookFor s.slist)
    (hbig : 2 ^ 64 ≤ listBits s.slist ∨ 2 ^ 64 ≤ listContainer s.slist) :
    finish opcode (runStages k [(.statcalc, statcalcStage)] s) = s.failed (errWord opcode 0x22#8 .arith) 0#64 := by
  have hnot : ¬ statcalcFits s := by
    rw [statcalcFits_iff h]
    omega
  rw [finish_fail blind_statcalc statcalcStage_law opcode k (statcalcStage_fail hnot)]
  rfl

theorem blind_statcalcLast : ∀ p ∈ [(StageName.statcalc, statcalcStage)], Blind p.2 :=
  blind_cons blind_statcalc (List.forall_mem_nil _)

/-! ### STATS of raw bytes (46_composite.md R242, SRC = 0) -/

theorem exec_stats {i : Instr} (hi : i ∈ [Instr.stats, Instr.statsH]) :
    ∃ heap, ∀ s, exec i s = .next (finish 0x22#8 (runStages 0 (statsRawStages heap) s)) := by
  obtain rfl | rfl : i = .stats ∨ i = .statsH := by simpa using hi
  · exact ⟨false, fun s => exec_eq ..⟩
  · exact ⟨true, fun s => exec_eq ..⟩

/-- No code has more than 255 bits (42_codebook.md R172), so neither has the stream more than 255 for each byte. -/
theorem listBits_freqList_le {bytes : List Byte} (hb : bytes.length < 2 ^ 64) :
    listBits (freqList bytes) ≤ bytes.length * 255 := by
  have hcode := (listCodes_codebookFor hb).length_codeIn_le (length_freqList_le bytes)
  rw [listBits, ← length_flatMap_code bytes hb, List.length_flatMap]
  calc _ ≤ (bytes.map fun b => (codeIn (codebookFor (freqList bytes)) b).length).length • 255 :=
        List.sum_le_card_nsmul _ 255 fun n hn => by
          obtain ⟨b, -, rfl⟩ := List.mem_map.mp hn
          exact hcode b
    _ = bytes.length * 255 := by rw [List.length_map, smul_eq_mul]

/-- At legal capacities the integers of an input that fits are below 2^64. -/
theorem listBits_listContainer_lt {bytes : List Byte} (hb : bytes.length ≤ 2 ^ 56) :
    listBits (freqList bytes) < 2 ^ 64 ∧ listContainer (freqList bytes) < 2 ^ 64 := by
  have hbits := listBits_freqList_le (show bytes.length < 2 ^ 64 by omega)
  have hceil := ceil8_le (listBits (freqList bytes))
  have hn := length_freqList_le bytes
  have hw : minWidth (maxCount (freqList bytes)) ≤ 8 := by
    have := minWidth_cases (maxCount (freqList bytes))
    omega
  have hcounts := Nat.mul_le_mul hn hw
  rw [listContainer, containerLength]
  omega

/-- Settles O48: FREQ decides; the codes are short enough for every sum to fit. -/
theorem statsOfBytes : Obligations.StatsOfBytes := by
  unfold Obligations.StatsOfBytes
  refine ⟨decode_encode .stats, decode_encode .statsH, fun s hc i hi => ?_⟩
  obtain ⟨heap, he⟩ := exec_stats hi
  intro list bits cont
  refine ⟨fun hin => ?_, fun hin => ?_⟩
  · rw [he, statsRawStages, finish_freq_fail _ _ s hin]
    rfl
  obtain ⟨hbits, hcont⟩ := listBits_listContainer_lt ((length_inBytes s).trans_le (hin.trans hc.inHigh))
  have hsum : sumCounts (freqList (inBytes s)) = s.inLen.toNat :=
    (sumCounts_freqList (length_inBytes_lt s)).trans (length_inBytes s)
  refine ⟨hbits, hcont, ?_⟩
  rw [he, statsRawStages, finish_analyzed _ heap _ blind_statcalcLast s hin,
    finish_statcalc_fits (s := analyzed s (inBytes s)) _ 3 rfl (hsum.trans_lt s.inLen.isLt) hbits hcont]
  have horig : (statted (analyzed s (inBytes s))).statOrig = s.inLen :=
    (congrArg (BitVec.ofNat 64) hsum).trans (by rw [BitVec.ofNat_toNat, BitVec.setWidth_eq])
  rw [← horig]
  rfl

/-! ### STATS of a container (46_composite.md R242, SRC = 1) -/

theorem exec_statsC {i : Instr} (hi : i ∈ [Instr.statsC, Instr.statsHC]) :
    ∃ heap, ∀ s, exec i s = .next (finish 0x22#8 (runStages 0 (statsContainerStages heap) s)) := by
  obtain rfl | rfl : i = .statsC ∨ i = .statsHC := by simpa using hi
  · exact ⟨false, fun s => exec_eq ..⟩
  · exact ⟨true, fun s => exec_eq ..⟩

/-- The state that PARSE, BUILD and CODEBOOK leave for a container. -/
def recoded (s : State) (p : Parsed) : State := { rebuilt s p with cb := codebookFor p.entries, cbV := true }

/-- CODEBOOK of the rebuilt container. -/
theorem codebookStage_rebuilt {s : State} {p : Parsed} (h : parsedOf s = .ok p) :
    codebookStage (rebuilt s p) = .ok (recoded s p) := by
  have hcount : (rebuilt s p).nodeCount.toNat = nodesFor p.entries.length := nodesFor_toNat (parseContainer_ok h).1.count
  rw [codebookStage_ok rfl, hcount]
  rfl

/-- PARSE, BUILD and CODEBOOK of a container that PARSE accepts, in STATS. -/
theorem finish_recoded (opcode : Byte) (heap : Bool) {s : State} {p : Parsed} (h : parsedOf s = .ok p) :
    finish opcode (runStages 0 (statsContainerStages heap) s) =
      finish opcode (runStages 3 [(.statcalc, statcalcStage)] (recoded s p)) := by
  have hcodebook := blind_cons (p := (.codebook, codebookStage)) blind_codebook blind_statcalcLast
  rw [statsContainerStages, finish_rebuilt opcode heap _ hcodebook h,
    finish_ok hcodebook codebookStage_law opcode 2 (codebookStage_rebuilt h)]

/-- Settles O49: PARSE decides, and then whether STATCALC's sums fit; the counts of a parsed list always do. -/
theorem statsOfContainer : Obligations.StatsOfContainer := by
  unfold Obligations.StatsOfContainer
  refine ⟨decode_encode .statsC, decode_encode .statsHC, fun s i hi => ?_⟩
  obtain ⟨heap, he⟩ := exec_statsC hi
  refine ⟨fun r h => ?_, fun p h => ?_⟩
  · rw [he, statsContainerStages, finish_parse_fail _ _ h]
  intro u bits cont
  refine ⟨fun hbig => ?_, fun hbits hcont => ?_⟩
  · rw [he, finish_recoded _ heap h, finish_statcalc_arith (s := recoded s p) _ 3 rfl hbig]
    rfl
  · rw [he, finish_recoded _ heap h,
      finish_statcalc_fits (s := recoded s p) _ 3 rfl (parseContainer_ok h).1.list.sumFits hbits hcont]
    rfl

end Sys2Proof.Machine
end

section
/-! PROOFS. The statements of 60_exceptions.md: which accesses get a bus error, what a failing command changes, when the
ENGINE runs the decoded command, and the interrupt. -/

namespace Sys2Proof.Machine

/-! ### Bus errors (60_exceptions.md R265) -/

/-- What the windows, widths and alignments say of an access that lands on a target (20_memory.md R71, R72). -/
inductive Lands (s : State) (o : Word) (w : Nat) : Target → Prop where
  | reg (hw : w = 8) (h8 : o.toNat % 8 = 0) (ho : o.toNat < 0x1000) : Lands s o w (.reg (regAt o.toNat))
  | inByte (hw : w = 1) (ho : inWindow s o) (a : Nat) : Lands s o w (.inByte a)
  | outByte (hw : w = 1) (ho : outWindow s o) (a : Nat) : Lands s o w (.outByte a)
  | none (hbad : badAccess s o w) : Lands s o w .none

theorem lands_target (s : State) (o : Word) (w : Nat) : Lands s o w (target s o w) := by
  unfold target
  dsimp only
  split_ifs with hreg hword hin hbyte hout hbyte
  · exact .reg hword.1 hword.2 hreg
  · exact .none (.inr (.inl ⟨hreg, by omega⟩))
  · exact .inByte hbyte hin _
  · exact .none (.inr (.inr ⟨.inl hin, hbyte⟩))
  · exact .outByte hbyte hout _
  · exact .none (.inr (.inr ⟨.inr hout, hbyte⟩))
  · exact .none (.inl ⟨Nat.le_of_not_lt hreg, hin, hout⟩)

/-- The accesses of 60_exceptions.md R265 (a) to (c) are those that land nowhere. -/
theorem target_eq_none_iff {s : State} {o : Word} {w : Nat} : target s o w = .none ↔ badAccess s o w := by
  have hl := lands_target s o w
  generalize target s o w = tg at hl
  cases hl with
  | none hbad => simp only [hbad]
  | reg | inByte | outByte => simp only [reduceCtorEq, false_iff, badAccess, inWindow, outWindow] at *; omega

/-- A HOST read gets a bus error where it lands nowhere. -/
theorem hostRead_busError_iff {s : State} {o : Word} {w : Nat} :
    (hostRead o w s).1 = .busError ↔ target s o w = .none := by
  cases ht : target s o w with
  | reg r => cases r <;> simp [hostRead, ht]
  | inByte a => simp [hostRead, ht]
  | outByte a => cases hb : s.busy <;> simp [hostRead, ht, hb]
  | none => simp [hostRead, ht]

theorem hostRead_of_busError {s : State} {o : Word} {w : Nat} (h : (hostRead o w s).1 = .busError) :
    hostRead o w s = (.busError, s) := by
  simp only [hostRead, hostRead_busError_iff.mp h]

/-- A HOST write is taken, or gets a bus error and changes nothing. -/
theorem hostWrite_answer (o : Word) (w : Nat) (d : Word) (s : State) :
    (∃ t, hostWrite o w d s = (.written, t)) ∨ hostWrite o w d s = (.busError, s) := by
  unfold hostWrite
  split
  · split
    · exact .inl ⟨_, rfl⟩
    · exact .inr rfl
  · exact .inl ⟨_, rfl⟩
  · split
    · exact .inr rfl
    · exact .inl ⟨_, rfl⟩
  · exact .inr rfl
  · exact .inr rfl

theorem hostWrite_of_busError {s : State} {o : Word} {w : Nat} {d : Word} (h : (hostWrite o w d s).1 = .busError) :
    hostWrite o w d s = (.busError, s) := by
  obtain ⟨t, ht⟩ | he := hostWrite_answer o w d s
  · rw [ht] at h; cases h
  · exact he

/-- The one register whose write can get a bus error is IN_LEN. -/
theorem writeReg_eq_none_iff {r : Reg} {v : Word} {s : State} :
    writeReg r v s = none ↔ s.busy = true ∧ r = .inLen := by
  cases r <;> simp [writeReg]

/-- The one offset that an 8-byte access finds IN_LEN at. -/
theorem regAt_eq_inLen_iff {n : Nat} (h8 : n % 8 = 0) : regAt n = some .inLen ↔ n = 0x048 := by
  constructor
  · intro h
    have hk : n / 8 = 9 := regAt_eq h rfl
    omega
  · rintro rfl
    rfl

/-- A HOST write gets a bus error where it lands nowhere or on OUT_MEM and, while BUSY = 1, on IN_MEM or IN_LEN. -/
theorem hostWrite_busError_iff {s : State} {o : Word} {w : Nat} {d : Word} :
    (hostWrite o w d s).1 = .busError ↔ target s o w = .none ∨ (∃ a, target s o w = .outByte a) ∨
      (s.busy = true ∧ ((∃ a, target s o w = .inByte a) ∨ target s o w = .reg (some .inLen))) := by
  cases ht : target s o w with
  | reg r =>
    cases r with
    | none => simp [hostWrite, ht]
    | some r =>
      have hnone := writeReg_eq_none_iff (r := r) (v := d) (s := s)
      cases hw : writeReg r d s <;> simp_all [hostWrite]
  | inByte a => cases hb : s.busy <;> simp [hostWrite, ht, hb]
  | outByte a => simp [hostWrite, ht]
  | none => simp [hostWrite, ht]

/-- For legal capacities no offset lies in two windows (00_scope.md R5; 20_memory.md R71). -/
theorem not_outWindow {s : State} (hc : CapsLegal s) {o : Word} (h : inWindow s o) : ¬outWindow s o := by
  have hcap := hc.inHigh
  simp only [inWindow, outWindow] at *
  omega

theorem not_window_of_reg {s : State} {o : Word} (h : o.toNat < 0x1000) : ¬inWindow s o ∧ ¬outWindow s o := by
  simp only [inWindow, outWindow]
  omega

theorem hostWrite_busError_iff_badAccess {s : State} (hc : CapsLegal s) {o : Word} {w : Nat} {d : Word} :
    (hostWrite o w d s).1 = .busError ↔
      badAccess s o w ∨ outWindow s o ∨ (s.busy = true ∧ (inWindow s o ∨ o.toNat = 0x048)) := by
  rw [hostWrite_busError_iff, target_eq_none_iff]
  have hl := lands_target s o w
  generalize target s o w = tg at hl
  cases hl with
  | reg hw h8 ho =>
    obtain ⟨hin, hout⟩ := not_window_of_reg (s := s) ho
    simp [hin, hout, regAt_eq_inLen_iff h8]
  | inByte hw ho => simp [ho, not_outWindow hc ho]
  | outByte hw ho => simp [ho]
  | none hbad => simp [hbad]

/-- Settles O13: an access gets a bus error by where it lands, and every answer with one leaves the state. -/
theorem busErrors : Obligations.BusErrors := by
  unfold Obligations.BusErrors
  intro s hc o w d
  obtain ⟨htable, hreserved, -⟩ := registerMap
  refine ⟨hostRead_busError_iff.trans target_eq_none_iff, hostWrite_busError_iff_badAccess hc, fun h => ?_, fun h => ?_,
    fun p hp hro => (htable p hp s).2 hro d, fun hlow hhigh h8 => (hreserved s o d hlow hhigh h8).2⟩
  · rw [hostRead_of_busError h]
  · rw [hostWrite_of_busError h]

/-! ### What a command changes (60_exceptions.md R263, R264, R267) -/

/-- A stage that raises changes nothing (60_exceptions.md R267). -/
def FailsInPlace (run : State → StageOut) : Prop := ∀ s, (∃ t, run s = .ok t) ∨ ∃ r, run s = .fail r s

theorem FailsInPlace.eq {run : State → StageOut} (hrun : FailsInPlace run) {s u : State} {r : Raise}
    (h : run s = .fail r u) : u = s := by
  obtain ⟨t, ht⟩ | ⟨e, he⟩ := hrun s
  · cases ht.symm.trans h
  · cases he.symm.trans h; rfl

theorem freqStage_failsInPlace : FailsInPlace freqStage := fun s => by
  rcases Nat.lt_or_ge s.capIn.toNat s.inLen.toNat with h | h
  · exact .inr ⟨_, freqStage_fail h⟩
  · exact .inl ⟨_, freqStage_ok h⟩

theorem buildStage_failsInPlace (heap : Bool) : FailsInPlace (buildStage heap) := fun s => by
  cases h : s.slistV with
  | false => exact .inr ⟨_, buildStage_fail heap h⟩
  | true => exact .inl ⟨_, buildStage_ok heap h⟩

theorem codebookStage_failsInPlace : FailsInPlace codebookStage := fun s => by
  cases h : s.treeV with
  | false => exact .inr ⟨_, codebookStage_fail h⟩
  | true => exact .inl ⟨_, codebookStage_ok h⟩

theorem codeStage_failsInPlace : FailsInPlace codeStage := fun s => by
  obtain he | ⟨hcb, hin, hmiss, hbits⟩ := codeStage_cases s
  · exact .inr he
  · exact .inl ⟨_, codeStage_ok hcb hin hmiss hbits⟩

theorem packStage_failsInPlace : FailsInPlace packStage := fun s => by
  cases h : s.bitsV with
  | false => exact .inr ⟨_, packStage_fail h⟩
  | true => exact .inl ⟨_, packStage_ok h⟩

theorem serializeStage_failsInPlace : FailsInPlace serializeStage := fun s => by
  obtain he | ⟨hlist, hpayload, hout⟩ := serializeStage_cases s
  · exact .inr he
  · exact .inl ⟨_, serializeStage_ok hlist hpayload hout⟩

theorem parseStage_failsInPlace : FailsInPlace parseStage := fun s => by
  cases h : parsedOf s with
  | fail r => exact .inr ⟨r, parseStage_fail h⟩
  | ok p => exact .inl ⟨_, parseStage_ok h⟩

theorem unpackStage_failsInPlace : FailsInPlace unpackStage := fun s => by
  cases h : s.payloadV with
  | false => exact .inr ⟨_, unpackStage_fail h⟩
  | true => exact .inl ⟨_, unpackStage_ok h⟩

/-- WALK raises before its walk, where it changes nothing, or under way (45_decoder.md R231). -/
theorem walkStage_fail_cases {s u : State} {r : Raise} (h : walkStage s = .fail r u) : u = s ∨ u = s.walkFailed := by
  obtain ⟨e, he⟩ | ⟨-, -, e, he⟩ | ⟨-, -, -, he⟩ | ⟨-, -, -, w, -, he⟩ := walkStage_cases s
  · cases he.symm.trans h; exact .inl rfl
  · cases he.symm.trans h; exact .inr rfl
  all_goals cases he.symm.trans h

/-- The stage of each stage command but WALK. -/
theorem stagesOf_failsInPlace {i : Instr}
    (hi : i ∈ [Instr.freq, .build, .buildH, .codebook, .code, .pack, .serialize, .parse, .unpack]) :
    ∃ st run, stagesOf i = [(st, run)] ∧ FailsInPlace run := by
  simp only [List.mem_cons, List.not_mem_nil, or_false] at hi
  obtain rfl | rfl | rfl | rfl | rfl | rfl | rfl | rfl | rfl := hi
  · exact ⟨_, _, rfl, freqStage_failsInPlace⟩
  · exact ⟨_, _, rfl, buildStage_failsInPlace false⟩
  · exact ⟨_, _, rfl, buildStage_failsInPlace true⟩
  · exact ⟨_, _, rfl, codebookStage_failsInPlace⟩
  · exact ⟨_, _, rfl, codeStage_failsInPlace⟩
  · exact ⟨_, _, rfl, packStage_failsInPlace⟩
  · exact ⟨_, _, rfl, serializeStage_failsInPlace⟩
  · exact ⟨_, _, rfl, parseStage_failsInPlace⟩
  · exact ⟨_, _, rfl, unpackStage_failsInPlace⟩

/-- A command of one stage that ends without DONE is one whose stage raised. -/
theorem exec_single_not_done {i : Instr} {st : StageName} {run : State → StageOut} {s t : State}
    (hs : stagesOf i = [(st, run)]) (h : exec i s = .next t) (hd : t.done = false) :
    ∃ r u err info, run s = .fail r u ∧ t = u.failed err info := by
  cases hr : run s with
  | ok u =>
    cases h.symm.trans (exec_single_ok hs hr)
    cases hd
  | fail r u =>
    cases h.symm.trans (exec_single_fail hs hr)
    exact ⟨r, u, _, _, rfl, rfl⟩

/-- A command reports once: DONE with ERR and ERR_INFO as they were, or ERROR with an error that has its OPCODE. -/
theorem exec_report {i : Instr} {s t : State} (hd : s.done = false) (he : s.error = false) (h : exec i s = .next t) :
    t.busy = false ∧
    ((t.done = true ∧ t.error = false ∧ t.err = s.err ∧ t.errInfo = s.errInfo) ∨
      (t.done = false ∧ t.error = true ∧ ∃ (stage : Byte) (c : Cause), t.err = errWord i.opcode stage c)) := by
  obtain ⟨u, hu, -, rfl | ⟨stage, r, rfl⟩⟩ := exec_cases h
  · exact ⟨rfl, .inl ⟨rfl, hu.error.trans he, hu.err, hu.errInfo⟩⟩
  · exact ⟨rfl, .inr ⟨hu.done.trans hd, rfl, stage, r.cause, rfl⟩⟩

/-- Settles O56: a command reports once, and a stage that raises keeps the state, but for WALK's under way. -/
theorem failureFrame : Obligations.FailureFrame := by
  unfold Obligations.FailureFrame
  intro i s t hd he h
  obtain ⟨hbusy, ⟨hdone, hok, hreport⟩ | ⟨hdone, herror, hreport⟩⟩ := exec_report hd he h
  · simp [hbusy, hdone, hok, hreport]
  refine ⟨hbusy, by simp [hdone, herror], by simp [herror], fun _ => hreport, fun _ hi => ?_, fun _ hi => ?_⟩
  · obtain ⟨st, run, hs, hrun⟩ := stagesOf_failsInPlace hi
    obtain ⟨r, u, err, info, hfail, rfl⟩ := exec_single_not_done hs h hdone
    obtain rfl := hrun.eq hfail
    rfl
  · subst hi
    obtain ⟨r, u, err, info, hfail, rfl⟩ := exec_single_not_done (run := walkStage) rfl h hdone
    obtain rfl | rfl := walkStage_fail_cases hfail
    · exact .inl rfl
    · exact .inr rfl

/-! ### The ENGINE's turn (60_exceptions.md R264) -/

theorem resetComes_eq_false_iff {l : List HostOp} : resetComes l = false ↔ ∀ rest, l ≠ .assertReset :: rest := by
  cases l with
  | nil => simp [resetComes]
  | cons op l => cases op <;> simp [resetComes]

theorem hostYields_iff {l : List HostOp} : hostYields l = true ↔ l = [] ∨ ∃ rest, l = .wait :: rest := by
  cases l with
  | nil => simp [hostYields]
  | cons op l => cases op <;> simp [hostYields]

theorem engineMoves_iff {s : State} : engineMoves s = true ↔
    s.busy = true ∧ (∀ rest, s.inputs ≠ .assertReset :: rest) ∧
      (s.inputs = [] ∨ (∃ rest, s.inputs = .wait :: rest) ∨ s.engineDelay = 0) := by
  simp only [engineMoves, Bool.and_eq_true, Bool.not_eq_true', Bool.or_eq_true, beq_iff_eq, resetComes_eq_false_iff,
    hostYields_iff, and_assoc, or_assoc]

/-- Settles O4: under these conditions it is the ENGINE's turn, and it runs what the word decodes to. -/
theorem stepRunsDecodedCommand : Obligations.StepRunsDecodedCommand := by
  unfold Obligations.StepRunsDecodedCommand
  intro s i hd hb hreset hturn
  rw [step_engine (engineMoves_iff.mpr ⟨hb, hreset, hturn⟩), engineStep_command hd]

/-! ### The interrupt (60_exceptions.md R268) -/

theorem irq_eq_false {s : State} (hd : s.done = false ∨ s.doneIe = false) (he : s.error = false ∨ s.errIe = false) :
    irq s = false := by
  obtain hd | hd := hd <;> obtain he | he := he <;> simp [irq, hd, he]

/-- Settles O11: the level is a function of DONE, ERROR and the enables, and each access writes them as the map says. -/
theorem interruptLevel : Obligations.InterruptLevel := by
  unfold Obligations.InterruptLevel
  intro s
  have henables (v : Word) : hostWrite 0x040#64 8 v s = (.written, { s with doneIe := v.getLsbD 0, errIe := v.getLsbD 1 }) :=
    hostWrite_register (r := .irqEn) rfl rfl rfl
  have hclear (v : Word) : hostWrite 0x028#64 8 v s = (.written, clearStatus v s) :=
    hostWrite_register (r := .status) rfl rfl rfl
  refine ⟨by simp [irq], ?_, henables, hclear, ?_, ?_, fun hb v => ?_, fun _ => rfl, fun _ _ _ _ => rfl⟩
  · obtain ⟨v, -, hv, -⟩ := readReg_status s
    obtain ⟨-, -, -, -, hirq⟩ := statusWord_low s v
    rw [hv, hirq]
  · rw [henables]
    exact irq_eq_false (.inr (by simp)) (.inr (by simp))
  · rw [hclear]
    exact irq_eq_false (.inl (by simp)) (.inl (by simp))
  · have hw : writeReg .cmd v s = some (accept v s) := by simp [writeReg, hb]
    have hcmd : hostWrite 0x020#64 8 v s = (.written, accept v s) := hostWrite_register rfl rfl hw
    rw [hcmd]
    exact irq_eq_false (.inl rfl) (.inl rfl)

end Sys2Proof.Machine
end

section
/-! PROOFS. The statements of 70_reset_and_hazards.md: what reset does, what HOST reads and writes while a command runs, when
OVERRUN changes, and that every accepted command completes. -/

namespace Sys2Proof.Machine

/-! ### Reset (70_reset_and_hazards.md R300, R301) -/

/-- Settles O25: under the invariant a block whose reset is asserted is idle, so HOST moves, and its access is not taken. -/
theorem resetTakesNoAccess : Obligations.ResetTakesNoAccess := by
  unfold Obligations.ResetTakesNoAccess
  intro s hi hr
  have hb : s.busy = false := hi.control.resetIdle hr
  have hm : engineMoves s = false := by simp [engineMoves, hb]
  refine ⟨hm, fun op rest hin hassert hrelease => ?_⟩
  rw [step_host hm, hostStep_cons hin, perform_notTaken (s := { s with inputs := rest }) hr hassert hrelease, answer_idle hb]

/-- An assertion that comes now is what the step does, whether a command runs or not. -/
theorem step_assertReset {s : State} {rest : List HostOp} (h : s.inputs = .assertReset :: rest) :
    step s = .next (resetBlock true { s with inputs := rest }) := by
  have hm : engineMoves s = false := by simp [engineMoves, h, resetComes]
  rw [step_host hm, hostStep_cons h]
  rfl

/-- Settles O24: the step is the reset, and what the reset leaves is the state of 10_state.md R60. -/
theorem resetAbandons : Obligations.ResetAbandons := by
  unfold Obligations.ResetAbandons
  intro s rest h
  exact ⟨_, step_assertReset h, rfl, rfl, rfl, rfl, rfl, resetState_resetBlock .., rfl, rfl, rfl⟩

/-! ### Accesses while a command runs (70_reset_and_hazards.md R320, R321) -/

/-- Settles O17: these registers are not drawn, and the invariant says that the reports are 0 while a command runs. -/
theorem busyReads : Obligations.BusyReads := by
  unfold Obligations.BusyReads
  intro s hi hb
  obtain ⟨hdone, herror, herr, hinfo⟩ := hi.control.busyClear hb
  obtain ⟨-, -, hplain, -⟩ := registerMap
  obtain ⟨hid, hcapIn, hcapOut, hcapBits, hcmd, herrReg, hinfoReg, hinLen, hirqEn⟩ := hplain s
  rw [herr] at herrReg
  rw [hinfo] at hinfoReg
  have hselector (r : Reg) (hr : r ∈ [.lsel, .ssel, .nsel, .bsel, .psel]) : readReg r s = (regValue r s, s) :=
    readReg_undrawn (by rintro rfl; exact absurd hr (by decide)) (by revert r; decide) s
  refine ⟨hid, hcapIn, hcapOut, hcapBits, hcmd, hinLen, herrReg, hinfoReg, hirqEn, hselector .lsel (by decide),
    hselector .ssel (by decide), hselector .nsel (by decide), hselector .bsel (by decide), hselector .psel (by decide),
    ?_, fun a ha => ?_⟩
  · obtain ⟨v, -, hv, -⟩ := readReg_status s
    obtain ⟨h0, h1, h2, h3, h4⟩ := statusWord_low s v
    rw [hv, h0, h1, h2, h3, h4]
    exact ⟨hb, hdone, herror, rfl, irq_eq_false (.inl hdone) (.inl herror)⟩
  · exact (inMemAccess s hi.data.caps a ha 0#64).1

/-- While a command runs IN_MEM and IN_LEN take no write, of any width (70_reset_and_hazards.md R320). -/
theorem hostWrite_inputs_busy {s : State} (hb : s.busy = true) {o : Word} (ho : inWindow s o ∨ o.toNat = 0x048) (w : Nat)
    (d : Word) : hostWrite o w d s = (.busError, s) := by
  apply hostWrite_of_busError
  rw [hostWrite_busError_iff]
  have hl := lands_target s o w
  generalize target s o w = tg at hl
  cases hl with
  | reg hw h8 hreg =>
    obtain ⟨hin, -⟩ := not_window_of_reg (s := s) hreg
    have hoff : o.toNat = 0x048 := ho.resolve_left hin
    exact .inr (.inr ⟨hb, .inr (by rw [hoff]; rfl)⟩)
  | inByte _ _ a => exact .inr (.inr ⟨hb, .inl ⟨a, rfl⟩⟩)
  | outByte _ _ a => exact .inr (.inl ⟨a, rfl⟩)
  | none => exact .inl rfl

/-- Settles O18, clause by clause from what a write to each register stores. -/
theorem busyWritesRaceNothing : Obligations.BusyWritesRaceNothing := by
  unfold Obligations.BusyWritesRaceNothing
  intro s hb o w d
  obtain ⟨htable, hreserved, -⟩ := registerMap
  obtain ⟨-, hcmd, -⟩ := cmdRegister
  obtain ⟨-, -, henables, hstatus, -⟩ := interruptLevel s
  refine ⟨(hostWrite_cases o w d s).frame_busy hb, fun ho => hostWrite_inputs_busy hb ho w d, hcmd s d hb, henables d,
    hstatus d, ?_, ?_, ?_, ?_, ?_, fun p hp hro => (htable p hp s).2 hro d,
    fun hlow hhigh h8 => (hreserved s o d hlow hhigh h8).2⟩
  · exact hostWrite_register (r := .lsel) rfl rfl rfl
  · exact hostWrite_register (r := .ssel) rfl rfl rfl
  · exact hostWrite_register (r := .nsel) rfl rfl rfl
  · exact hostWrite_register (r := .bsel) rfl rfl rfl
  · exact hostWrite_register (r := .psel) rfl rfl rfl

/-! ### OVERRUN (70_reset_and_hazards.md R322) -/

/-- What an operation of HOST does to OVERRUN, from BUSY and OVERRUN before it. -/
inductive OverrunEffect (busy overrun : Bool) : HostOp → Bool → Prop where
  | kept (op : HostOp) : OverrunEffect busy overrun op overrun
  | dropped (hb : busy = true) (v : Word) : OverrunEffect busy overrun (.write 0x020#64 8 v) true
  | cleared (v : Word) : OverrunEffect busy overrun (.write 0x028#64 8 v) (overrun && !v.getLsbD 3)
  | assertReset : OverrunEffect busy overrun .assertReset false
  | releaseReset : OverrunEffect busy overrun .releaseReset false

/-- CMD and STATUS are the only registers whose writes touch OVERRUN. -/
theorem writeReg_overrun {r : Reg} {v : Word} {s t : State} (hcmd : r ≠ .cmd) (hstatus : r ≠ .status)
    (h : writeReg r v s = some t) : t.overrun = s.overrun := by
  cases r with
  | cmd => exact absurd rfl hcmd
  | status => exact absurd rfl hstatus
  | inLen =>
    simp only [writeReg, Option.ite_none_left_eq_some, Option.some.injEq] at h
    rw [← h.2]
  | _ => rw [← Option.some.inj h]

/-- A write of a register other than CMD and STATUS, and one that reaches no register, keeps OVERRUN. -/
theorem hostWrite_overrun_kept {o : Word} {w : Nat} {s : State} (hcmd : target s o w ≠ .reg (some .cmd))
    (hstatus : target s o w ≠ .reg (some .status)) (d : Word) : (hostWrite o w d s).2.overrun = s.overrun := by
  unfold hostWrite
  split
  · rename_i r ht
    have hr : r ≠ .cmd ∧ r ≠ .status := ⟨by rintro rfl; exact hcmd ht, by rintro rfl; exact hstatus ht⟩
    split
    · exact writeReg_overrun hr.1 hr.2 ‹_›
    · rfl
  · rfl
  · split <;> rfl
  · rfl
  · rfl

theorem hostWrite_overrun (o : Word) (w : Nat) (d : Word) (s : State) :
    OverrunEffect s.busy s.overrun (.write o w d) (hostWrite o w d s).2.overrun := by
  by_cases hcmd : target s o w = .reg (some .cmd)
  · obtain ⟨rfl, ho⟩ := target_register (k := 4) hcmd rfl
    obtain rfl := eq_ofNat_of_toNat ho
    obtain ⟨hidle, hbusy, -⟩ := cmdRegister
    cases hb : s.busy with
    | true => rw [hbusy s d hb]; exact .dropped rfl d
    | false =>
      obtain ⟨_, _, he⟩ := hidle s d hb
      rw [he]
      exact .kept _
  by_cases hstatus : target s o w = .reg (some .status)
  · obtain ⟨rfl, ho⟩ := target_register (k := 5) hstatus rfl
    obtain rfl := eq_ofNat_of_toNat ho
    obtain ⟨-, -, -, hclear, -⟩ := interruptLevel s
    rw [hclear d]
    exact .cleared d
  rw [hostWrite_overrun_kept hcmd hstatus d]
  exact .kept _

theorem readReg_overrun (r : Reg) (s : State) : (readReg r s).2.overrun = s.overrun := by
  obtain e | ⟨-, e⟩ := readReg_cases r s
  · rw [e]
  · rw [e, draw_overrun]

theorem hostRead_overrun (o : Word) (w : Nat) (s : State) : (hostRead o w s).2.overrun = s.overrun := by
  obtain e | ⟨-, e⟩ := hostRead_cases o w s
  · rw [e]
  · rw [e, draw_overrun]

/-- What an operation does to OVERRUN while the block takes accesses. -/
theorem perform_overrun_taken {s : State} (hr : s.resetAsserted = false) (op : HostOp) :
    OverrunEffect s.busy s.overrun op (perform op s).overrun := by
  cases op with
  | assertReset => exact .assertReset
  | releaseReset =>
    simp only [perform, hr, Bool.false_eq_true, if_false]
    exact .kept _
  | wait =>
    rw [perform_wait hr, answer_overrun, readReg_overrun]
    exact .kept _
  | read o w =>
    rw [perform_read hr, answer_overrun, hostRead_overrun]
    exact .kept _
  | write o w d =>
    rw [perform_write hr, answer_overrun]
    exact hostWrite_overrun o w d s

theorem perform_overrun (op : HostOp) (s : State) : OverrunEffect s.busy s.overrun op (perform op s).overrun := by
  cases hr : s.resetAsserted with
  | false => exact perform_overrun_taken hr op
  | true =>
    by_cases hassert : op = .assertReset
    · subst hassert
      exact .assertReset
    by_cases hrelease : op = .releaseReset
    · subst hrelease
      simp only [perform, hr, if_true]
      exact .releaseReset
    rw [perform_notTaken hr hassert hrelease]
    exact .kept _

/-- A step keeps OVERRUN, or HOST's next operation gives it its value. -/
theorem step_overrun {s t : State} (h : step s = .next t) : t.overrun = s.overrun ∨
    ∃ op rest, s.inputs = op :: rest ∧ OverrunEffect s.busy s.overrun op t.overrun := by
  cases hm : engineMoves s with
  | true =>
    rw [step_engine hm] at h
    obtain ⟨u, hu, -, he | ⟨_, _, _, _, he⟩⟩ := engineStep_cases s
    all_goals
      obtain rfl := Host.Outcome.next.inj (h.symm.trans he)
      exact .inl hu.overrun
  | false =>
    rw [step_host hm] at h
    obtain rfl := Host.Outcome.next.inj h
    cases hi : s.inputs with
    | nil => exact .inl (by rw [hostStep_nil hi])
    | cons op rest =>
      rw [hostStep_cons hi]
      exact .inr ⟨op, rest, rfl, perform_overrun op { s with inputs := rest }⟩

/-- Settles O9: of all that a step can do, a dropped CMD write alone sets OVERRUN, and a write of 1 or a reset alone clears it. -/
theorem overrunIsSticky : Obligations.OverrunIsSticky := by
  unfold Obligations.OverrunIsSticky
  obtain ⟨-, hdrop, -⟩ := cmdRegister
  refine ⟨hdrop, fun s t h => ?_⟩
  obtain he | ⟨op, rest, hi, he⟩ := step_overrun h
  · rw [he]
    exact ⟨.inl, fun h0 h1 => absurd h1 (by simp [h0])⟩
  rw [hi]
  generalize t.overrun = after at he
  cases he with
  | kept => exact ⟨.inl, fun h0 h1 => absurd h1 (by simp [h0])⟩
  | dropped hb v => exact ⟨fun _ => .inl rfl, fun _ _ => ⟨hb, v, rest, rfl⟩⟩
  | cleared v =>
    refine ⟨fun h1 => ?_, fun h0 h1 => absurd h1 (by simp [h0])⟩
    cases hv : v.getLsbD 3 with
    | true => exact .inr (.inl ⟨v, rest, rfl, hv⟩)
    | false => exact .inl (by simp [h1])
  | assertReset => exact ⟨fun _ => .inr (.inr ⟨rest, .inl rfl⟩), fun _ h1 => absurd h1 (by decide)⟩
  | releaseReset => exact ⟨fun _ => .inr (.inr ⟨rest, .inr rfl⟩), fun _ h1 => absurd h1 (by decide)⟩

/-! ### Completion (70_reset_and_hazards.md R326) -/

theorem AccessEffect.inputs {s t : State} (h : AccessEffect s t) : t.inputs = s.inputs := by
  cases h with
  | read | draw => rfl
  | write _ hw => cases hw <;> rfl

/-- An operation of HOST leaves the inputs that come after it. -/
theorem perform_inputs (op : HostOp) (s : State) : (perform op s).inputs = s.inputs := by
  obtain ⟨-, e⟩ | ⟨-, -, e⟩ | ⟨-, -, e⟩ | ⟨reply, t, ht, e⟩ := perform_cases op s
  · rw [e]; rfl
  · rw [e]; rfl
  · rw [e]
  · rw [e, answer_inputs, ht.inputs]

/-- A step after which the command still runs uses up an input, so HOST can delay the completion only by its accesses. -/
theorem step_inputs_of_busy {s t : State} (hb : s.busy = true) (h : step s = .next t) (ht : t.busy = true) :
    ∃ op, s.inputs = op :: t.inputs := by
  have hm : engineMoves s = false := by
    by_contra hm
    rw [step_engine (Bool.eq_true_of_not_eq_false hm)] at h
    exact absurd ht (by simp [engineStep_idle h])
  rw [step_host hm] at h
  obtain rfl := Host.Outcome.next.inj h
  cases hi : s.inputs with
  | nil => simp [engineMoves, hb, hi, resetComes, hostYields] at hm
  | cons op rest => exact ⟨op, by rw [hostStep_cons hi, perform_inputs]⟩

/-- BUSY falls after finitely many steps, by recursion on the inputs to come: a reset among them ends the command as well. -/
theorem reaches_idle (s : State) (hb : s.busy = true) : ∃ n t, Reaches n s t ∧ t.busy = false := by
  obtain ⟨u, hsu⟩ := step_next s
  cases hu : u.busy with
  | false => exact ⟨1, u, ⟨u, hsu, rfl⟩, hu⟩
  | true =>
    obtain ⟨op, hop⟩ := step_inputs_of_busy hb hsu hu
    obtain ⟨n, t, hreach, ht⟩ := reaches_idle u hu
    exact ⟨n + 1, t, ⟨u, hsu, hreach⟩, ht⟩
termination_by s.inputs.length
decreasing_by rw [hop, List.length_cons]; exact Nat.lt_succ_self _

/-- Settles O7: a step has a next state whichever agent moves, and each step of a running command uses up an input of HOST or
completes the command. -/
theorem acceptedCommandsComplete : Obligations.AcceptedCommandsComplete := by
  unfold Obligations.AcceptedCommandsComplete
  exact ⟨step_next, fun s hb _ => reaches_idle s hb⟩

end Sys2Proof.Machine
end
